-- ==== Sys2Proof/Word.lean ====
section
/-! DEFINITION. The word of the command port and the values NUM of the block (spec/00_scope.md R8, R15 to R17). -/

namespace Sys2Proof

/-- A command word is exactly 16 bits long (R101). -/
abbrev CmdWord := BitVec 16

/-- The two IEEE 754 instantiations of NUM (R8). -/
inductive FloatFormat where
  | binary32
  | binary64
  deriving DecidableEq, Repr, Inhabited

/-- The model parameter NUM with its three admitted instantiations (R8). `exact` is the exact arithmetic that R8 admits, over
the rationals and the sines of the default table (log 2). -/
inductive NumFormat where
  | exact
  | ieee (f : FloatFormat)
  deriving DecidableEq, Repr, Inhabited

/-- An exact real number of the field that the sines of the default table generate (R10). At level 0 it is a rational; at level
`n + 1` it is `a + b * theta n`, where `theta n = 2 * cos (pi / 2^(n + 2))` is the square root of `2 + theta (n - 1)`. -/
inductive Surd : Nat → Type where
  | rat {n : Nat} (q : Rat) : Surd n
  | ext {n : Nat} (a b : Surd n) : Surd (n + 1)
  deriving DecidableEq, Repr

/-- A value of NUM, as a value and not as bits: the spec adds, compares and rounds values and never reads
their bits (R17). `fin 0` is the (positive) zero. `surd` holds the irrational values, of Exact only: at level 8 stand the
multiples of the sines `sin (2 * pi * k / 1024)`. The last three constructors are values of the IEEE instantiations only. -/
inductive Value where
  | fin (q : Rat)
  | surd (z : Surd 8)
  | negZero
  | inf (negative : Bool)
  | nan
  deriving DecidableEq, Repr, Inhabited

end Sys2Proof
end

