-- ==== Sys2Proof/Syntax.lean ====
section
/-! DEFINITION. The 20 commands with their operands (spec/30_encoding.md R100 to R105). -/

namespace Sys2Proof

/-- The PID controllers (R23). -/
inductive Sel where
  | fast
  | slow
  deriving DecidableEq, Repr, Inhabited

/-- A command: one constructor per row of the opcode map (R105), with the in-word operand (the selector of format S,
the enable value of format E) and the numeric operands in the order `op0, op1, op2` (R100). -/
inductive Instr where
  | nop
  | wtInterp (x : Value)
  | oscAdvance
  | oscSetEnable (en : Bool)
  | oscSetPhase (phi : Value)
  | mafUpdate (x : Value)
  | mafSetCutoff (fc : Value)
  | liaDemod (e : Value)
  | pidRun (sel : Sel) (e : Value)
  | pidEnable (sel : Sel)
  | pidDisable (sel : Sel)
  | pidHold (sel : Sel)
  | pidReset (sel : Sel)
  | pidIsLimited (sel : Sel)
  | pidSetP (sel : Sel) (p : Value)
  | pidSetI (sel : Sel) (i : Value)
  | pidSetD (sel : Sel) (d : Value)
  | pidSetGains (sel : Sel) (p i d : Value)
  | pidSetTs (sel : Sel) (ts : Value)
  | clStep (e : Value)
  deriving DecidableEq, Repr

/-- The rows of the opcode map without their operands (R105). -/
inductive Opcode where
  | nop
  | wtInterp
  | oscAdvance
  | oscSetEnable
  | oscSetPhase
  | mafUpdate
  | mafSetCutoff
  | liaDemod
  | pidRun
  | pidEnable
  | pidDisable
  | pidHold
  | pidReset
  | pidIsLimited
  | pidSetP
  | pidSetI
  | pidSetD
  | pidSetGains
  | pidSetTs
  | clStep
  deriving DecidableEq, Repr

/-- The three formats, distinguished only by how the bit `B` is read (R103). -/
inductive Format where
  | plain
  | select
  | enable
  deriving DecidableEq, Repr

/-- One row of the opcode map (R105): opcode number, format, numbers of operands and results. -/
structure OpcodeRow where
  opc      : BitVec 8
  op       : Opcode
  format   : Format
  operands : Nat
  results  : Nat
  deriving DecidableEq, Repr

/-- The row an instruction belongs to. -/
def Instr.opcode : Instr → Opcode
  | .nop => .nop
  | .wtInterp _ => .wtInterp
  | .oscAdvance => .oscAdvance
  | .oscSetEnable _ => .oscSetEnable
  | .oscSetPhase _ => .oscSetPhase
  | .mafUpdate _ => .mafUpdate
  | .mafSetCutoff _ => .mafSetCutoff
  | .liaDemod _ => .liaDemod
  | .pidRun _ _ => .pidRun
  | .pidEnable _ => .pidEnable
  | .pidDisable _ => .pidDisable
  | .pidHold _ => .pidHold
  | .pidReset _ => .pidReset
  | .pidIsLimited _ => .pidIsLimited
  | .pidSetP _ _ => .pidSetP
  | .pidSetI _ _ => .pidSetI
  | .pidSetD _ _ => .pidSetD
  | .pidSetGains _ _ _ _ => .pidSetGains
  | .pidSetTs _ _ => .pidSetTs
  | .clStep _ => .clStep

/-- The numeric operands `op0, op1, op2` of an instruction, in their order (R100). -/
def Instr.operands : Instr → List Value
  | .nop => []
  | .wtInterp x => [x]
  | .oscAdvance => []
  | .oscSetEnable _ => []
  | .oscSetPhase phi => [phi]
  | .mafUpdate x => [x]
  | .mafSetCutoff fc => [fc]
  | .liaDemod e => [e]
  | .pidRun _ e => [e]
  | .pidEnable _ => []
  | .pidDisable _ => []
  | .pidHold _ => []
  | .pidReset _ => []
  | .pidIsLimited _ => []
  | .pidSetP _ p => [p]
  | .pidSetI _ i => [i]
  | .pidSetD _ d => [d]
  | .pidSetGains _ p i d => [p, i, d]
  | .pidSetTs _ ts => [ts]
  | .clStep e => [e]

end Sys2Proof
end

