-- ==== Sys2Proof/Decode.lean ====
section
/-! DEFINITION. Command words: the opcode map (spec/30_encoding.md R105), the total decoder (R106 to R108) and the
encoder (R102 to R104). -/

namespace Sys2Proof

/-! ## The opcode map -/

/-- The opcode map, row by row (R105). -/
def opcodeTable : List OpcodeRow :=
  [⟨0x00, .nop, .plain, 0, 0⟩,
   ⟨0x01, .wtInterp, .plain, 1, 1⟩,
   ⟨0x10, .oscAdvance, .plain, 0, 2⟩,
   ⟨0x11, .oscSetEnable, .enable, 0, 0⟩,
   ⟨0x12, .oscSetPhase, .plain, 1, 0⟩,
   ⟨0x20, .mafUpdate, .plain, 1, 1⟩,
   ⟨0x21, .mafSetCutoff, .plain, 1, 0⟩,
   ⟨0x30, .liaDemod, .plain, 1, 1⟩,
   ⟨0x40, .pidRun, .select, 1, 1⟩,
   ⟨0x41, .pidEnable, .select, 0, 0⟩,
   ⟨0x42, .pidDisable, .select, 0, 0⟩,
   ⟨0x43, .pidHold, .select, 0, 0⟩,
   ⟨0x44, .pidReset, .select, 0, 0⟩,
   ⟨0x45, .pidIsLimited, .select, 0, 1⟩,
   ⟨0x48, .pidSetP, .select, 1, 0⟩,
   ⟨0x49, .pidSetI, .select, 1, 0⟩,
   ⟨0x4A, .pidSetD, .select, 1, 0⟩,
   ⟨0x4B, .pidSetGains, .select, 3, 0⟩,
   ⟨0x4C, .pidSetTs, .select, 1, 0⟩,
   ⟨0x50, .clStep, .plain, 1, 2⟩]

/-- The row of an opcode number, if it is not reserved. -/
def rowOf (opc : BitVec 8) : Option OpcodeRow := opcodeTable.find? (fun r => r.opc == opc)

/-! ## Fields of the command word (R102) -/

def CmdWord.opc (w : CmdWord) : BitVec 8 := w.extractLsb' 0 8

def CmdWord.b (w : CmdWord) : Bool := w.getLsbD 8

def CmdWord.rsv (w : CmdWord) : BitVec 7 := w.extractLsb' 9 7

/-- `sel = word[8]` selects the fast controller when 0 and the slow one when 1 (R104). -/
def selOfBit (b : Bool) : Sel := if b then .slow else .fast

def Sel.bit : Sel → Bool
  | .fast => false
  | .slow => true

/-! ## Decoding -/

/-- Why a transaction is malformed. Each of them raises ILLEGAL_COMMAND (R302). -/
inductive DecodeError where
  /-- `w[15:9] != 0` (R107 a). -/
  | reservedBits
  /-- An opcode that the map does not list (R107 b). -/
  | reservedOpcode
  /-- A format-P opcode with `w[8] = 1` (R107 c). -/
  | plainWithB
  /-- A number of operands other than the row's (R108). -/
  | operandCount
  deriving DecidableEq, Repr

/-- The word's row and its bit `B`, or why there is none (R106). -/
def decodeWord (w : CmdWord) : Except DecodeError (OpcodeRow × Bool) :=
  if w.rsv = 0 then
    match rowOf w.opc with
    | none => .error .reservedOpcode
    | some r =>
      if r.format = .plain ∧ w.b = true then .error .plainWithB
      else .ok (r, w.b)
  else .error .reservedBits

/-- The instruction of a row with the operands that came with the word; none when their number is not the row's. -/
def assemble (op : Opcode) (b : Bool) (ops : List Value) : Option Instr :=
  match op, ops with
  | .nop, [] => some .nop
  | .wtInterp, [x] => some (.wtInterp x)
  | .oscAdvance, [] => some .oscAdvance
  | .oscSetEnable, [] => some (.oscSetEnable b)
  | .oscSetPhase, [phi] => some (.oscSetPhase phi)
  | .mafUpdate, [x] => some (.mafUpdate x)
  | .mafSetCutoff, [fc] => some (.mafSetCutoff fc)
  | .liaDemod, [e] => some (.liaDemod e)
  | .pidRun, [e] => some (.pidRun (selOfBit b) e)
  | .pidEnable, [] => some (.pidEnable (selOfBit b))
  | .pidDisable, [] => some (.pidDisable (selOfBit b))
  | .pidHold, [] => some (.pidHold (selOfBit b))
  | .pidReset, [] => some (.pidReset (selOfBit b))
  | .pidIsLimited, [] => some (.pidIsLimited (selOfBit b))
  | .pidSetP, [p] => some (.pidSetP (selOfBit b) p)
  | .pidSetI, [i] => some (.pidSetI (selOfBit b) i)
  | .pidSetD, [d] => some (.pidSetD (selOfBit b) d)
  | .pidSetGains, [p, i, d] => some (.pidSetGains (selOfBit b) p i d)
  | .pidSetTs, [ts] => some (.pidSetTs (selOfBit b) ts)
  | .clStep, [e] => some (.clStep e)
  | _, _ => none

/-- Decode a transaction, a word and its operands: total, rejecting by name (R106 to R108). -/
def decode (w : CmdWord) (ops : List Value) : Except DecodeError Instr :=
  match decodeWord w with
  | .error e => .error e
  | .ok (r, b) =>
    match assemble r.op b ops with
    | some i => .ok i
    | none => .error .operandCount

/-! ## Encoding -/

/-- The opcode number of a row (R105). -/
def Opcode.code : Opcode → BitVec 8
  | .nop => 0x00
  | .wtInterp => 0x01
  | .oscAdvance => 0x10
  | .oscSetEnable => 0x11
  | .oscSetPhase => 0x12
  | .mafUpdate => 0x20
  | .mafSetCutoff => 0x21
  | .liaDemod => 0x30
  | .pidRun => 0x40
  | .pidEnable => 0x41
  | .pidDisable => 0x42
  | .pidHold => 0x43
  | .pidReset => 0x44
  | .pidIsLimited => 0x45
  | .pidSetP => 0x48
  | .pidSetI => 0x49
  | .pidSetD => 0x4A
  | .pidSetGains => 0x4B
  | .pidSetTs => 0x4C
  | .clStep => 0x50

/-- The bit `B` of an instruction: its selector (format S), its enable value (format E), 0 in format P (R103). -/
def Instr.bBit : Instr → Bool
  | .nop => false
  | .wtInterp _ => false
  | .oscAdvance => false
  | .oscSetEnable en => en
  | .oscSetPhase _ => false
  | .mafUpdate _ => false
  | .mafSetCutoff _ => false
  | .liaDemod _ => false
  | .pidRun s _ => s.bit
  | .pidEnable s => s.bit
  | .pidDisable s => s.bit
  | .pidHold s => s.bit
  | .pidReset s => s.bit
  | .pidIsLimited s => s.bit
  | .pidSetP s _ => s.bit
  | .pidSetI s _ => s.bit
  | .pidSetD s _ => s.bit
  | .pidSetGains s _ _ _ => s.bit
  | .pidSetTs s _ => s.bit
  | .clStep _ => false

/-- The command word of an instruction: `RSV = 0`, then `B`, then `OPC` (R102, R103). -/
def Instr.word (i : Instr) : CmdWord := (0#7 ++ BitVec.ofBool i.bBit) ++ i.opcode.code

/-- The transaction of an instruction: its word and its operands (R100). -/
def encode (i : Instr) : CmdWord × List Value := (i.word, i.operands)

/-! ## The opcode table's words -/

/-- The operands that an opcode number takes, all zero; none for a reserved number. The opcode table gives operands no
bits, so a table word stands for its command with operands of zeros. -/
def zeroOperands (w : CmdWord) : List Value :=
  match rowOf w.opc with
  | some r => List.replicate r.operands (.fin 0)
  | none => []

/-- The instruction the decoder reads from the table word `w` of `nbits` bits. -/
def decodeTableWord (nbits w : Nat) : Option Instr :=
  if nbits = 16 ∧ w < 2 ^ 16 then
    match decode (BitVec.ofNat 16 w) (zeroOperands (BitVec.ofNat 16 w)) with
    | .ok i => some i
    | .error _ => none
  else none

end Sys2Proof
end

