-- ==== Sys2Proof/Machine/Rational.lean ====
section
/-! DEFINITION. Exact rational arithmetic (spec/00_scope.md R16 to R18), written with `mkRat`, whose reduction the kernel evaluates;
Laws/Rational.lean proves it the library's. -/

namespace Sys2Proof

def ratAdd (a b : Rat) : Rat := mkRat (a.num * b.den + b.num * a.den) (a.den * b.den)

def ratMul (a b : Rat) : Rat := mkRat (a.num * b.num) (a.den * b.den)

/-- The quotient for `b ≠ 0`. -/
def ratDiv (a b : Rat) : Rat := mkRat (a.num * b.den * b.num.sign) (a.den * b.num.natAbs)

def ratLt (a b : Rat) : Bool := decide (a.num * b.den < b.num * a.den)

/-- `2^n` as a rational. -/
def pow2 (n : Nat) : Rat := mkRat (2 ^ n : Nat) 1

/-- The nearest integer, halves away from zero (R18). -/
def roundHalfAway (q : Rat) : Int :=
  let m : Int := ((2 * q.num.natAbs + q.den) / (2 * q.den) : Nat)
  if q.num < 0 then -m else m

end Sys2Proof
end

