-- ==== Sys2Proof/Laws/Rational.lean ====
section
/-! SUPPORT. The rational operations of Machine/Rational.lean are the library's. -/

namespace Sys2Proof

theorem ratAdd_eq (a b : Rat) : ratAdd a b = a + b := (Rat.add_def' a b).symm

theorem ratMul_eq (a b : Rat) : ratMul a b = a * b := (Rat.mul_def' a b).symm

theorem ratDiv_eq (a b : Rat) : ratDiv a b = a / b := by
  rcases eq_or_ne b.num 0 with hb | hb
  · have : b = 0 := Rat.num_eq_zero.mp hb
    subst this
    simp [ratDiv]
  · have ha : (a.den : Rat) ≠ 0 := by exact_mod_cast a.den_nz
    have hd : (b.den : Rat) ≠ 0 := by exact_mod_cast b.den_nz
    have hn : ((b.num.natAbs : Nat) : Rat) ≠ 0 := by
      have : b.num.natAbs ≠ 0 := Int.natAbs_ne_zero.mpr hb
      exact_mod_cast this
    have hbn : (b.num : Rat) ≠ 0 := by exact_mod_cast hb
    have hsign : (b.num.sign : Rat) * (b.num : Rat) = ((b.num.natAbs : Nat) : Rat) := by
      have h2 : b.num.sign * b.num = (b.num.natAbs : Int) := by
        rcases lt_trichotomy b.num 0 with h | h | h
        · rw [Int.sign_eq_neg_one_of_neg h]; omega
        · exact absurd h hb
        · rw [Int.sign_eq_one_of_pos h]; omega
      rw [← Int.cast_mul, h2, Int.cast_natCast]
    rw [ratDiv, Rat.mkRat_eq_div]
    conv_rhs => rw [← Rat.num_div_den a, ← Rat.num_div_den b]
    push_cast
    field_simp
    rw [← hsign]
    ring

theorem ratLt_iff (a b : Rat) : ratLt a b = true ↔ a < b := by
  rw [ratLt, decide_eq_true_iff, Rat.lt_iff]

theorem pow2_eq (n : Nat) : pow2 n = 2 ^ n := by
  simp [pow2, Rat.mkRat_one]

end Sys2Proof
end

