-- ==== Sys2Proof/Machine/Blocks.lean ====
section
/-! DEFINITION. The components' state as plain data (spec/10_state.md R41, R45, R50, R56). -/

namespace Sys2Proof.Machine

open Sys2Proof

/-- The two sets of a double buffer, index 0 and index 1 (R50). -/
structure Two (α : Type) where
  zero : α
  one  : α
  deriving DecidableEq, Repr, Inhabited

/-- The set that an index names. -/
def Two.get {α : Type} (t : Two α) (i : Fin 2) : α :=
  match i with
  | 0 => t.zero
  | 1 => t.one

/-- Replace the set that an index names. -/
def Two.set {α : Type} (t : Two α) (i : Fin 2) (a : α) : Two α :=
  match i with
  | 0 => { t with zero := a }
  | 1 => { t with one := a }

/-- The index of the other set, `1 - i` (R229, R238). -/
def shadow (i : Fin 2) : Fin 2 :=
  match i with
  | 0 => 1
  | 1 => 0

/-- Anti-windup strategy of a PID controller (R14). -/
inductive AntiWindup where
  | none
  | conditional
  deriving DecidableEq, Repr, Inhabited

/-- The three states of the PID state machine (R228). -/
inductive Fsm where
  | idle
  | running
  | hold
  deriving DecidableEq, Repr, Inhabited

/-- A coefficient set `(p_coef, i_coef, d_coef)` (R50, R221). -/
structure CoefSet where
  pc : Value
  ic : Value
  dc : Value
  deriving DecidableEq, Repr, Inhabited

/-- A delay set: last integrator, last error, last saturation, previous integral coefficient (R50). -/
structure DelaySet where
  integ : Value
  perr  : Value
  psat  : Value
  pic   : Value
  deriving DecidableEq, Repr, Inhabited

/-- The oscillator state (R41). -/
structure Osc where
  en        : Bool
  amp       : Value
  off       : Value
  phaseCfg  : Value
  phaseSeen : Value
  W         : Nat
  G         : Nat
  fw        : Int
  detune    : Int
  accP      : Int
  accS      : Int
  deriving DecidableEq, Repr, Inhabited

/-- The moving-average filter state (R45). `buf` is the array BUF, element `k` at position `k`. -/
structure Maf where
  buf : List Value
  cur : Nat
  sum : Value
  N   : Nat
  fc  : Value
  fs  : Value
  deriving DecidableEq, Repr, Inhabited

/-- The state of one PID controller (R50). -/
structure Pid where
  Ts     : Value
  p      : Value
  i      : Value
  d      : Value
  K      : Value
  min    : Value
  max    : Value
  aw     : AntiWindup
  coef   : Two CoefSet
  ac     : Fin 2
  dly    : Two DelaySet
  ad     : Fin 2
  fsm    : Fsm
  frozen : Bool
  cv     : Value
  deriving DecidableEq, Repr, Inhabited

/-- The control-loop fields (R56). -/
structure Loop where
  tick     : Nat
  countlim : Nat
  slowLast : Value
  deriving DecidableEq, Repr, Inhabited

/-- The active coefficient set, the one `ac` names (R50). -/
def Pid.activeCoef (P : Pid) : CoefSet := P.coef.get P.ac

/-- The active delay set, the one `ad` names (R50). -/
def Pid.activeDly (P : Pid) : DelaySet := P.dly.get P.ad

end Sys2Proof.Machine
end

