-- ==== Sys2Proof/Config.lean ====
section
/-! DEFINITION. The implementation parameters (spec/00_scope.md R7 to R14), the configuration record that reset
takes (spec/10_state.md R33), and the free values: constants without a body, about which nothing can be proved. -/

namespace Sys2Proof.Config

open Sys2Proof Sys2Proof.Machine

/-- The wave table length `L` (R7). -/
abbrev L : Nat := 1024

/-- The parameters an implementation fixes: NUM (R8), MAF_CAPACITY `C` (R9), SINE_TABLE (R10),
CL_DOUBLE_INCREMENT (R11). BUS_BYTE_ORDER (R13) is left out: no rule reads it (log 5). -/
structure Params where
  num             : NumFormat
  capacity        : Nat
  sineTable       : List Value
  doubleIncrement : Bool
  deriving DecidableEq, Repr, Inhabited

/-- The fields `pid_s_*` of the configuration record for one controller (R33). -/
structure PidRecord where
  Ts   : Value
  p    : Value
  i    : Value
  d    : Value
  gain : Value
  min  : Value
  max  : Value
  aw   : AntiWindup
  deriving DecidableEq, Repr, Inhabited

/-- The configuration record `cfg` (R33). -/
structure Record where
  oscEnable    : Bool
  oscAmplitude : Value
  oscOffset    : Value
  oscFreq      : Value
  oscPhase     : Value
  oscClock     : Value
  oscW         : Nat
  oscG         : Nat
  loopRate     : Value
  mafCutoff    : Value
  slowRate     : Value
  pidFast      : PidRecord
  pidSlow      : PidRecord
  deriving DecidableEq, Repr, Inhabited

/-- The base configuration CFG1 of spec/95_test_vectors.md. The spec fixes no configuration; the model's reset
state is that of CFG1 (DESIGN CHOICE, log 1). -/
def cfg1 : Record where
  oscEnable := true
  oscAmplitude := .fin 1
  oscOffset := .fin 0
  oscFreq := .fin 256
  oscPhase := .fin 0
  oscClock := .fin 1024
  oscW := 10
  oscG := 10
  loopRate := .fin 1200
  mafCutoff := .fin 300
  slowRate := .fin 400
  pidFast :=
    { Ts := .fin 1, p := .fin 1, i := .fin 0, d := .fin 0, gain := .fin 1, min := .fin (-10), max := .fin 10,
      aw := .none }
  pidSlow :=
    { Ts := .fin 1, p := .fin 0, i := .fin 1, d := .fin 0, gain := .fin 1, min := .fin (-100), max := .fin 100,
      aw := .conditional }

/-- FREE VALUE (log 6). `x / 0` under NUM = Exact: the spec gives it no value. The validated configuration keeps
every divisor positive, so only states that no reset leads to meet it. -/
opaque exactDivByZero : Value → Rat

/-- FREE VALUE (log 6). What `round` and `floor` (R18) read from an infinite or NaN value: the spec gives no
integer there, and every rule checks finiteness first. -/
opaque ratOfNonFinite : Value → Rat

/-- FREE VALUE (log 6). What an IEEE format would round an irrational number to: its values are rational, and so are their sums,
products and quotients. -/
opaque ratOfSurd : Surd 8 → Rat

/-! FREE VALUES (log 8). The state other than STATUS after a failed reset is unspecified (R70, R343). The first argument
is the state's counter `free`, which each failed reset advances. The two arrays keep their sizes (R80, R96). -/

/-- One entry of WT; the second argument is its index. -/
opaque freeTableEntry : Nat → Nat → Value

/-- One entry of BUF; the second argument is its index. -/
opaque freeBufEntry : Nat → Nat → Value

opaque freeOsc : Nat → Osc

opaque freeMaf : Nat → Maf

opaque freePidFast : Nat → Pid

opaque freePidSlow : Nat → Pid

opaque freeLoop : Nat → Loop

end Sys2Proof.Config
end

