-- ==== Sys2Proof/Machine/Surd.lean ====
section
/-! DEFINITION. Exact real arithmetic (spec/00_scope.md R8, R17, R18) on the numbers of Word.lean's `Surd`: each level is the one
below with a square root added. Everything is by recursion on the level. Laws/Surd.lean proves that each operation computes the
real number it is named after. -/

namespace Sys2Proof.Surd

/-! ## The two parts of a number of level `n + 1` -/

/-- `a` of `a + b * theta n`. -/
def base {n : Nat} : Surd (n + 1) → Surd n
  | .rat q => .rat q
  | .ext a _ => a

/-- `b` of `a + b * theta n`. -/
def coef {n : Nat} : Surd (n + 1) → Surd n
  | .rat _ => .rat 0
  | .ext _ b => b

/-- `a + b * theta n`, a rational written as one. -/
def join {n : Nat} : Surd n → Surd n → Surd (n + 1)
  | .rat p, .rat q => if q.num = 0 then .rat p else .ext (.rat p) (.rat q)
  | a, b => .ext a b

/-- The square of `theta n`. -/
def radicand : (n : Nat) → Surd n
  | 0 => .rat 2
  | _ + 1 => .ext (.rat 2) (.rat 1)

/-- Is the number written as a rational? -/
def isRat {n : Nat} : Surd n → Bool
  | .rat _ => true
  | .ext _ _ => false

/-- Every rational part is written as a rational. -/
def reduced {n : Nat} : Surd n → Bool
  | .rat _ => true
  | .ext (.rat _) (.rat q) => decide (q.num ≠ 0)
  | .ext a b => a.reduced && b.reduced

/-! ## The ring operations -/

def neg {n : Nat} : Surd n → Surd n
  | .rat q => .rat (-q)
  | .ext a b => join a.neg b.neg

def add : {n : Nat} → Surd n → Surd n → Surd n
  | _, .rat p, .rat q => .rat (ratAdd p q)
  | _ + 1, x, y => join (add x.base y.base) (add x.coef y.coef)

def sub {n : Nat} (x y : Surd n) : Surd n := add x y.neg

/-- `p * x`. -/
def scale {n : Nat} (p : Rat) : Surd n → Surd n
  | .rat q => .rat (ratMul p q)
  | .ext a b => join (scale p a) (scale p b)

def mul : {n : Nat} → Surd n → Surd n → Surd n
  | _, .rat p, y => scale p y
  | _, x, .rat q => scale q x
  | n + 1, x, y =>
    join (add (mul x.base y.base) (mul (radicand n) (mul x.coef y.coef))) (add (mul x.base y.coef) (mul x.coef y.base))

/-! ## Sign and quotient -/

/-- `(a + b * theta n) * (a - b * theta n)`. -/
def norm {n : Nat} (x : Surd (n + 1)) : Surd n :=
  sub (mul x.base x.base) (mul (radicand n) (mul x.coef x.coef))

/-- The sign, one of -1, 0 and 1. Where the two parts have opposite signs, the one with the greater square prevails. -/
def sign : {n : Nat} → Surd n → Int
  | _, .rat q => q.num.sign
  | _ + 1, x =>
    let a := sign x.base
    let b := sign x.coef
    if a = 0 then b
    else if b = 0 then a
    else if a = b then a
    else a * sign x.norm

/-- The reciprocal of a number that is not zero, whose norm is not zero then. -/
def inv : {n : Nat} → Surd n → Surd n
  | _, .rat q => .rat (ratDiv 1 q)
  | _ + 1, x =>
    let r := inv x.norm
    join (mul x.base r) (neg (mul x.coef r))

/-- The quotient by a number that is not zero. -/
def div {n : Nat} : Surd n → Surd n → Surd n
  | .rat p, .rat q => .rat (ratDiv p q)
  | x, y => mul x (inv y)

/-! ## Comparisons -/

def lt {n : Nat} : Surd n → Surd n → Bool
  | .rat p, .rat q => ratLt p q
  | x, y => decide ((sub x y).sign < 0)

def eq {n : Nat} : Surd n → Surd n → Bool
  | .rat p, .rat q => decide (p = q)
  | x, y => decide ((sub x y).sign = 0)

/-! ## Integers (R18) -/

/-- A natural number above the absolute value. -/
def bound {n : Nat} : Surd n → Nat
  | .rat q => q.num.natAbs / q.den + 1
  | .ext a b => a.bound + 2 * b.bound

/-- The greatest integer not above `x`, for `x` in `lo .. lo + 2^k`: the half in which `x` lies, and so on. -/
def floorFrom {n : Nat} (x : Surd n) : Nat → Int → Int
  | 0, lo => lo
  | k + 1, lo =>
    if x.lt (.rat (mkRat (lo + 2 ^ k) 1)) then floorFrom x k lo else floorFrom x k (lo + 2 ^ k)

/-- The greatest integer not above. -/
def floor {n : Nat} : Surd n → Int
  | .rat q => q.num / (q.den : Int)
  | x => floorFrom x (Nat.log2 x.bound + 2) (-(x.bound : Int))

/-- The nearest integer, halves away from zero. -/
def round {n : Nat} : Surd n → Int
  | .rat q => roundHalfAway q
  | x =>
    if x.sign < 0 then -(floor (add x.neg (.rat (mkRat 1 2)))) else floor (add x (.rat (mkRat 1 2)))

end Sys2Proof.Surd
end

