-- ==== Sys2Proof/Machine/Arith.lean ====
section
/-! DEFINITION. NUM arithmetic (spec/00_scope.md R8, R16 to R20): every operation computes the exact result and
rounds it once. -/

namespace Sys2Proof


/-! ## Formats -/

/-- R17: true for every value that is neither infinite nor NaN. -/
def Value.isFinite : Value → Bool
  | .fin _ => true
  | .surd _ => true
  | .negZero => true
  | .inf _ => false
  | .nan => false

/-- Number of significand bits of an IEEE format, the leading one included (PRESUMED, IEEE 754, log 3). -/
def FloatFormat.precision : FloatFormat → Nat
  | .binary32 => 24
  | .binary64 => 53

/-- Exponent of the least normal value (PRESUMED, IEEE 754, log 3). -/
def FloatFormat.emin : FloatFormat → Int
  | .binary32 => -126
  | .binary64 => -1022

/-- Exponent of the greatest binade (PRESUMED, IEEE 754, log 3). -/
def FloatFormat.emax : FloatFormat → Int
  | .binary32 => 127
  | .binary64 => 1023

/-! ## Rounding to an IEEE format (R8, R17; PRESUMED IEEE 754, log 3) -/

/-- `floor (log2 (n / d))` for positive `n` and `d`. -/
def floorLog2 (n d : Nat) : Int :=
  let e : Int := (Nat.log2 n : Int) - (Nat.log2 d : Int)
  if d * 2 ^ e.toNat ≤ n * 2 ^ (-e).toNat then e else e - 1

/-- `n / d` to the nearest natural number, ties to even. -/
def divRoundEven (n d : Nat) : Nat :=
  let q := n / d
  let r := n % d
  if 2 * r < d then q
  else if d < 2 * r then q + 1
  else if q % 2 = 0 then q
  else q + 1

/-- Exponent of the last significand bit that a value with leading exponent `e` has in format `f`. -/
def ulpExp (f : FloatFormat) (e : Int) : Int := max e f.emin - ((f.precision : Int) - 1)

/-- `m * 2^k` as a rational. -/
def scale2 (m : Int) (k : Int) : Rat := mkRat (m * (2 ^ k.toNat : Nat)) (2 ^ (-k).toNat)

/-- A rational rounded to the nearest value of an IEEE format, ties to even. `neg` is the sign of a zero result whose
exact value is zero; a nonzero value that rounds to zero keeps its own sign; a value beyond the format's range
becomes an infinity. -/
def roundIeee (f : FloatFormat) (neg : Bool) (q : Rat) : Value :=
  if q.num = 0 then (if neg then .negZero else .fin 0)
  else
    let n := q.num.natAbs
    let k := ulpExp f (floorLog2 n q.den)
    let m := divRoundEven (n * 2 ^ (-k).toNat) (q.den * 2 ^ k.toNat)
    let negative := decide (q.num < 0)
    if m = 0 then (if negative then .negZero else .fin 0)
    else if f.emax < (Nat.log2 m : Int) + k then .inf negative
    else .fin (scale2 (if negative then -(m : Int) else m) k)

/-- The value of NUM = Exact that an exact number is. -/
def ofSurd : Surd 8 → Value
  | .rat q => .fin q
  | z => .surd z

/-- The rational that an exact number is. Operations on values of an IEEE format give no other; of an irrational one this is a
free value (log 6). -/
def Surd.toRat : Surd 8 → Rat
  | .rat q => q
  | z => Config.ratOfSurd z

/-- The exact result `z` rounded once to NUM (no rounding for Exact, R17). -/
def rnd (fmt : NumFormat) (neg : Bool) (z : Surd 8) : Value :=
  match fmt with
  | .exact => ofSurd z
  | .ieee f => roundIeee f neg z.toRat

/-- The exact number that a finite NUM is. For a non-finite one the spec gives none: a free value (log 6). -/
def Value.exact : Value → Surd 8
  | .fin q => .rat q
  | .surd z => z
  | .negZero => .rat 0
  | x => .rat (Config.ratOfNonFinite x)

/-- The sign of a value; `-0` is negative. -/
def Value.negative : Value → Bool
  | .fin q => decide (q.num < 0)
  | .surd z => decide (z.sign < 0)
  | .negZero => true
  | .inf s => s
  | .nan => false

def Value.isZero (x : Value) : Bool := x.isFinite && decide (x.exact.sign = 0)

/-! ## The four operations (R17). Infinities, NaN and signed zeros are those of IEEE 754 (PRESUMED, log 3). -/

def Value.neg : Value → Value
  | .fin q => if q.num = 0 then .negZero else .fin (-q)
  | .surd z => ofSurd z.neg
  | .negZero => .fin 0
  | .inf s => .inf (!s)
  | .nan => .nan

def Value.add (fmt : NumFormat) (x y : Value) : Value :=
  match x, y with
  | .nan, _ => .nan
  | _, .nan => .nan
  | .inf a, .inf b => if a = b then .inf a else .nan
  | .inf a, _ => .inf a
  | _, .inf b => .inf b
  | .negZero, .negZero => .negZero
  | x, y => rnd fmt false (x.exact.add y.exact)

def Value.sub (fmt : NumFormat) (x y : Value) : Value := Value.add fmt x y.neg

def Value.mul (fmt : NumFormat) (x y : Value) : Value :=
  match x, y with
  | .nan, _ => .nan
  | _, .nan => .nan
  | .inf a, .inf b => .inf (a != b)
  | .inf a, y => if y.isZero then .nan else .inf (a != y.negative)
  | x, .inf b => if x.isZero then .nan else .inf (x.negative != b)
  | x, y => rnd fmt (x.negative != y.negative) (x.exact.mul y.exact)

/-- A finite quotient by zero: an infinity or NaN of an IEEE format; under Exact a free value (log 6). -/
def divByZero (fmt : NumFormat) (x y : Value) : Value :=
  match fmt with
  | .exact => .fin (Config.exactDivByZero x)
  | .ieee _ => if x.isZero then .nan else .inf (x.negative != y.negative)

def Value.div (fmt : NumFormat) (x y : Value) : Value :=
  match x, y with
  | .nan, _ => .nan
  | _, .nan => .nan
  | .inf _, .inf _ => .nan
  | .inf a, y => .inf (a != y.negative)
  | x, .inf b => rnd fmt (x.negative != b) (.rat 0)
  | x, y =>
    if y.isZero then divByZero fmt x y
    else rnd fmt (x.negative != y.negative) (x.exact.div y.exact)

/-- `toNUM(n)`: the nearest NUM value, ties to even (R17). -/
def toNum (fmt : NumFormat) (n : Int) : Value := rnd fmt false (.rat (mkRat n 1))

/-! ## Comparisons: of values, exactly, with `-0 == +0`; false when an operand is NaN (R17; log 3) -/

def Value.lt (x y : Value) : Bool :=
  match x, y with
  | .nan, _ => false
  | _, .nan => false
  | .inf a, .inf b => a && !b
  | .inf a, _ => a
  | _, .inf b => !b
  | x, y => x.exact.lt y.exact

def Value.eq (x y : Value) : Bool :=
  match x, y with
  | .nan, _ => false
  | _, .nan => false
  | .inf a, .inf b => a == b
  | .inf _, _ => false
  | _, .inf _ => false
  | x, y => x.exact.eq y.exact

def Value.le (x y : Value) : Bool := x.lt y || x.eq y

/-- `clamp(x, lo, hi)` (R20). -/
def clamp (x lo hi : Value) : Value :=
  if x.lt lo then lo
  else if hi.lt x then hi
  else x

/-! ## Integers from values (R18) -/

/-- `round(x)`: the nearest integer, halves away from zero. -/
def Value.round (x : Value) : Int := x.exact.round

/-- `floor(x)`: the greatest integer not above. -/
def Value.floor (x : Value) : Int := x.exact.floor

/-! ## pi (R19) -/

/-- The denominator `2^400` of the two bounds of pi. -/
def piScale : Nat := 2 ^ 200 * 2 ^ 200

/-- `floor (pi * 2^400)` (the digits are not in the spec, log 7; `Laws/Pi.lean` proves them). -/
def piFloor : Nat := 8112377246730971238862271351300894519161151600179265203591191037615230905373990498745523360926816815427566779727327576236

/-- The NUM value nearest pi, for the IEEE formats (log 7; `Laws/Pi.lean` proves it nearest). -/
def piIeee : FloatFormat → Value
  | .binary32 => .fin (mkRat 13176795 (2 ^ 22))
  | .binary64 => .fin (mkRat 884279719003555 (2 ^ 48))

/-- The sum of the first terms of the series of `arctan (1 / m)`. -/
def arctanSum (m : Nat) : Nat → Rat
  | 0 => 0
  | k + 1 => ratAdd (arctanSum m k) (mkRat ((-1) ^ k) (m ^ (2 * k + 1) * (2 * k + 1)))

/-- Machin's formula `pi = 4 * (4 * arctan (1 / 5) - arctan (1 / 239))` on two partial sums. -/
def machin (j k : Nat) : Rat := ratMul 4 (ratAdd (ratMul 4 (arctanSum 5 j)) (ratMul (-1) (arctanSum 239 k)))

/-- Rational bounds of pi that close in on it as `n` grows: the series alternate. -/
def piBelow (n : Nat) : Rat := machin (2 * n) (2 * n + 1)

def piAbove (n : Nat) : Rat := machin (2 * n + 1) (2 * n)

/-- `round(x / (p / 2))`. -/
def roundOverHalf (x : Surd 8) (p : Rat) : Int := (x.div (.rat (ratMul p (mkRat 1 2)))).round

/-- Do the bounds with index `n` round the quotient to one integer? -/
def boundsAgree (x : Surd 8) (n : Nat) : Bool :=
  ratLt 0 (piBelow n) && decide (roundOverHalf x (piBelow n) = roundOverHalf x (piAbove n))

/-! ## Values of a format -/

/-- Is `x` a value of NUM? Exact has the rationals and the irrational numbers of its field, each written in one way; an IEEE
format has the rationals that rounding to it leaves as they are, `-0`, the infinities and NaN (R8). -/
def isOf (fmt : NumFormat) (x : Value) : Bool :=
  match fmt, x with
  | .exact, .fin _ => true
  | .exact, .surd z => z.reduced && !z.isRat
  | .exact, _ => false
  | .ieee f, .fin q => decide (roundIeee f false q = .fin q)
  | .ieee _, .surd _ => false
  | .ieee _, _ => true

end Sys2Proof
end

