-- ==== Sys2Proof/Machine/Real.lean ====
section
/-! DEFINITION. The real number that an exact value stands for: what the statements and the laws speak of; no step evaluates it. -/

namespace Sys2Proof

/-- The square root that level `n + 1` adds. -/
noncomputable def Surd.theta (n : Nat) : Real := 2 * Real.cos (Real.pi / 2 ^ (n + 2))

/-- The real number. -/
noncomputable def Surd.real {n : Nat} : Surd n → Real
  | .rat q => q
  | .ext (n := m) a b => a.real + b.real * Surd.theta m

/-- The real number that a finite value of NUM is. -/
noncomputable def Value.real (x : Value) : Real := x.exact.real

end Sys2Proof
end

