-- ==== Sys2Proof/Laws/Surd.lean ====
section
/-! SUPPORT. The operations of Machine/Surd.lean compute the real numbers they are named after (spec/00_scope.md R17, R18), and their
results are written in the reduced form. -/

namespace Sys2Proof

/-! ## The library's rationals, again -/

/-- Rounding half away from zero by the floor. -/
theorem roundHalfAway_eq (q : Rat) : roundHalfAway q = if q < 0 then -⌊-q + 1 / 2⌋ else ⌊q + 1 / 2⌋ := by
  have hd : (0 : Rat) < q.den := by exact_mod_cast q.pos
  have hq : q = (q.num : Rat) / q.den := q.num_div_den.symm
  have key : (((2 * q.num.natAbs + q.den) / (2 * q.den) : Nat) : Int) = ⌊(q.num.natAbs : Rat) / q.den + 1 / 2⌋ := by
    have e : (q.num.natAbs : Rat) / q.den + 1 / 2 = ((2 * q.num.natAbs + q.den : Nat) : Rat) / ((2 * q.den : Nat) : Rat) := by
      push_cast
      field_simp
    rw [e, Rat.floor_natCast_div_natCast]
    push_cast
    rfl
  unfold roundHalfAway
  simp only [key]
  have hneg : q.num < 0 ↔ q < 0 := Rat.num_neg
  by_cases h : q.num < 0
  · rw [if_pos h, if_pos (hneg.mp h)]
    congr 3
    have : ((q.num.natAbs : Nat) : Rat) = -(q.num : Rat) := by
      have : (q.num.natAbs : Int) = -q.num := by omega
      rw [← Int.cast_natCast, this, Int.cast_neg]
    rw [this, neg_div, q.num_div_den]
  · rw [if_neg h, if_neg (fun h' => h (hneg.mpr h'))]
    congr 2
    have : ((q.num.natAbs : Nat) : Rat) = (q.num : Rat) := by
      have : (q.num.natAbs : Int) = q.num := by omega
      rw [← Int.cast_natCast, this]
    rw [this, q.num_div_den]

namespace Surd

/-! ## The square roots -/

theorem theta_pos (n : Nat) : 0 < theta n := by
  have h1 : Real.pi / 2 ^ (n + 2) < Real.pi / 2 := by
    apply div_lt_div_of_pos_left Real.pi_pos (by norm_num)
    exact lt_of_lt_of_le (by norm_num : (2 : ℝ) < 2 ^ 2) (pow_le_pow_right₀ (by norm_num) (by omega))
  have h0 : 0 < Real.pi / 2 ^ (n + 2) := by have := Real.pi_pos; positivity
  have := Real.cos_pos_of_mem_Ioo (x := Real.pi / 2 ^ (n + 2)) ⟨by linarith, h1⟩
  unfold theta
  linarith

theorem theta_le_two (n : Nat) : theta n ≤ 2 := by
  have := Real.cos_le_one (Real.pi / 2 ^ (n + 2))
  unfold theta
  linarith

@[simp] theorem real_rat {n : Nat} (q : Rat) : (rat q : Surd n).real = q := rfl

@[simp] theorem real_ext {n : Nat} (a b : Surd n) : (ext a b).real = a.real + b.real * theta n := rfl

theorem theta_sq (n : Nat) : theta n * theta n = (radicand n).real := by
  cases n with
  | zero =>
    simp only [radicand, real_rat, theta]
    norm_num
    have := Real.sq_sqrt (show (0 : ℝ) ≤ 2 by norm_num)
    nlinarith
  | succ n =>
    have h := Real.cos_sq (Real.pi / 2 ^ (n + 3))
    have e : 2 * (Real.pi / 2 ^ (n + 3)) = Real.pi / 2 ^ (n + 2) := by
      rw [pow_succ 2 (n + 2)]; field_simp
    rw [e] at h
    simp only [radicand, real_ext, real_rat, theta]
    push_cast
    show 2 * Real.cos (Real.pi / 2 ^ (n + 3)) * (2 * Real.cos (Real.pi / 2 ^ (n + 3))) = _
    nlinarith

/-! ## The parts -/

theorem real_parts {n : Nat} (x : Surd (n + 1)) : x.real = x.base.real + x.coef.real * theta n := by
  cases x with
  | rat q => simp [base, coef]
  | ext a b => rfl

@[simp] theorem real_join {n : Nat} (a b : Surd n) : (join a b).real = a.real + b.real * theta n := by
  unfold join
  split
  · next p q =>
    split
    · next h => simp [Rat.num_eq_zero.mp h]
    · rfl
  · rfl

theorem reduced_join {n : Nat} {a b : Surd n} (ha : a.reduced = true) (hb : b.reduced = true) :
    (join a b).reduced = true := by
  cases a <;> cases b <;> simp only [join]
  · split <;> simp_all [reduced]
  · simp_all [reduced]
  · simp_all [reduced]
  · simp_all [reduced]

theorem reduced_base {n : Nat} {x : Surd (n + 1)} (h : x.reduced = true) : x.base.reduced = true := by
  cases x with
  | rat q => rfl
  | ext a b => cases a <;> cases b <;> simp_all [reduced, base]

theorem reduced_coef {n : Nat} {x : Surd (n + 1)} (h : x.reduced = true) : x.coef.reduced = true := by
  cases x with
  | rat q => rfl
  | ext a b => cases a <;> cases b <;> simp_all [reduced, coef]

/-! ## The ring operations -/

@[simp] theorem real_neg {n : Nat} (x : Surd n) : x.neg.real = -x.real := by
  induction x with
  | rat q => simp [neg]
  | ext a b iha ihb => simp [neg, iha, ihb]; ring

theorem reduced_neg {n : Nat} (x : Surd n) : x.neg.reduced = true := by
  induction x with
  | rat q => rfl
  | ext a b iha ihb => exact reduced_join iha ihb

/-- The sum of two numbers of which one is written with a root. -/
theorem add_succ {n : Nat} {x y : Surd (n + 1)} (h : x.isRat = false ∨ y.isRat = false) :
    add x y = join (add x.base y.base) (add x.coef y.coef) := by
  cases x <;> cases y <;> first | rfl | simp [isRat] at h

@[simp] theorem add_rat {n : Nat} (p q : Rat) : add (rat p : Surd n) (rat q) = rat (p + q) := by
  cases n <;> simp [add, ratAdd_eq]

@[simp] theorem real_add {n : Nat} (x y : Surd n) : (add x y).real = x.real + y.real := by
  induction n with
  | zero => cases x; cases y; simp
  | succ n ih =>
    by_cases h : x.isRat = false ∨ y.isRat = false
    · rw [add_succ h, real_join, ih, ih, real_parts x, real_parts y]; ring
    · cases x <;> cases y <;> simp_all [isRat]

theorem reduced_add {n : Nat} (x y : Surd n) : (add x y).reduced = true := by
  induction n with
  | zero => cases x; cases y; rfl
  | succ n ih =>
    by_cases h : x.isRat = false ∨ y.isRat = false
    · rw [add_succ h]; exact reduced_join (ih _ _) (ih _ _)
    · cases x <;> cases y <;> simp_all [isRat, reduced]

@[simp] theorem real_sub {n : Nat} (x y : Surd n) : (sub x y).real = x.real - y.real := by
  simp [sub, sub_eq_add_neg]

theorem reduced_sub {n : Nat} (x y : Surd n) : (sub x y).reduced = true := reduced_add _ _

@[simp] theorem real_scale {n : Nat} (p : Rat) (x : Surd n) : (scale p x).real = p * x.real := by
  induction x with
  | rat q => simp [scale, ratMul_eq]
  | ext a b iha ihb => simp [scale, iha, ihb]; ring

theorem reduced_scale {n : Nat} (p : Rat) (x : Surd n) : (scale p x).reduced = true := by
  induction x with
  | rat q => rfl
  | ext a b iha ihb => exact reduced_join iha ihb

theorem mul_rat_left {n : Nat} (p : Rat) (y : Surd n) : mul (rat p) y = scale p y := by cases n <;> rfl

theorem mul_rat_right {n : Nat} (a b : Surd n) (q : Rat) : mul (ext a b) (rat q) = scale q (ext a b) := rfl

theorem mul_ext {n : Nat} (a b c d : Surd n) :
    mul (ext a b) (ext c d) =
      join (add (mul a c) (mul (radicand n) (mul b d))) (add (mul a d) (mul b c)) := rfl

@[simp] theorem real_mul {n : Nat} (x y : Surd n) : (mul x y).real = x.real * y.real := by
  induction n with
  | zero => cases x; cases y; simp [mul_rat_left]
  | succ n ih =>
    cases x with
    | rat p => simp [mul_rat_left]
    | ext a b =>
      cases y with
      | rat q => rw [mul_rat_right, real_scale, real_rat]; ring
      | ext c d =>
        rw [mul_ext, real_join]
        simp only [real_add, ih, ← theta_sq, real_ext]
        ring

theorem reduced_mul {n : Nat} (x y : Surd n) : (mul x y).reduced = true := by
  cases n with
  | zero => cases x; cases y; rfl
  | succ n =>
    cases x with
    | rat p => rw [mul_rat_left]; exact reduced_scale _ _
    | ext a b =>
      cases y with
      | rat q => exact reduced_scale _ _
      | ext c d => exact reduced_join (reduced_add _ _) (reduced_add _ _)

/-! ## Sign and quotient -/

theorem real_norm {n : Nat} (x : Surd (n + 1)) :
    x.norm.real = (x.base.real + x.coef.real * theta n) * (x.base.real - x.coef.real * theta n) := by
  simp only [norm, real_sub, real_mul, ← theta_sq]
  ring

theorem sign_rat {n : Nat} (q : Rat) :
    ((rat q : Surd n).sign = 1 ∧ 0 < (rat q : Surd n).real) ∨ ((rat q : Surd n).sign = 0 ∧ (rat q : Surd n).real = 0) ∨
      ((rat q : Surd n).sign = -1 ∧ (rat q : Surd n).real < 0) := by
  have e : (rat q : Surd n).sign = q.num.sign := by cases n <;> rfl
  rw [e, real_rat]
  rcases lt_trichotomy q.num 0 with h | h | h
  · exact .inr (.inr ⟨Int.sign_eq_neg_one_of_neg h, by exact_mod_cast Rat.num_neg.mp h⟩)
  · exact .inr (.inl ⟨by rw [h]; rfl, by rw [Rat.num_eq_zero.mp h, Rat.cast_zero]⟩)
  · exact .inl ⟨Int.sign_eq_one_of_pos h, by exact_mod_cast Rat.num_pos.mp h⟩

theorem sign_ext {n : Nat} (a b : Surd n) :
    sign (ext a b) =
      if sign a = 0 then sign b
      else if sign b = 0 then sign a
      else if sign a = sign b then sign a
      else sign a * sign (norm (ext a b)) := rfl

/-- The sign is that of the real number. -/
theorem sign_spec {n : Nat} (x : Surd n) :
    (x.sign = 1 ∧ 0 < x.real) ∨ (x.sign = 0 ∧ x.real = 0) ∨ (x.sign = -1 ∧ x.real < 0) := by
  induction n with
  | zero =>
    cases x with | rat q => exact sign_rat q
  | succ n ih =>
    cases x with
    | rat q => exact sign_rat q
    | ext a b =>
      have ht := theta_pos n
      have hN := real_norm (ext a b)
      simp only [base, coef] at hN
      rw [sign_ext, real_ext]
      rcases ih a with ⟨ea, ha⟩ | ⟨ea, ha⟩ | ⟨ea, ha⟩ <;> rcases ih b with ⟨eb, hb⟩ | ⟨eb, hb⟩ | ⟨eb, hb⟩ <;>
        simp only [ea, eb]
      · exact .inl ⟨by simp, by positivity⟩
      · exact .inl ⟨by simp, by rw [hb]; linarith⟩
      · have hd : 0 < a.real - b.real * theta n := by nlinarith
        rcases ih (norm (ext a b)) with ⟨en, hn⟩ | ⟨en, hn⟩ | ⟨en, hn⟩ <;> rw [hN] at hn <;> simp [en]
        · exact (mul_pos_iff_of_pos_right hd).mp hn
        · exact (mul_eq_zero.mp hn).resolve_right hd.ne'
        · by_contra hc; nlinarith [mul_nonneg (not_lt.mp hc) hd.le]
      · exact .inl ⟨by simp, by rw [ha]; have := mul_pos hb ht; linarith⟩
      · exact .inr (.inl ⟨by simp, by rw [ha, hb]; ring⟩)
      · exact .inr (.inr ⟨by simp, by rw [ha]; have := mul_neg_of_neg_of_pos hb ht; linarith⟩)
      · have hd : a.real - b.real * theta n < 0 := by nlinarith
        rcases ih (norm (ext a b)) with ⟨en, hn⟩ | ⟨en, hn⟩ | ⟨en, hn⟩ <;> rw [hN] at hn <;> simp [en]
        · exact neg_of_mul_pos_left hn hd.le
        · exact (mul_eq_zero.mp hn).resolve_right hd.ne
        · exact pos_of_mul_neg_left hn hd.le
      · exact .inr (.inr ⟨by simp, by rw [hb]; linarith⟩)
      · exact .inr (.inr ⟨by simp, by have := mul_neg_of_neg_of_pos hb ht; linarith⟩)

theorem sign_eq_zero {n : Nat} (x : Surd n) : x.sign = 0 ↔ x.real = 0 := by
  rcases sign_spec x with ⟨h, hr⟩ | ⟨h, hr⟩ | ⟨h, hr⟩ <;> rw [h]
  · simp [hr.ne']
  · simp [hr]
  · simp [hr.ne]

theorem sign_neg_iff {n : Nat} (x : Surd n) : x.sign < 0 ↔ x.real < 0 := by
  rcases sign_spec x with ⟨h, hr⟩ | ⟨h, hr⟩ | ⟨h, hr⟩ <;> rw [h]
  · simp [hr.le]
  · simp [hr]
  · simp [hr]

theorem inv_ext {n : Nat} (a b : Surd n) :
    inv (ext a b) = join (mul a (inv (norm (ext a b)))) (neg (mul b (inv (norm (ext a b))))) := rfl

theorem reduced_inv {n : Nat} (x : Surd n) : x.inv.reduced = true := by
  cases x with
  | rat q => cases n <;> rfl
  | ext a b => exact reduced_join (reduced_mul _ _) (reduced_neg _)

/-! ## The square root that a level adds is no number of the level below -/

/-- What the levels are about: reciprocals are right, and the next square root is new. -/
def Proper (n : Nat) : Prop :=
  (∀ x : Surd n, x.real ≠ 0 → x.inv.real = x.real⁻¹) ∧ ∀ x : Surd n, x.real ≠ theta n

theorem parts_zero {n : Nat} (h : Proper n) {a b : Surd n} (h0 : a.real + b.real * theta n = 0) :
    a.real = 0 ∧ b.real = 0 := by
  by_cases hb : b.real = 0
  · exact ⟨by simpa [hb] using h0, hb⟩
  · refine absurd ?_ (h.2 (mul a.neg (inv b)))
    rw [real_mul, real_neg, h.1 b hb]
    field_simp
    linarith

theorem parts_eq {n : Nat} (h : Proper n) {a b c d : Surd n}
    (h0 : a.real + b.real * theta n = c.real + d.real * theta n) : a.real = c.real ∧ b.real = d.real := by
  have := parts_zero h (a := sub a c) (b := sub b d) (by rw [real_sub, real_sub]; linarith)
  simp only [real_sub] at this
  exact ⟨by linarith [this.1], by linarith [this.2]⟩

/-- A number and its negative are both not the square root. -/
theorem sq_ne {n : Nat} (h : Proper n) (x : Surd n) : x.real * x.real ≠ (radicand n).real := by
  rw [← theta_sq]
  intro h0
  rcases mul_self_eq_mul_self_iff.mp h0 with h0 | h0
  · exact h.2 x h0
  · exact h.2 x.neg (by rw [real_neg, h0, neg_neg])

theorem real_inv_succ {n : Nat} (h : Proper n) (x : Surd (n + 1)) (hx : x.real ≠ 0) : x.inv.real = x.real⁻¹ := by
  cases x with
  | rat q => simp [inv, ratDiv_eq]
  | ext a b =>
    have hN := real_norm (ext a b)
    simp only [base, coef] at hN
    rw [real_ext] at hx
    have hd : a.real - b.real * theta n ≠ 0 := by
      intro h0
      have := parts_zero h (a := a) (b := b.neg) (by rw [real_neg]; linarith)
      rw [real_neg, neg_eq_zero] at this
      exact hx (by rw [this.1, this.2]; ring)
    have h0 : (norm (ext a b)).real ≠ 0 := by rw [hN]; exact mul_ne_zero hx hd
    rw [inv_ext, real_join, real_neg, real_mul, real_mul, h.1 _ h0, hN, real_ext]
    field_simp
    ring

/-- If `2 - theta` has a square root at a level, `2 + theta` has one, the conjugate. -/
theorem conjugate_sq {n : Nat} (h : Proper n) (w : Surd (n + 1)) (hw : w.real * w.real = 2 - theta n) :
    ∃ v : Surd (n + 1), v.real * v.real = 2 + theta n := by
  refine ⟨join w.base w.coef.neg, ?_⟩
  rw [real_parts w] at hw
  have hq := parts_eq h (a := add (mul w.base w.base) (mul (radicand n) (mul w.coef w.coef)))
    (b := scale 2 (mul w.base w.coef)) (c := rat 2) (d := rat (-1)) (by
      simp only [real_add, real_mul, real_scale, ← theta_sq, real_rat]
      push_cast
      linarith)
  simp only [real_add, real_mul, real_scale, ← theta_sq, real_rat] at hq
  push_cast at hq
  rw [real_join, real_neg]
  linear_combination hq.1 - theta n * hq.2

theorem theta_succ_new {n : Nat} (h : Proper n) (hprev : ∀ m, n = m + 1 → Proper m) (u : Surd (n + 1)) :
    u.real ≠ theta (n + 1) := by
  intro hu
  have hsq : u.real * u.real = 2 + theta n := by
    rw [hu, theta_sq]
    simp [radicand]
  rw [real_parts u] at hsq
  have hq := parts_eq h (a := add (mul u.base u.base) (mul (radicand n) (mul u.coef u.coef)))
    (b := scale 2 (mul u.base u.coef)) (c := rat 2) (d := rat 1) (by
      simp only [real_add, real_mul, real_scale, ← theta_sq, real_rat]
      push_cast
      linarith)
  simp only [real_add, real_mul, real_scale, real_rat] at hq
  push_cast at hq
  -- the norm of `u` squares to `4 - theta n * theta n`
  have hw : u.norm.real * u.norm.real = 4 - (radicand n).real := by
    simp only [norm, real_sub, real_mul]
    linear_combination
      (u.base.real * u.base.real + (radicand n).real * (u.coef.real * u.coef.real) + 2) * hq.1 -
        (radicand n).real * (2 * (u.base.real * u.coef.real) + 1) * hq.2
  cases n with
  | zero =>
    refine sq_ne h u.norm ?_
    rw [hw]
    simp [radicand]
    norm_num
  | succ m =>
    have hr : (radicand (m + 1)).real = 2 + theta m := by simp [radicand]
    obtain ⟨v, hv⟩ := conjugate_sq (hprev m rfl) u.norm (by rw [hw, hr]; ring)
    exact sq_ne h v (by rw [hv, hr])

theorem proper_zero : Proper 0 := by
  constructor
  · intro x hx
    cases x with | rat q => simp [inv, ratDiv_eq]
  · intro x hx
    cases x with
    | rat q =>
      have h := theta_sq 0
      rw [← hx] at h
      simp only [real_rat, radicand] at h
      have h2 : q * q = 2 := by exact_mod_cast h
      exact irrational_sqrt_two ⟨|q|, by
        rw [eq_comm, Real.sqrt_eq_iff_mul_self_eq (by norm_num) (by positivity)]
        push_cast
        rw [abs_mul_abs_self]
        exact_mod_cast h2.symm⟩

theorem proper (n : Nat) : Proper n := by
  induction n using Nat.strong_induction_on with
  | _ n ih =>
    cases n with
    | zero => exact proper_zero
    | succ n =>
      have h := ih n (by omega)
      exact ⟨real_inv_succ h, theta_succ_new h fun m hm => ih m (by omega)⟩

theorem real_inv {n : Nat} (x : Surd n) (hx : x.real ≠ 0) : x.inv.real = x.real⁻¹ := (proper n).1 x hx

theorem join_parts {n : Nat} {x : Surd (n + 1)} (h : x.reduced = true) : join x.base x.coef = x := by
  cases x with
  | rat q => simp [base, coef, join]
  | ext a b => cases a <;> cases b <;> simp_all [reduced, base, coef, join]

/-- Numbers in the reduced form that are the same real number are written in the same way. -/
theorem real_injective {n : Nat} {x y : Surd n} (hx : x.reduced = true) (hy : y.reduced = true) (h : x.real = y.real) :
    x = y := by
  induction n with
  | zero =>
    cases x
    cases y
    simp only [real_rat, Rat.cast_inj] at h
    rw [h]
  | succ n ih =>
    rw [real_parts x, real_parts y] at h
    obtain ⟨h1, h2⟩ := parts_eq (proper n) h
    rw [← join_parts hx, ← join_parts hy, ih (reduced_base hx) (reduced_base hy) h1,
      ih (reduced_coef hx) (reduced_coef hy) h2]

@[simp] theorem div_rat {n : Nat} (p q : Rat) : div (rat p : Surd n) (rat q) = rat (p / q) := by
  simp [div, ratDiv_eq]

theorem real_div {n : Nat} (x y : Surd n) (hy : y.real ≠ 0) : (div x y).real = x.real / y.real := by
  unfold div
  split
  · simp [ratDiv_eq]
  · rw [real_mul, real_inv y hy, div_eq_mul_inv]

theorem reduced_div {n : Nat} (x y : Surd n) : (div x y).reduced = true := by
  unfold div
  split
  · rfl
  · exact reduced_mul _ _

/-! ## Comparisons -/

theorem lt_iff {n : Nat} (x y : Surd n) : x.lt y = true ↔ x.real < y.real := by
  unfold lt
  split
  · rw [ratLt_iff, real_rat, real_rat]; exact_mod_cast Iff.rfl
  · rw [decide_eq_true_iff, sign_neg_iff, real_sub, sub_neg]

theorem eq_iff {n : Nat} (x y : Surd n) : x.eq y = true ↔ x.real = y.real := by
  unfold eq
  split
  · rw [decide_eq_true_iff, real_rat, real_rat]; exact_mod_cast Iff.rfl
  · rw [decide_eq_true_iff, sign_eq_zero, real_sub, sub_eq_zero]

/-! ## Integers -/

theorem real_lt_bound {n : Nat} (x : Surd n) : |x.real| < x.bound := by
  induction x with
  | rat q =>
    rw [real_rat, bound]
    have h1 : |q| < ((q.num.natAbs / q.den + 1 : Nat) : Rat) := by
      have hd : (0 : Rat) < q.den := by exact_mod_cast q.pos
      conv_lhs => rw [← q.num_div_den]
      rw [abs_div, abs_of_pos hd, div_lt_iff₀ hd]
      have : |(q.num : Rat)| = (q.num.natAbs : Nat) := by
        rw [← Int.cast_abs, Int.abs_eq_natAbs, Int.cast_natCast]
      rw [this]
      have h2 := Nat.div_add_mod q.num.natAbs q.den
      have h3 := Nat.mod_lt q.num.natAbs q.pos
      have h4 : q.num.natAbs < (q.num.natAbs / q.den + 1) * q.den := by
        rw [add_mul, one_mul, mul_comm]; omega
      exact_mod_cast h4
    exact_mod_cast h1
  | ext a b iha ihb =>
    rename_i m
    rw [real_ext, bound]
    have h1 : |a.real + b.real * theta m| ≤ |a.real| + |b.real| * 2 := by
      refine (abs_add_le _ _).trans ?_
      rw [abs_mul, abs_of_pos (theta_pos m)]
      have := mul_le_mul_of_nonneg_left (theta_le_two m) (abs_nonneg b.real)
      linarith
    push_cast
    linarith

theorem floorFrom_spec {n : Nat} (x : Surd n) (k : Nat) (lo : Int) (h0 : (lo : ℝ) ≤ x.real)
    (h1 : x.real < lo + 2 ^ k) : floorFrom x k lo = ⌊x.real⌋ := by
  induction k generalizing lo with
  | zero =>
    rw [floorFrom, eq_comm, Int.floor_eq_iff]
    exact ⟨h0, by simpa using h1⟩
  | succ k ih =>
    rw [floorFrom]
    have hm : ((mkRat (lo + 2 ^ k) 1 : Rat) : ℝ) = lo + 2 ^ k := by simp [Rat.mkRat_one]
    split
    · next h =>
      rw [lt_iff, real_rat, hm] at h
      exact ih lo h0 h
    · next h =>
      rw [lt_iff, real_rat, hm, not_lt] at h
      refine ih _ (by push_cast; exact h) ?_
      rw [pow_succ] at h1
      push_cast
      linarith

theorem floor_eq {n : Nat} (x : Surd n) : x.floor = ⌊x.real⌋ := by
  unfold floor
  split
  · next q => rw [real_rat, Rat.floor_cast]; exact Rat.floor_def'.symm
  · have h := abs_lt.mp (real_lt_bound x)
    refine floorFrom_spec x _ _ (by push_cast; linarith) ?_
    have hb : (x.bound : ℝ) < 2 ^ (Nat.log2 x.bound + 1) := by exact_mod_cast Nat.lt_log2_self
    rw [pow_succ]
    push_cast
    linarith

/-- The real number's nearest integer, halves away from zero. -/
theorem round_eq {n : Nat} (x : Surd n) :
    x.round = if x.real < 0 then -⌊-x.real + 1 / 2⌋ else ⌊x.real + 1 / 2⌋ := by
  unfold round
  split
  · next q =>
    rw [roundHalfAway_eq, real_rat]
    have e1 : ⌊-(q : ℝ) + 1 / 2⌋ = ⌊-q + 1 / 2⌋ := by rw [← Rat.floor_cast (α := ℝ)]; push_cast; rfl
    have e2 : ⌊(q : ℝ) + 1 / 2⌋ = ⌊q + 1 / 2⌋ := by rw [← Rat.floor_cast (α := ℝ)]; push_cast; rfl
    rw [e1, e2]
    congr 1
    rw [Rat.cast_lt_zero]
  · simp only [sign_neg_iff, floor_eq, real_add, real_neg, real_rat]
    have : ((mkRat 1 2 : Rat) : ℝ) = 1 / 2 := by rw [Rat.mkRat_eq_div]; norm_num
    rw [this]

/-- No integer is nearer. -/
theorem round_near {n : Nat} (x : Surd n) : |x.real - x.round| ≤ 1 / 2 := by
  rw [round_eq]
  split
  · have h1 := Int.floor_le (-x.real + 1 / 2)
    have h2 := Int.lt_floor_add_one (-x.real + 1 / 2)
    push_cast
    rw [abs_le]
    constructor <;> linarith
  · have h1 := Int.floor_le (x.real + 1 / 2)
    have h2 := Int.lt_floor_add_one (x.real + 1 / 2)
    rw [abs_le]
    constructor <;> linarith

/-- The integer within less than a half. -/
theorem round_of_near {n : Nat} {x : Surd n} {m : Int} (h : |x.real - m| < 1 / 2) : x.round = m := by
  have h1 := abs_lt.mp h
  rw [round_eq]
  split
  · have : ⌊-x.real + 1 / 2⌋ = -m := by
      rw [Int.floor_eq_iff]
      push_cast
      constructor <;> linarith
    omega
  · rw [Int.floor_eq_iff]
    constructor <;> linarith

end Surd

end Sys2Proof
end

