-- ==== Sys2Proof/Laws/Arith.lean ====
section
/-! SUPPORT. What the NUM operations of Machine/Arith.lean compute (spec/00_scope.md R17 to R20). -/

namespace Sys2Proof

/-! ## Values and the numbers they are -/

@[simp] theorem exact_fin (q : Rat) : (Value.fin q).exact = .rat q := rfl

@[simp] theorem exact_surd (z : Surd 8) : (Value.surd z).exact = z := rfl

@[simp] theorem exact_negZero : Value.negZero.exact = .rat 0 := rfl

@[simp] theorem exact_ofSurd (z : Surd 8) : (ofSurd z).exact = z := by cases z <;> rfl

@[simp] theorem ofSurd_rat (q : Rat) : ofSurd (.rat q) = .fin q := rfl

@[simp] theorem toRat_rat (q : Rat) : Surd.toRat (.rat q) = q := rfl

@[simp] theorem rnd_exact (neg : Bool) (z : Surd 8) : rnd .exact neg z = ofSurd z := rfl

@[simp] theorem real_fin (q : Rat) : (Value.fin q).real = q := rfl

@[simp] theorem real_surd (z : Surd 8) : (Value.surd z).real = z.real := rfl

@[simp] theorem real_negZero : Value.negZero.real = 0 := by simp [Value.real]

@[simp] theorem real_ofSurd (z : Surd 8) : (ofSurd z).real = z.real := by simp [Value.real]

@[simp] theorem isFinite_fin (q : Rat) : (Value.fin q).isFinite = true := rfl

@[simp] theorem isFinite_surd (z : Surd 8) : (Value.surd z).isFinite = true := rfl

@[simp] theorem isFinite_ofSurd (z : Surd 8) : (ofSurd z).isFinite = true := by cases z <;> rfl

@[simp] theorem isFinite_negZero : Value.negZero.isFinite = true := rfl

@[simp] theorem isFinite_inf (b : Bool) : (Value.inf b).isFinite = false := rfl

@[simp] theorem isFinite_nan : Value.nan.isFinite = false := rfl

/-! ## Exact arithmetic on rationals -/

@[simp] theorem add_exact (a b : Rat) : Value.add .exact (.fin a) (.fin b) = .fin (a + b) := by
  simp [Value.add]

@[simp] theorem sub_exact (a b : Rat) : Value.sub .exact (.fin a) (.fin b) = .fin (a - b) := by
  by_cases h : b.num = 0
  · have : b = 0 := Rat.num_eq_zero.mp h
    simp [Value.sub, Value.neg, Value.add, this]
  · simp [Value.sub, Value.neg, h, sub_eq_add_neg]

@[simp] theorem mul_exact (a b : Rat) : Value.mul .exact (.fin a) (.fin b) = .fin (a * b) := by
  simp [Value.mul, Surd.mul_rat_left, Surd.scale, ratMul_eq]

theorem isZero_fin (q : Rat) : (Value.fin q).isZero = decide (q = 0) := by
  simp [Value.isZero, Surd.sign]

theorem div_exact (a b : Rat) (h : b ≠ 0) : Value.div .exact (.fin a) (.fin b) = .fin (a / b) := by
  simp [Value.div, isZero_fin, h]

@[simp] theorem toNum_exact (n : Int) : toNum .exact n = .fin n := by
  simp [toNum, Rat.mkRat_one]

@[simp] theorem lt_fin (a b : Rat) : (Value.fin a).lt (.fin b) = decide (a < b) := by
  by_cases h : a < b
  · simp [Value.lt, Surd.lt, (ratLt_iff a b).mpr h, h]
  · have : ratLt a b = false := by
      rw [← Bool.not_eq_true, ratLt_iff]; exact h
    simp [Value.lt, Surd.lt, this, h]

@[simp] theorem eq_fin (a b : Rat) : (Value.fin a).eq (.fin b) = decide (a = b) := rfl

@[simp] theorem le_fin (a b : Rat) : (Value.fin a).le (.fin b) = decide (a ≤ b) := by
  simp [Value.le, le_iff_lt_or_eq]

/-! ## Exact arithmetic -/

theorem isOf_exact_ofSurd {z : Surd 8} (h : z.reduced = true) : isOf .exact (ofSurd z) = true := by
  cases z with
  | rat q => rfl
  | ext a b => simp [ofSurd, isOf, h, Surd.isRat]

/-- The values of Exact are the exact numbers in their reduced form. -/
theorem isOf_exact {x : Value} : isOf .exact x = true ↔ ∃ z : Surd 8, z.reduced = true ∧ x = ofSurd z := by
  constructor
  · intro h
    cases x with
    | fin q => exact ⟨.rat q, rfl, rfl⟩
    | surd z =>
      simp only [isOf, Bool.and_eq_true] at h
      cases z with
      | rat q => simp [Surd.isRat] at h
      | ext a b => exact ⟨_, h.1, rfl⟩
    | negZero => simp [isOf] at h
    | inf b => simp [isOf] at h
    | nan => simp [isOf] at h
  · rintro ⟨z, hz, rfl⟩
    exact isOf_exact_ofSurd hz

/-- Values of Exact that are the same real number are the same value. -/
theorem eq_of_real {x y : Value} (hx : isOf .exact x = true) (hy : isOf .exact y = true) (h : x.real = y.real) : x = y := by
  obtain ⟨z, hz, rfl⟩ := isOf_exact.mp hx
  obtain ⟨w, hw, rfl⟩ := isOf_exact.mp hy
  rw [real_ofSurd, real_ofSurd] at h
  rw [Surd.real_injective hz hw h]

@[simp] theorem add_ofSurd (z w : Surd 8) : Value.add .exact (ofSurd z) (ofSurd w) = ofSurd (z.add w) := by
  cases z <;> cases w <;> rfl

@[simp] theorem sub_ofSurd (z w : Surd 8) : Value.sub .exact (ofSurd z) (ofSurd w) = ofSurd (z.sub w) := by
  cases w with
  | ext a b => exact add_ofSurd z _
  | rat q =>
    by_cases h : q.num = 0
    · have : q = 0 := Rat.num_eq_zero.mp h
      subst this
      cases z <;> rfl
    · simp only [Value.sub, Value.neg, ofSurd_rat, h, if_false]
      exact add_ofSurd z (.rat (-q))

@[simp] theorem mul_ofSurd (z w : Surd 8) : Value.mul .exact (ofSurd z) (ofSurd w) = ofSurd (z.mul w) := by
  cases z <;> cases w <;> rfl

theorem isZero_ofSurd (z : Surd 8) : (ofSurd z).isZero = true ↔ z.real = 0 := by
  simp [Value.isZero, Surd.sign_eq_zero]

theorem div_ofSurd (z w : Surd 8) (hw : w.real ≠ 0) : Value.div .exact (ofSurd z) (ofSurd w) = ofSurd (z.div w) := by
  have h : (ofSurd w).isZero = false := by
    rw [← Bool.not_eq_true, isZero_ofSurd]; exact hw
  cases z <;> cases w <;> simp_all [Value.div, ofSurd]

/-! ## The operations on values of Exact give the real sum, difference, product and quotient (R17) -/

theorem real_add_exact {x y : Value} (hx : isOf .exact x = true) (hy : isOf .exact y = true) :
    (Value.add .exact x y).real = x.real + y.real := by
  obtain ⟨z, -, rfl⟩ := isOf_exact.mp hx
  obtain ⟨w, -, rfl⟩ := isOf_exact.mp hy
  simp

theorem real_sub_exact {x y : Value} (hx : isOf .exact x = true) (hy : isOf .exact y = true) :
    (Value.sub .exact x y).real = x.real - y.real := by
  obtain ⟨z, -, rfl⟩ := isOf_exact.mp hx
  obtain ⟨w, -, rfl⟩ := isOf_exact.mp hy
  simp

theorem real_mul_exact {x y : Value} (hx : isOf .exact x = true) (hy : isOf .exact y = true) :
    (Value.mul .exact x y).real = x.real * y.real := by
  obtain ⟨z, -, rfl⟩ := isOf_exact.mp hx
  obtain ⟨w, -, rfl⟩ := isOf_exact.mp hy
  simp

theorem real_div_exact {x y : Value} (hx : isOf .exact x = true) (hy : isOf .exact y = true) (h : y.real ≠ 0) :
    (Value.div .exact x y).real = x.real / y.real := by
  obtain ⟨z, -, rfl⟩ := isOf_exact.mp hx
  obtain ⟨w, -, rfl⟩ := isOf_exact.mp hy
  rw [real_ofSurd] at h
  rw [div_ofSurd z w h, real_ofSurd, real_ofSurd, real_ofSurd, Surd.real_div z w h]

end Sys2Proof
end

