-- ==== Sys2Proof/Laws/Pi.lean ====
section
/-! SUPPORT. The bounds of pi that Machine/Arith.lean gives (spec/00_scope.md R19, log 7) are bounds of the real pi and close in on it:
Machin's formula with the partial sums of the arctangent series. -/

namespace Sys2Proof

theorem arctanSum_cast (m k : Nat) :
    ((arctanSum m k : Rat) : ℝ) = ∑ i ∈ Finset.range k, (-1) ^ i * ((1 / (m : ℝ)) ^ (2 * i + 1) / ((2 * i + 1 : Nat) : ℝ)) := by
  induction k with
  | zero => simp [arctanSum]
  | succ k ih =>
    rw [arctanSum, ratAdd_eq, Rat.cast_add, ih, Finset.sum_range_succ, Rat.mkRat_eq_div]
    congr 1
    push_cast
    rw [one_div, inv_pow, div_eq_mul_inv, div_eq_mul_inv, mul_inv]

theorem arctan_arg {m : Nat} (hm : 2 ≤ m) : (0 : ℝ) ≤ 1 / m ∧ (1 : ℝ) / m < 1 := by
  have h2 : (2 : ℝ) ≤ m := by exact_mod_cast hm
  exact ⟨by positivity, by rw [div_lt_one (by linarith)]; linarith⟩

/-- The partial sums converge to the arctangent. -/
theorem arctanSum_tendsto {m : Nat} (hm : 2 ≤ m) :
    Filter.Tendsto (fun k => ((arctanSum m k : Rat) : ℝ)) Filter.atTop (nhds (Real.arctan (1 / m))) := by
  obtain ⟨hx0, hx1⟩ := arctan_arg hm
  have hs := Real.hasSum_arctan (x := 1 / m) (by rw [Real.norm_eq_abs, abs_of_nonneg hx0]; exact hx1)
  have ht := hs.tendsto_sum_nat
  simp only [mul_div_assoc] at ht
  simpa only [arctanSum_cast] using ht

/-- The partial sums with an even and an odd number of terms enclose the arctangent. -/
theorem arctanSum_bounds (m : Nat) (hm : 2 ≤ m) (k : Nat) :
    ((arctanSum m (2 * k) : Rat) : ℝ) ≤ Real.arctan (1 / m) ∧
      Real.arctan (1 / m) ≤ ((arctanSum m (2 * k + 1) : Rat) : ℝ) := by
  obtain ⟨hx0, hx1⟩ := arctan_arg hm
  have ht := arctanSum_tendsto hm
  simp only [arctanSum_cast] at ht ⊢
  have ha : Antitone fun i : Nat => (1 / (m : ℝ)) ^ (2 * i + 1) / ((2 * i + 1 : Nat) : ℝ) := by
    apply antitone_nat_of_succ_le
    intro i
    have h1 : (1 / (m : ℝ)) ^ (2 * (i + 1) + 1) ≤ (1 / (m : ℝ)) ^ (2 * i + 1) :=
      pow_le_pow_of_le_one hx0 hx1.le (by omega)
    have h3 : ((2 * i + 1 : Nat) : ℝ) ≤ ((2 * (i + 1) + 1 : Nat) : ℝ) := by exact_mod_cast (by omega)
    have h4 : (0 : ℝ) < ((2 * i + 1 : Nat) : ℝ) := by positivity
    exact div_le_div₀ (by positivity) h1 h4 h3
  exact ⟨ha.alternating_series_le_tendsto ht k, ha.tendsto_le_alternating_series ht k⟩

theorem machin_cast (j k : Nat) :
    ((machin j k : Rat) : ℝ) = 4 * (4 * ((arctanSum 5 j : Rat) : ℝ) - ((arctanSum 239 k : Rat) : ℝ)) := by
  rw [machin, ratMul_eq, ratAdd_eq, ratMul_eq, ratMul_eq]
  push_cast
  ring

/-- Machin's formula. -/
theorem pi_eq_machin : Real.pi = 4 * (4 * Real.arctan (1 / (5 : Nat)) - Real.arctan (1 / (239 : Nat))) := by
  have := Real.four_mul_arctan_inv_5_sub_arctan_inv_239
  have h : 4 * Real.arctan (1 / (5 : Nat)) - Real.arctan (1 / (239 : Nat)) = Real.pi / 4 := by simpa [one_div] using this
  rw [h]
  ring

/-- Two partial sums, of an even and an odd number of terms, bound pi from below; of an odd and an even number, from above. -/
theorem machin_bounds (j k : Nat) :
    ((machin (2 * j) (2 * k + 1) : Rat) : ℝ) ≤ Real.pi ∧ Real.pi ≤ ((machin (2 * j + 1) (2 * k) : Rat) : ℝ) := by
  have h5 := arctanSum_bounds 5 (by omega) j
  have h239 := arctanSum_bounds 239 (by omega) k
  rw [machin_cast, machin_cast, pi_eq_machin]
  constructor <;> linarith [h5.1, h5.2, h239.1, h239.2]

theorem piBelow_le (n : Nat) : ((piBelow n : Rat) : ℝ) ≤ Real.pi := (machin_bounds n n).1

theorem le_piAbove (n : Nat) : Real.pi ≤ ((piAbove n : Rat) : ℝ) := (machin_bounds n n).2

theorem machin_tendsto {f g : Nat → Nat} (hf : Filter.Tendsto f Filter.atTop Filter.atTop)
    (hg : Filter.Tendsto g Filter.atTop Filter.atTop) :
    Filter.Tendsto (fun n => ((machin (f n) (g n) : Rat) : ℝ)) Filter.atTop (nhds Real.pi) := by
  simp only [machin_cast]
  rw [pi_eq_machin]
  exact ((((arctanSum_tendsto (by omega)).comp hf).const_mul 4).sub
    ((arctanSum_tendsto (by omega)).comp hg)).const_mul 4

theorem even_atTop : Filter.Tendsto (fun n : Nat => 2 * n) Filter.atTop Filter.atTop :=
  Filter.tendsto_atTop_mono (fun n => (by omega : n ≤ 2 * n)) Filter.tendsto_id

theorem odd_atTop : Filter.Tendsto (fun n : Nat => 2 * n + 1) Filter.atTop Filter.atTop :=
  Filter.tendsto_atTop_mono (fun n => (by omega : n ≤ 2 * n + 1)) Filter.tendsto_id

theorem piBelow_tendsto : Filter.Tendsto (fun n => ((piBelow n : Rat) : ℝ)) Filter.atTop (nhds Real.pi) :=
  machin_tendsto even_atTop odd_atTop

theorem piAbove_tendsto : Filter.Tendsto (fun n => ((piAbove n : Rat) : ℝ)) Filter.atTop (nhds Real.pi) :=
  machin_tendsto odd_atTop even_atTop

theorem piFloor_below : ratLt (mkRat piFloor piScale) (machin 100 31) = true := by decide +kernel

theorem piFloor_above : ratLt (machin 101 30) (mkRat (piFloor + 1) piScale) = true := by decide +kernel

/-- `piFloor / 2^400 < pi < (piFloor + 1) / 2^400`. -/
theorem pi_bounds : (piFloor : ℝ) / piScale < Real.pi ∧ Real.pi < ((piFloor : ℝ) + 1) / piScale := by
  have hb := (ratLt_iff _ _).mp piFloor_below
  have ha := (ratLt_iff _ _).mp piFloor_above
  rw [Rat.mkRat_eq_div] at hb ha
  have hb' : (piFloor : ℝ) / piScale < ((machin 100 31 : Rat) : ℝ) := by
    have h := (Rat.cast_lt (K := ℝ)).mpr hb
    rwa [Rat.cast_div, Rat.cast_intCast, Int.cast_natCast, Rat.cast_natCast] at h
  have ha' : ((machin 101 30 : Rat) : ℝ) < ((piFloor : ℝ) + 1) / piScale := by
    have h := (Rat.cast_lt (K := ℝ)).mpr ha
    rwa [Rat.cast_div, Rat.cast_intCast, Int.cast_add, Int.cast_natCast, Int.cast_one, Rat.cast_natCast] at h
  exact ⟨hb'.trans_le (machin_bounds 50 15).1, (machin_bounds 50 15).2.trans_lt ha'⟩

/-- `piIeee` is within half of a last place of the real pi: no value of the format is nearer. -/
theorem piIeee_near (f : FloatFormat) : ∃ r : Rat, piIeee f = .fin r ∧ |(r : ℝ) - Real.pi| < 1 / 2 ^ (f.precision - 1) := by
  obtain ⟨h1, h2⟩ := pi_bounds
  cases f
  · refine ⟨_, rfl, abs_lt.mpr ⟨?_, ?_⟩⟩ <;> rw [Rat.mkRat_eq_div] <;> push_cast <;>
      norm_num [FloatFormat.precision, piFloor, piScale] at h1 h2 ⊢ <;> linarith
  · refine ⟨_, rfl, abs_lt.mpr ⟨?_, ?_⟩⟩ <;> rw [Rat.mkRat_eq_div] <;> push_cast <;>
      norm_num [FloatFormat.precision, piFloor, piScale] at h1 h2 ⊢ <;> linarith

end Sys2Proof
end

