-- ==== Sys2Proof/Laws/Transcendence.lean ====
section
/-! SUPPORT. The real pi is transcendental (Lindemann's argument, from the library's analytic part), so that no quotient of an exact
number by pi lies halfway between two integers (spec/00_scope.md R18, R19, log 7). -/

namespace Sys2Proof

open Polynomial

/-- In a Galois extension of the rationals, the exponentials of a multiset that every automorphism keeps, without zero, do not sum to
the negative of a positive integer. -/
theorem exp_sum_ne {L : Type} [Field L] [Algebra ℚ L] [FiniteDimensional ℚ L] [IsGalois ℚ L] (ι : L →ₐ[ℚ] ℂ)
    (B : Multiset L) (hB : ∀ σ : Gal(L/ℚ), B.map σ = B) (h0 : (0 : L) ∉ B) (k : ℕ) (hk : 0 < k) :
    (k : ℂ) + (B.map fun b => Complex.exp (ι b)).sum ≠ 0 := by
  intro hsum
  have : CharZero L := algebraRat.charZero L
  -- an integer polynomial whose roots are the elements of `B`
  have hlift : ((B.map fun b => X - C b).prod : L[X]) ∈ lifts (algebraMap ℚ L) := by
    rw [lifts_iff_coeff_lifts]
    intro m
    rw [IsGalois.mem_range_algebraMap_iff_fixed]
    intro σ
    have : map (σ : L →+* L) (B.map fun b => X - C b).prod = (B.map fun b => X - C b).prod := by
      rw [Polynomial.map_multiset_prod, Multiset.map_map]
      conv_rhs => rw [← hB σ, Multiset.map_map]
      congr 1
      apply Multiset.map_congr rfl
      intro b _
      simp
    conv_rhs => rw [← this]
    rw [coeff_map]
    rfl
  obtain ⟨q, hq⟩ := (mem_lifts _).mp hlift
  obtain ⟨a, ha, hf⟩ := IsLocalization.integerNormalization_spec (nonZeroDivisors ℤ) q
  have ha0 : a ≠ 0 := nonZeroDivisors.ne_zero ha
  set f : ℤ[X] := IsLocalization.integerNormalization (nonZeroDivisors ℤ) q with hfdef
  have hfL : map (algebraMap ℤ L) f = (a : L[X]) * (B.map fun b => X - C b).prod := by
    rw [IsScalarTower.algebraMap_eq ℤ ℚ L, ← Polynomial.map_map, hf, ← hq]
    simp
  have hroot : ∀ b ∈ B, aeval b f = 0 := by
    intro b hb
    rw [aeval_def, eval₂_eq_eval_map, hfL, eval_mul, eval_multiset_prod, Multiset.map_map]
    rw [Multiset.prod_eq_zero (Multiset.mem_map.mpr ⟨b, hb, by simp⟩), mul_zero]
  have hmon : ((B.map fun b => X - C b).prod : L[X]).Monic := monic_multiset_prod_of_monic _ _ fun b _ => monic_X_sub_C b
  have hlead : f.leadingCoeff = a := by
    have h1 : (map (algebraMap ℤ L) f).leadingCoeff = algebraMap ℤ L f.leadingCoeff :=
      leadingCoeff_map_of_injective (FaithfulSMul.algebraMap_injective ℤ L) f
    rw [hfL, leadingCoeff_mul, hmon.leadingCoeff, mul_one] at h1
    have h2 : ((a : L[X])).leadingCoeff = (a : L) := by
      rw [show ((a : ℤ) : L[X]) = C (a : L) by simp, leadingCoeff_C]
    rw [h2] at h1
    have : ((a : ℤ) : L) = ((f.leadingCoeff : ℤ) : L) := by simpa using h1
    exact_mod_cast this.symm
  have hf0 : eval 0 f ≠ 0 := by
    intro h
    have : eval (0 : L) (map (algebraMap ℤ L) f) = 0 := by
      rw [← map_zero (algebraMap ℤ L), eval_map_apply, h, map_zero]
    rw [hfL, eval_mul, eval_multiset_prod, Multiset.map_map] at this
    have h' := mul_eq_zero.mp this
    rcases h' with h' | h'
    · apply ha0
      have : ((a : ℤ) : L) = 0 := by simpa using h'
      exact_mod_cast this
    · rw [Multiset.prod_eq_zero_iff, Multiset.mem_map] at h'
      obtain ⟨b, hb, hb'⟩ := h'
      simp at hb'
      exact h0 (hb' ▸ hb)
  obtain ⟨c, hc⟩ := LindemannWeierstrass.exp_polynomial_approx f hf0
  set D := f.natDegree with hD
  -- for every large prime the library's approximations give a nonzero integer below a bound
  have key : ∀ p : ℕ, p.Prime → (eval 0 f).natAbs < p → k < p → a.natAbs < p →
      1 ≤ Multiset.card B * ((|(a : ℝ)| ^ D * |c|) ^ p / ((p - 1).factorial : ℝ)) := by
    intro p hp h1 h2 h3
    obtain ⟨n, hn, gp, hdeg, hgp⟩ := hc p h1 hp
    -- the sum of the approximations is rational, and an integer over a power of `a`
    have hfix : (B.map fun b => aeval b gp).sum ∈ Set.range (algebraMap ℚ L) := by
      rw [IsGalois.mem_range_algebraMap_iff_fixed]
      intro σ
      rw [map_multiset_sum, Multiset.map_map]
      conv_rhs => rw [← hB σ, Multiset.map_map]
      congr 1
      apply Multiset.map_congr rfl
      intro b _
      simp only [Function.comp_apply]
      exact (aeval_algHom_apply ((σ : L →ₐ[ℚ] L).restrictScalars ℤ) b gp).symm
    obtain ⟨g, hg⟩ := hfix
    have hint : IsIntegral ℤ ((a : L) ^ (p * D) * algebraMap ℚ L g) := by
      rw [hg, ← Multiset.sum_map_mul_left]
      apply IsIntegral.multiset_sum
      intro x hx
      obtain ⟨b, hb, rfl⟩ := Multiset.mem_map.mp hx
      have hab : IsIntegral ℤ ((a : L) * b) := by
        have := isIntegral_leadingCoeff_smul f b (hroot b hb)
        rwa [hlead, Algebra.smul_def, eq_intCast] at this
      rw [aeval_eq_sum_range, Finset.mul_sum]
      apply IsIntegral.sum
      intro i hi
      have hi' : i ≤ p * D := by
        have := Finset.mem_range.mp hi
        have := hdeg
        omega
      have : (a : L) ^ (p * D) * (gp.coeff i • b ^ i) = (gp.coeff i : L) * (a : L) ^ (p * D - i) * ((a : L) * b) ^ i := by
        rw [Algebra.smul_def, eq_intCast, mul_pow, ← Nat.sub_add_cancel hi', pow_add, Nat.sub_add_cancel hi']
        ring
      rw [this]
      exact ((isIntegral_algebraMap (x := gp.coeff i)).mul ((isIntegral_algebraMap (x := a)).pow _)).mul (hab.pow i)
    have hint' : IsIntegral ℤ ((a : ℚ) ^ (p * D) * g) := by
      rw [← isIntegral_algebraMap_iff (FaithfulSMul.algebraMap_injective ℚ L)]
      rw [map_mul, map_pow, map_intCast]
      exact hint
    obtain ⟨M, hM⟩ := IsIntegrallyClosed.isIntegral_iff.mp hint'
    -- the nonzero integer
    have hMC : (M : ℂ) = (a : ℂ) ^ (p * D) * (B.map fun b => aeval (ι b) gp).sum := by
      have e1 : (B.map fun b => aeval (ι b) gp).sum = ι (B.map fun b => aeval b gp).sum := by
        rw [map_multiset_sum, Multiset.map_map]
        congr 1
        apply Multiset.map_congr rfl
        intro b _
        exact aeval_algHom_apply (ι.restrictScalars ℤ) b gp
      rw [e1, ← hg, AlgHom.commutes]
      have := congrArg (algebraMap ℚ ℂ) hM
      simpa using this
    have hbound : ‖(B.map fun b => (n • Complex.exp (ι b) - p • aeval (ι b) gp)).sum‖ ≤
        Multiset.card B * (c ^ p / ((p - 1).factorial : ℝ)) := by
      refine (norm_multiset_sum_le _).trans ?_
      rw [Multiset.map_map]
      refine (Multiset.sum_le_card_nsmul _ (c ^ p / ((p - 1).factorial : ℝ)) ?_).trans ?_
      · intro x hx
        obtain ⟨b, hb, rfl⟩ := Multiset.mem_map.mp hx
        apply hgp
        rw [mem_aroots]
        refine ⟨fun h => hf0 (by rw [h, eval_zero]), ?_⟩
        rw [← AlgHom.restrictScalars_apply ℤ ι b, aeval_algHom_apply, hroot b hb, map_zero]
      · simp
    have hS : (B.map fun b => (n • Complex.exp (ι b) - p • aeval (ι b) gp)).sum =
        -((n * k : ℤ) : ℂ) - p * (B.map fun b => aeval (ι b) gp).sum := by
      rw [Multiset.sum_map_sub]
      have e1 : (B.map fun b => n • Complex.exp (ι b)).sum = n * (B.map fun b => Complex.exp (ι b)).sum := by
        rw [← Multiset.sum_map_mul_left]; simp
      have e2 : (B.map fun b => p • aeval (ι b) gp).sum = p * (B.map fun b => aeval (ι b) gp).sum := by
        rw [← Multiset.sum_map_mul_left]; simp
      rw [e1, e2, eq_neg_of_add_eq_zero_right hsum]
      push_cast
      ring
    have hN : ((n * k * a ^ (p * D) + p * M : ℤ) : ℂ) =
        -(a : ℂ) ^ (p * D) * (B.map fun b => (n • Complex.exp (ι b) - p • aeval (ι b) gp)).sum := by
      rw [hS]
      push_cast
      rw [hMC]
      ring
    have hnd : ¬ (p : ℤ) ∣ n * k * a ^ (p * D) + p * M := by
      rw [Int.dvd_add_left (dvd_mul_right _ _)]
      have hpi : Prime (p : ℤ) := Nat.prime_iff_prime_int.mp hp
      intro h
      rcases hpi.dvd_mul.mp h with h | h
      · rcases hpi.dvd_mul.mp h with h | h
        · exact hn h
        · have := Nat.le_of_dvd hk (by exact_mod_cast h)
          omega
      · have := hpi.dvd_of_dvd_pow h
        have := Nat.le_of_dvd (Int.natAbs_pos.mpr ha0) (Int.natCast_dvd.mp this)
        omega
    have hne : n * k * a ^ (p * D) + p * M ≠ 0 := fun h => hnd (h ▸ dvd_zero _)
    have h1N : (1 : ℝ) ≤ ‖((n * k * a ^ (p * D) + p * M : ℤ) : ℂ)‖ := by
      rw [Complex.norm_intCast]
      exact_mod_cast Int.one_le_abs hne
    rw [hN, norm_mul, norm_neg, norm_pow, Complex.norm_intCast] at h1N
    refine h1N.trans ?_
    have habs : |(a : ℝ)| ^ (p * D) * ‖(B.map fun b => (n • Complex.exp (ι b) - p • aeval (ι b) gp)).sum‖ ≤
        |(a : ℝ)| ^ (p * D) * (Multiset.card B * (|c| ^ p / ((p - 1).factorial : ℝ))) := by
      refine mul_le_mul_of_nonneg_left (hbound.trans ?_) (by positivity)
      refine mul_le_mul_of_nonneg_left ?_ (by positivity)
      refine div_le_div_of_nonneg_right ?_ (by positivity)
      exact (le_abs_self _).trans (abs_pow c p).le
    refine habs.trans_eq ?_
    rw [mul_pow, ← pow_mul, mul_comm D p]
    ring
  -- the bound tends to zero
  have hlim : Filter.Tendsto (fun p : ℕ => (Multiset.card B : ℝ) * (|(a : ℝ)| ^ D * |c|) *
      ((|(a : ℝ)| ^ D * |c|) ^ p / (p.factorial : ℝ))) Filter.atTop (nhds 0) := by
    have := (FloorSemiring.tendsto_pow_div_factorial_atTop (|(a : ℝ)| ^ D * |c|)).const_mul
      ((Multiset.card B : ℝ) * (|(a : ℝ)| ^ D * |c|))
    simpa using this
  obtain ⟨P, hP⟩ := Filter.eventually_atTop.mp (hlim.eventually (gt_mem_nhds (by norm_num : (0 : ℝ) < 1)))
  obtain ⟨p, hp1, hp⟩ := Nat.exists_infinite_primes (P + (eval 0 f).natAbs + k + a.natAbs + 2)
  have h1 := key p hp (by omega) (by omega) (by omega)
  have h2 := hP (p - 1) (by omega)
  have e : (|(a : ℝ)| ^ D * |c|) ^ p = (|(a : ℝ)| ^ D * |c|) * (|(a : ℝ)| ^ D * |c|) ^ (p - 1) := by
    rw [← pow_succ', Nat.sub_add_cancel hp.one_le]
  rw [e, mul_div_assoc] at h1
  linarith


/-- pi is transcendental: otherwise `i * pi` has conjugates, and the product of `1 + exp` over them, which is zero, is a sum that is
not. -/
theorem transcendental_pi : Transcendental ℚ Real.pi := by
  intro halg
  have hI : IsAlgebraic ℚ Complex.I := ⟨X ^ 2 + 1, (monic_X_pow_add (by simp) ).ne_zero, by simp⟩
  have hθ : IsAlgebraic ℚ ((Real.pi : ℂ) * Complex.I) :=
    IsAlgebraic.mul (halg.algebraMap (A := ℂ)) hI
  set p := minpoly ℚ ((Real.pi : ℂ) * Complex.I) with hp
  have hirr : Irreducible p := minpoly.irreducible hθ.isIntegral
  have : IsSplittingField ℚ p.SplittingField p := IsSplittingField.splittingField p
  have : IsGalois ℚ p.SplittingField := IsGalois.of_separable_splitting_field hirr.separable
  have : FiniteDimensional ℚ p.SplittingField := IsSplittingField.finiteDimensional p.SplittingField p
  classical
  let ι : p.SplittingField →ₐ[ℚ] ℂ := SplittingField.lift p (IsAlgClosed.splits _)
  set R : Finset p.SplittingField := (p.aroots p.SplittingField).toFinset with hR
  have hRmem : ∀ x, x ∈ R ↔ aeval x p = 0 := by
    intro x
    rw [hR, Multiset.mem_toFinset, mem_aroots]
    simp [hirr.ne_zero]
  have hRσ : ∀ (σ : Gal(p.SplittingField/ℚ)) (x), x ∈ R → σ x ∈ R := by
    intro σ x hx
    rw [hRmem] at hx ⊢
    rw [aeval_algHom_apply, hx, map_zero]
  -- one of the roots is i pi
  have hex : ∃ x ∈ R, ι x = (Real.pi : ℂ) * Complex.I := by
    have hs : (p.map (algebraMap ℚ p.SplittingField)).Splits := SplittingField.splits p
    have h0 : (Real.pi : ℂ) * Complex.I ∈ p.rootSet ℂ := by
      rw [mem_rootSet]
      exact ⟨hirr.ne_zero, minpoly.aeval _ _⟩
    rw [← hs.image_rootSet ι] at h0
    obtain ⟨x, hx, hxi⟩ := h0
    exact ⟨x, (hRmem x).mpr (mem_rootSet.mp hx).2, hxi⟩
  obtain ⟨x, hx, hxi⟩ := hex
  have hprod : ∏ r ∈ R, (1 + Complex.exp (ι r)) = 0 :=
    Finset.prod_eq_zero hx (by rw [hxi, Complex.exp_pi_mul_I]; ring)
  rw [Finset.prod_one_add] at hprod
  let B0 : Multiset p.SplittingField := R.powerset.val.map fun S => ∑ r ∈ S, r
  have hB0 : ∀ σ : Gal(p.SplittingField/ℚ), B0.map σ = B0 := by
    intro σ
    have him : R.powerset.image (fun S => S.image σ) = R.powerset := by
      refine Finset.eq_of_subset_of_card_le ?_ ?_
      · intro S hS
        obtain ⟨U, hU, rfl⟩ := Finset.mem_image.mp hS
        rw [Finset.mem_powerset] at hU ⊢
        intro y hy
        obtain ⟨z, hz, rfl⟩ := Finset.mem_image.mp hy
        exact hRσ σ z (hU hz)
      · rw [Finset.card_image_of_injective _ (Finset.image_injective σ.injective)]
    have hval : R.powerset.val.map (fun S => S.image σ) = R.powerset.val := by
      rw [← Finset.image_val_of_injOn (Finset.image_injective σ.injective).injOn, him]
    calc B0.map σ = R.powerset.val.map ((fun S => ∑ r ∈ S, r) ∘ fun S => S.image σ) := by
          rw [Multiset.map_map]
          apply Multiset.map_congr rfl
          intro S _
          simp only [Function.comp_apply]
          rw [map_sum, Finset.sum_image σ.injective.injOn]
      _ = B0 := by rw [← Multiset.map_map, hval]
  refine exp_sum_ne ι (B0.filter (· ≠ 0)) (fun σ => ?_) (by simp) (B0.count 0) ?_ ?_
  · conv_rhs => rw [← hB0 σ, Multiset.filter_map]
    congr 1
    apply Multiset.filter_congr
    intro b _
    simp
  · rw [Multiset.count_pos]
    exact Multiset.mem_map.mpr ⟨∅, by simp, by simp⟩
  · have hall : (B0.map fun b => Complex.exp (ι b)).sum = 0 := by
      rw [Multiset.map_map, ← hprod]
      change _ = (R.powerset.val.map _).sum
      congr 1
      apply Multiset.map_congr rfl
      intro S _
      simp only [Function.comp_apply]
      rw [map_sum, Complex.exp_sum]
    rw [← Multiset.filter_add_not (· ≠ 0) B0, Multiset.map_add, Multiset.sum_add] at hall
    have : B0.filter (fun b => ¬ b ≠ 0) = Multiset.replicate (B0.count 0) 0 := by
      rw [← Multiset.filter_eq']
      apply Multiset.filter_congr
      intro b _
      simp
    rw [this] at hall
    rw [← hall]
    simp [add_comm]

end Sys2Proof
end

