-- ==== Sys2Proof/Laws/HalfPi.lean ====
section
/-! SUPPORT. Two bounds of pi that are near enough round a quotient by pi / 2 to one integer (spec/00_scope.md R18, R19). -/

namespace Sys2Proof

/-! ## The exact numbers are algebraic -/

theorem isAlgebraic_theta (n : Nat) : IsAlgebraic ℚ (Surd.theta n) := by
  have key : ∀ n, IsAlgebraic ℚ (Surd.radicand n).real → IsAlgebraic ℚ (Surd.theta n) := fun n h => by
    rw [← Surd.theta_sq, ← sq] at h
    exact h.of_pow (by norm_num)
  induction n with
  | zero => exact key 0 (by simpa [Surd.radicand] using isAlgebraic_algebraMap (A := ℝ) (2 : ℚ))
  | succ n ih =>
    refine key _ ?_
    have e : (Surd.radicand (n + 1)).real = 2 + Surd.theta n := by simp [Surd.radicand]
    rw [e]
    exact IsAlgebraic.add (by simpa using isAlgebraic_algebraMap (A := ℝ) (2 : ℚ)) ih

theorem isAlgebraic_real {n : Nat} (x : Surd n) : IsAlgebraic ℚ x.real := by
  induction x with
  | rat q => exact isAlgebraic_algebraMap (A := ℝ) q
  | ext a b iha ihb => exact iha.add (ihb.mul (isAlgebraic_theta _))

/-- A quotient of an exact number by pi is not halfway between two integers. -/
theorem quotient_not_half (x : Surd 8) (k : Int) : x.real / (Real.pi / 2) ≠ k + 1 / 2 := by
  intro h
  have hpi := Real.pi_pos
  have hk : (k : ℝ) + 1 / 2 ≠ 0 := by
    intro h0
    have : (2 * k + 1 : ℝ) = 0 := by linarith
    have : 2 * k + 1 = 0 := by exact_mod_cast this
    omega
  refine transcendental_pi ?_
  have e : Real.pi = x.real * ((2 / (k + 1 / 2) : ℚ) : ℝ) := by
    push_cast
    rw [div_eq_iff (by positivity)] at h
    rw [h]
    have hk' : (k : ℝ) * 2 + 1 ≠ 0 := fun h0 => hk (by linarith)
    field_simp
  rw [e]
  exact (isAlgebraic_real x).mul (isAlgebraic_algebraMap (A := ℝ) (2 / (k + 1 / 2) : ℚ))

/-! ## Rounding between two bounds -/

theorem real_over_half (x : Surd 8) {p : Rat} (hp : p ≠ 0) :
    (x.div (.rat (ratMul p (mkRat 1 2)))).real = x.real / (p / 2) := by
  have e : ratMul p (mkRat 1 2) = p / 2 := by rw [ratMul_eq, Rat.mkRat_eq_div]; push_cast; ring
  have h : ((p / 2 : Rat) : ℝ) ≠ 0 := by
    have : (p : ℝ) ≠ 0 := by exact_mod_cast hp
    push_cast
    positivity
  rw [e, Surd.real_div _ _ (by simpa using h), Surd.real_rat]
  push_cast
  rfl

/-- Where a bound below and a bound above pi round the quotient to one integer, no integer is nearer to the quotient by pi / 2. -/
theorem roundOverHalf_near (x : Surd 8) {p q : Rat} (hp : 0 < p) (h1 : (p : ℝ) ≤ Real.pi) (h2 : Real.pi ≤ q)
    (h : roundOverHalf x p = roundOverHalf x q) : |x.real / (Real.pi / 2) - roundOverHalf x p| ≤ 1 / 2 := by
  have hp' : (0 : ℝ) < p := by exact_mod_cast hp
  have hq' : (0 : ℝ) < q := hp'.trans_le (h1.trans h2)
  have hq : 0 < q := by exact_mod_cast hq'
  have n1 := Surd.round_near (x.div (.rat (ratMul p (mkRat 1 2))))
  have n2 := Surd.round_near (x.div (.rat (ratMul q (mkRat 1 2))))
  rw [real_over_half x hp.ne'] at n1
  rw [real_over_half x hq.ne'] at n2
  rw [show (x.div (.rat (ratMul p (mkRat 1 2)))).round = roundOverHalf x p from rfl] at n1
  rw [show (x.div (.rat (ratMul q (mkRat 1 2)))).round = roundOverHalf x q from rfl, ← h] at n2
  rw [abs_le] at n1 n2 ⊢
  rcases le_total 0 x.real with hx | hx
  · have a1 : x.real / (Real.pi / 2) ≤ x.real / (p / 2) := by gcongr
    have a2 : x.real / (q / 2) ≤ x.real / (Real.pi / 2) := by
      have := Real.pi_pos
      gcongr
    constructor <;> linarith
  · have hx' : 0 ≤ -x.real := by linarith
    have a1 : -x.real / (Real.pi / 2) ≤ -x.real / (p / 2) := by gcongr
    have a2 : -x.real / (q / 2) ≤ -x.real / (Real.pi / 2) := by
      have := Real.pi_pos
      gcongr
    rw [neg_div, neg_div] at a1 a2
    constructor <;> linarith

/-- Bounds that close in on pi round the quotient to its nearest integer from some index on. -/
theorem roundOverHalf_eventually (x : Surd 8) {p : Nat → Rat}
    (h : Filter.Tendsto (fun n => ((p n : Rat) : ℝ)) Filter.atTop (nhds Real.pi)) :
    ∀ᶠ n in Filter.atTop, 0 < p n ∧ roundOverHalf x (p n) = ⌊x.real / (Real.pi / 2) + 1 / 2⌋ := by
  have hpi := Real.pi_pos
  set y := x.real / (Real.pi / 2) with hy
  have hlim : Filter.Tendsto (fun n => x.real / ((p n : ℝ) / 2)) Filter.atTop (nhds y) :=
    tendsto_const_nhds.div (h.div_const 2) (by positivity)
  have f1 := Int.floor_le (y + 1 / 2)
  have f2 := Int.lt_floor_add_one (y + 1 / 2)
  have f3 : (⌊y + 1 / 2⌋ : ℝ) ≠ y + 1 / 2 := by
    intro h0
    refine quotient_not_half x (⌊y + 1 / 2⌋ - 1) ?_
    push_cast
    rw [← hy]
    linarith
  have hlo : (⌊y + 1 / 2⌋ : ℝ) - 1 / 2 < y := by
    have := lt_of_le_of_ne f1 f3
    linarith
  have hhi : y < ⌊y + 1 / 2⌋ + 1 / 2 := by linarith
  filter_upwards [h.eventually (lt_mem_nhds hpi), hlim.eventually (lt_mem_nhds hlo), hlim.eventually (gt_mem_nhds hhi)]
    with n hp h1 h2
  have hp' : 0 < p n := by exact_mod_cast hp
  refine ⟨hp', Surd.round_of_near ?_⟩
  rw [real_over_half x hp'.ne', abs_lt]
  constructor <;> linarith

/-- Some bounds of pi agree, for every exact number. -/
theorem bounds_agree (x : Surd 8) : ∃ n, boundsAgree x n = true := by
  obtain ⟨n, ⟨h0, h1⟩, -, h2⟩ :=
    ((roundOverHalf_eventually x piBelow_tendsto).and (roundOverHalf_eventually x piAbove_tendsto)).exists
  refine ⟨n, ?_⟩
  rw [boundsAgree, Bool.and_eq_true, ratLt_iff, decide_eq_true_iff, h1, h2]
  exact ⟨h0, rfl⟩

end Sys2Proof
end

