-- ==== Sys2Proof/Machine/HalfPi.lean ====
section
/-! DEFINITION. The rounded quotient by pi / 2 of NUM = Exact, for the real pi (spec/00_scope.md R18, R19; log 7). -/

namespace Sys2Proof

/-- `round(x / (pi / 2))` for the real pi: the integer to which a bound below pi and a bound above it both round the quotient. The
first two are those of `piFloor`; where they disagree, the series give nearer ones until two agree, which `bounds_agree` proves
to happen for every `x`. `Laws/Numbers.lean` proves that no integer is nearer to the quotient. -/
def roundOverHalfPi (x : Surd 8) : Int :=
  let m := roundOverHalf x (mkRat piFloor piScale)
  if m = roundOverHalf x (mkRat (piFloor + 1) piScale) then m
  else roundOverHalf x (piBelow (Nat.find (bounds_agree x)))

end Sys2Proof
end

