-- ==== Sys2Proof/Machine/SineTable.lean ====
section
/-! DEFINITION. The default SINE_TABLE of spec/00_scope.md R10: `t[k] = rnd_NUM(sin(2*pi*k/1024))`.

For the IEEE formats the list holds `sin(2*pi*k/1024) * 2^100` to the nearest integer for `k` in `0..256`; no rounding boundary of
binary32 or binary64 lies within `2^14` of an entry, so rounding an entry rounds the sine itself (log 4; `Laws/Sine.lean` proves the
entries). For Exact the entries are the sines themselves (`Laws/ExactSine.lean`). -/

namespace Sys2Proof

def sineQuarter0 : List Nat :=
  [0, 7778157858431849463462493803, 15556022873616561564911268891,
   23333302213332381681381765561, 31109703067407905568579188454, 38884932658746216817270263399,
   46658698254347779073901780298, 54430707176331668019783979637, 62200666812954728165683991883,
   69968284629628239596804065908, 77733268179931679896868283242, 85495325116623166589406319702,
   93254163202646165559299467283, 101009490322132051058237861861, 108761014491398103053923383314,
   116508443869940527854634123789, 124251486771422088128137189651, 131989851674653928636889858650,
   139723247234571184229997114976, 147451382293201956866488103721, 155173965890629248694126269277,
   162890707275945438473168470086, 170601315918198888915227210338, 178305501517332272803656727910,
   186002974015112206073666872964, 193693443606049776357656764484, 201376620748311555844040800642,
   209052216174620687656099817598, 216719940903147635331116551917, 224379506248390185369232993654,
   232030623832042293226083067918, 239673005593851363543292118905, 247306363802463555846379077689,
   254930411066256707390431579307, 262544860344160465300131682238, 270149424956463220632272681702,
   277743818595605437485807666872, 285327755336958970796689242923, 292900949649591966982277937284,
   300463116407018942142894374529, 308013970897935633086146900271, 315553228836938217012960950420,
   323080606375226496292747514293]

def sineQuarter1 : List Nat :=
  [330595820111290645358853370952, 338098587101581117374312658859, 345588624871161308951944468915,
   353065651424342581861990659671, 360529385255301241324737540698, 367979545358677071164889447327,
   375415851240153026798835960870, 382838022927015687735351470368, 390245780978696071994659216419,
   397638846497290415590154631717, 405016941138060520971386860033, 412379787119913279096114396308,
   419727107235858970583351884804, 427058624863447952198280718796, 434374063975185335733676123986,
   441673149148923267181077240208, 448955605578230414928263146808, 456221159082738276577665055156,
   463469536118463914853110711323, 470700463788108733949728553936, 477913669851332908583902945223,
   485108882735005078916833875245, 492285831543426925456480418255, 499444246068532238988421836139,
   506583856800060101546417969636, 513704394935701795408155280878, 520805592391221058090789913565,
   527887181810547302324407179827, 534948896575841420999370184021, 541990470817533798115690531745,
   549011639424334147808982386997, 556012138053212804588218134190, 562991703139353088995349641586,
   569950071906074373985853141216, 576886982374725478432357037576, 583802173374548015270679002117,
   590695384552509322938789442157, 597566356383104609904390262554, 604414830178127943235907651290,
   611240548096411713344701776161, 618043253153534208213150616100, 624822689231494931623924982921,
   631578601088357301120191913256]

def sineQuarter2 : List Nat :=
  [638310734367858362654618303945, 645018835608985160126849688575, 651702652255517399264563655039,
   658361932665536046572196317896, 664996426120897505353965707821, 671605882836673012113819637262,
   678190053970552897944368752694, 684748691632215360839678790146, 691281548892659396202939708917,
   697788379793501534169453083377, 704268939356236033728032079564, 710722983591458184999739228742,
   717150269508050372421844234977, 723550555122330552986914924619, 729923599467162805102006376722,
   736269162601029605060932988973, 742587005617065489563541969476, 748876890652051764169700250447,
   755138580895371919042305360987, 761371840597927414812979156018, 767576435081013502896145780560,
   773752130745154746081875678233, 779898695078899906755139179849, 786015896667575871618899108108,
   792103505202000283340724312225, 798161291487152551097267036802, 804189027450802913557958000355,
   810186486152099229428575013490, 816153441790111172266874445001, 822089669712331507886179925819,
   827994946423134134278638987098, 833869049592188565617725025326, 839711758062830543539417785854,
   845522851860388460553278717006, 851302112200465282098285881353, 857049321497175655433743983208,
   862764263371337895242775402374, 868446722658620537524764391671, 874096485417643155063604838614,
   879713338938031129480627811116, 885297071748424076614593670076, 890847473624437623716059572463,
   896364335596578238699711011639]

def sineQuarter3 : List Nat :=
  [901847449958110813465809524209, 907296610272878705080691286971, 912711611383075940396186063338,
   918092249416971291488845445923, 923438321796583931111905773427, 928749627245310379175896253447,
   934025965795502453107668063859, 939267138795995936782296490229, 944472948919589684577726033984,
   949643200170474878968118040686, 954777697891614161948551492233, 959876248772070362470949524940,
   964938660854284543968785924366, 969964743541303097956195860790, 974954307603953611605501628623,
   979907165187969239135794912665, 984823129821061308784019512090, 989702016419939899078899514503,
   994543641297282120096984252427, 999347822168647837348959240638, 1004114378159342577923127557654,
   1008843129811227360501524299571, 1013533899089475192862412931005, 1018186509389273982490851351991,
   1022800785542475607936531693415, 1027376553824190900585115288646, 1031913641959330288545726629367,
   1036411879129089856403060728335, 1040871095977382576637620158018, 1045291124617214470581853739891,
   1049671798637005458853340706493, 1054012953106854663288574085998, 1058314424584749924492266665301,
   1062576051122721301217353433781, 1066797672272938319899916822542, 1070979129093750744791035928582,
   1075120264155672641253978516845, 1079220921547309506930134867127, 1083280946881228247620555096509,
   1087300187299769776881815741221, 1091278491480804020495126108131, 1095215709643427109136008875687,
   1099111693553600544748470997152]

def sineQuarter4 : List Nat :=
  [1102966296529732128312238188320, 1106779373448198438884276916464, 1110550780748808655996389294986,
   1114280376440209519699055779228, 1117968020105231224757834908531, 1121613572906174047732425111722,
   1125216897590035507899867063040, 1128777858493677865222232233243, 1132296321548935760805419834086,
   1135772154287663807549285732516, 1139205225846723940950168266999, 1142595406972912342284872112972,
   1145942570027825748680237028650, 1149246588992666966854467811500, 1152507339472989409605349191675,
   1155724698703380476416228503962, 1158898545552083601853133380426, 1162028760525558797735514704596,
   1165115225772981517378779727555, 1168157825090679672528919382939, 1171156443926508635938050024219,
   1174110969384164064864495376581, 1177021290227432383122041543020, 1179887296884378761650118292355,
   1182708881451472439929805218043, 1185485937697649232929643096237, 1188218361068311070630160071509,
   1190906048689262419546710120708, 1193548899370583438046578334518, 1196146813610439719638244443946,
   1198699693598828480798123026577, 1201207443221261052292926069753, 1203669968062381535353930956228,
   1206087175409521486462794183861, 1208458974256190496917037749410, 1210785275305502535756860439432,
   1213065990973537927053399410672, 1215301035392640834981897354163, 1217490324414652132531325984370,
   1219633775614077532134786160862, 1221731308291190858942357042589, 1223782843475072349899909529169,
   1225788303926581864243640925423]

def sineQuarter5 : List Nat :=
  [1227747614141266893470636175298, 1229660700352205261300523887434, 1231527490532782406602180296533,
   1233347914399403144722348696791, 1235121903414137805119893018560, 1236849390787302645680099221645,
   1238530311479974446557884027848, 1240164602206439188876874050132, 1241752201436574726092986296886,
   1243293049398167358316279903776, 1244787088079162222373365208559, 1246234261229847412884456244787,
   1247634514364971752124142573566, 1248987794765796128933042163709, 1250294051482078329448584717967,
   1251553235333991284927170262228, 1252765298913974664436756691450, 1253930196588519742708457920850,
   1255047884499887475947886841042, 1256118320567759720921659840460, 1257141464490823535151597560950,
   1258117277748288498568615024986, 1259045723601336999499998459191, 1259926767094507430387621098164,
   1260760375057010241160560963151, 1261546516103976800713454972892, 1262285160637641019471660585960,
   1262976280848453688555803252036, 1263619850716129493591469953950, 1264215846010626663744570680127,
   1264764244293059219099135345945, 1265265024916541782031947994263, 1265718169026966920777347509450,
   1266123659563714995915648986539, 1266481481260296483059866673291, 1266791620644926747557652372301,
   1267054066041033249568506639149, 1267268807567695160420278293046, 1267435837140015373693644889958,
   1267555148469424897028567089018, 1267626737063919613192537442170, 1267650600228229401496703205376]

/-- `sin(2*pi*k/1024) * 2^100` for `k` in `0..256`, the first quarter of the period. -/
def sineQuarter : List Nat :=
  sineQuarter0 ++ sineQuarter1 ++ sineQuarter2 ++ sineQuarter3 ++ sineQuarter4 ++ sineQuarter5

/-- The same for the first half of the period, `k` in `0..511`: the second quarter mirrors the first. -/
def sineHalf : List Nat := sineQuarter.take 256 ++ sineQuarter.reverse.take 256

/-- The table entry with numerator `m`, rounded to the format. -/
def sineEntry (f : FloatFormat) (m : Int) : Value := rnd (.ieee f) false (.rat (mkRat m (2 ^ 100)))

/-- The default SINE_TABLE for an IEEE NUM (R10): the second half of the period is the negated first half. -/
def ieeeSineTable (f : FloatFormat) : List Value :=
  sineHalf.map (fun m => sineEntry f (m : Int)) ++ sineHalf.map (fun m => sineEntry f (-(m : Int)))

/-! ## The exact table -/

/-- `2 * cos (2 * pi / 1024)`. -/
def cosineStep : Surd 8 := .ext (.rat 0) (.rat 1)

/-- `n` numbers `2 * cos (2 * pi * j / 1024)` in a row, from two that follow one another: `c(j + 1) = c(1) * c(j) - c(j - 1)`. -/
def cosinesFrom : Nat → Surd 8 → Surd 8 → List (Surd 8)
  | 0, _, _ => []
  | n + 1, c, d => c :: cosinesFrom n d ((cosineStep.mul d).sub c)

/-- `2 * cos (2 * pi * j / 1024)` for `j` in `0..767`. -/
def cosines : List (Surd 8) := cosinesFrom 768 (.rat 2) cosineStep

/-- `sin (2 * pi * k / 1024)`, the cosine a quarter of the period away. -/
def exactSine (k : Nat) : Surd 8 := (cosines.getD ((k - 256) + (256 - k)) (.rat 0)).scale (mkRat 1 2)

/-- The default SINE_TABLE (R10). -/
def defaultSineTable : NumFormat → List Value
  | .exact => (List.range 1024).map fun k => ofSurd (exactSine k)
  | .ieee f => ieeeSineTable f

end Sys2Proof
end

