-- ==== Sys2Proof/Machine/Construct.lean ====
section
/-! DEFINITION. Construction: the values that reset gives each component (spec/10_state.md R42, R46, R53, R57), the derived
values that commands compute by the same formulas, and the sixteen checks of reset (spec/70_reset_and_hazards.md R342). -/

namespace Sys2Proof.Machine

open Sys2Proof

/-! ## Derived values -/

/-- `round(((phi - seen) * toNUM(2^W)) / (pi / 2))`, none when the quotient is not finite (R42, R168). Under Exact the
quotient is by the real pi and always finite (R19). -/
def detuneOf (fmt : NumFormat) (phi seen : Value) (W : Nat) : Option Int :=
  let x := Value.mul fmt (Value.sub fmt phi seen) (toNum fmt (2 ^ W : Nat))
  match fmt with
  | .exact => some (roundOverHalfPi x.exact)
  | .ieee f =>
    let q := Value.div fmt x (Value.div fmt (piIeee f) (toNum fmt 2))
    if q.isFinite then some q.round else none

/-- The coefficient set derived from the raw gains (R221). -/
def coefs (fmt : NumFormat) (p i d Ts : Value) : CoefSet where
  pc := p
  ic := Value.div fmt (Value.mul fmt i Ts) (toNum fmt 2)
  dc := Value.div fmt d Ts

/-- The coefficients that a recomputation checks (R238). -/
def CoefSet.finite (c : CoefSet) : Bool := c.ic.isFinite && c.dc.isFinite

/-- The delay set that a delay reset writes (R229). -/
def zeroDelay : DelaySet := ⟨.fin 0, .fin 0, .fin 0, .fin 0⟩

/-- `osc_freq / (osc_clock / toNUM(2^W))`, the frequency word before rounding (R42). -/
def freqQuot (fmt : NumFormat) (c : Config.Record) : Value :=
  Value.div fmt c.oscFreq (Value.div fmt c.oscClock (toNum fmt (2 ^ c.oscW : Nat)))

/-! ## Reset values of the components -/

/-- R42. `phase_seen` and both accumulators start at 0. -/
def oscAtReset (fmt : NumFormat) (c : Config.Record) : Osc where
  en := c.oscEnable
  amp := c.oscAmplitude
  off := c.oscOffset
  phaseCfg := c.oscPhase
  phaseSeen := .fin 0
  W := c.oscW
  G := c.oscG
  fw := (freqQuot fmt c).round
  detune := (detuneOf fmt c.oscPhase (.fin 0) c.oscW).getD 0
  accP := 0
  accS := 0

/-- R46. -/
def mafAtReset (fmt : NumFormat) (capacity : Nat) (c : Config.Record) : Maf where
  buf := List.replicate capacity (.fin 0)
  cur := 0
  sum := .fin 0
  N := (Value.div fmt c.loopRate c.mafCutoff).round.toNat
  fc := c.mafCutoff
  fs := c.loopRate

/-- R53. The start transition applies the delay reset to `ad = 0`, so `ad` is 1 and both delay sets are zero. -/
def pidAtReset (fmt : NumFormat) (r : Config.PidRecord) : Pid where
  Ts := r.Ts
  p := r.p
  i := r.i
  d := r.d
  K := r.gain
  min := r.min
  max := r.max
  aw := r.aw
  coef := ⟨coefs fmt r.p r.i r.d r.Ts, coefs fmt r.p r.i r.d r.Ts⟩
  ac := 0
  dly := ⟨zeroDelay, zeroDelay⟩
  ad := 1
  fsm := .idle
  frozen := true
  cv := clamp (.fin 0) r.min r.max

/-- R57. -/
def loopAtReset (fmt : NumFormat) (c : Config.Record) : Loop where
  tick := 0
  countlim := (Value.div fmt c.loopRate c.slowRate).round.toNat
  slowLast := clamp (.fin 0) c.pidSlow.min c.pidSlow.max

/-! ## The checks of reset (R342) -/

/-- Check 2 for one controller: finite, except that `min` may be `-inf` and `max` may be `+inf`. -/
def pidRecordFinite (r : Config.PidRecord) : Bool :=
  [r.Ts, r.p, r.i, r.d, r.gain].all Value.isFinite
    && (r.min.isFinite || decide (r.min = .inf true)) && (r.max.isFinite || decide (r.max = .inf false))

/-- Check 2: every NUM field of the record. -/
def recordFinite (c : Config.Record) : Bool :=
  [c.oscAmplitude, c.oscOffset, c.oscFreq, c.oscPhase, c.oscClock, c.loopRate, c.mafCutoff, c.slowRate].all Value.isFinite
    && pidRecordFinite c.pidFast && pidRecordFinite c.pidSlow

/-- `x > 0`. -/
def positive (x : Value) : Bool := (Value.fin 0).lt x

/-- The quotient is finite and its nearest integer lies in `lo..hi`. -/
def roundsWithin (q : Value) (lo hi : Int) : Bool := q.isFinite && decide (lo ≤ q.round) && decide (q.round ≤ hi)

/-- The check with the given number (R342). -/
def resetCheck (par : Config.Params) (c : Config.Record) (k : Nat) : Bool :=
  match k with
  | 1 => decide (par.sineTable.length = Config.L) && par.sineTable.all Value.isFinite
  | 2 => recordFinite c
  | 3 => decide (1 ≤ c.oscG) && decide (c.oscG ≤ c.oscW) && decide (c.oscW ≤ 64)
  | 4 => decide (2 ^ c.oscG ≤ Config.L)
  | 5 => positive c.oscClock
  | 6 => roundsWithin (freqQuot par.num c) 0 ((2 ^ c.oscW : Nat) - 1)
  | 7 => (detuneOf par.num c.oscPhase (.fin 0) c.oscW).isSome
  | 8 => positive c.loopRate
  | 9 => positive c.mafCutoff && roundsWithin (Value.div par.num c.loopRate c.mafCutoff) 1 par.capacity
  | 10 => positive c.pidFast.Ts
  | 11 => c.pidFast.min.le c.pidFast.max
  | 12 => (coefs par.num c.pidFast.p c.pidFast.i c.pidFast.d c.pidFast.Ts).finite
  | 13 => positive c.pidSlow.Ts
  | 14 => c.pidSlow.min.le c.pidSlow.max
  | 15 => (coefs par.num c.pidSlow.p c.pidSlow.i c.pidSlow.d c.pidSlow.Ts).finite
  | 16 =>
    let q := Value.div par.num c.loopRate c.slowRate
    positive c.slowRate && q.isFinite && decide (1 ≤ q.round)
  | _ => true

/-- The numbers of the checks, in their order. -/
def checkNumbers : List Nat := [1, 2, 3, 4, 5, 6, 7, 8, 9, 10, 11, 12, 13, 14, 15, 16]

/-- The number of the first check that fails (R342, R308). -/
def firstFailedCheck (par : Config.Params) (c : Config.Record) : Option Nat :=
  checkNumbers.find? (fun k => !resetCheck par c k)

/-! ## The model's own choice of parameters (DESIGN CHOICE, log 1) -/

/-- The parameters under which spec/95_test_vectors.md states its vectors: binary64, the default sine table, a capacity of 8
and no double increment. -/
def defaultParams : Config.Params where
  num := .ieee .binary64
  capacity := 8
  sineTable := defaultSineTable (.ieee .binary64)
  doubleIncrement := false

end Sys2Proof.Machine
end

