-- ==== Sys2Proof/Machine/State.lean ====
section
/-! DEFINITION. The state of the block and of its port as plain data, the reasons a step stops, and the state after reset
(spec/10_state.md R30, R66, R70; spec/60_exceptions.md R322). -/

namespace Sys2Proof.Machine

open Sys2Proof

/-- The agents that issue commands: the tick agent `T` and the configuration agent `K` (R6). The platform `P` issues the other
two port events. -/
inductive Agent where
  | tick
  | config
  deriving DecidableEq, Repr, Inhabited

/-- One event at the block's inputs (R100, R306, R340): a command transaction's word and operands, the overrun signal, or reset
with a configuration record. -/
inductive PortEvent where
  | command (agent : Agent) (word : CmdWord) (ops : List Value)
  | overrun
  | reset (cfg : Config.Record)
  deriving DecidableEq, Repr, Inhabited

/-- The response of a transaction (R22). -/
inductive Resp where
  | ok
  | halted
  deriving DecidableEq, Repr, Inhabited

/-- What a result slot holds (R32). -/
inductive Result where
  | num (v : Value)
  | bool (b : Bool)
  deriving DecidableEq, Repr, Inhabited

/-- The answer of a transaction: its response and its result slots. A slot the opcode's rule does not write holds no value (R32). -/
structure Answer where
  resp : Resp
  res0 : Option Result
  res1 : Option Result
  deriving DecidableEq, Repr, Inhabited

/-- The state `S` of the block (R30), together with what stands outside it: `par` are the implementation parameters, which no
step changes; `pending` are the port events to come, in their total order (R87, log 9); `answer` is what the last step's
transaction answered, for its one step only (R32, log 10); `free` is the model's own counter for free values (log 8). -/
structure State where
  par     : Config.Params
  status  : BitVec 32
  wt      : List Value
  osc     : Osc
  maf     : Maf
  pidFast : Pid
  pidSlow : Pid
  loop    : Loop
  pending : List PortEvent
  answer  : Option Answer
  free    : Nat
  deriving DecidableEq, Repr, Inhabited

/-- Why the MODEL stops with a fault. These are not the block's faults, which are next states (R303). Each says that the state has
departed from the spec's rules, so that no rule gives a value; Safety.lean's invariant excludes all of them. -/
inductive Fault where
  /-- An array index outside the array: raised by the reads and writes of WT and BUF. Safe: R82 asks for a fault, never a value. -/
  | indexOutOfRange
  /-- A window length outside `1..C`: raised by the filter update. Safe: R190 gives the update for `1 <= n <= C` only. -/
  | windowOutOfRange
  /-- Widths outside `1 <= G <= W`: raised by the oscillator's advance. Safe: R12 calls no other widths legal, and the fold (R163)
  and the position (R164) have no value there. -/
  | widthsOutOfRange
  deriving DecidableEq, Repr, Inhabited

/-- Why the MODEL has no meaning for a step. -/
inductive Refusal where
  /-- An instruction without a meaning yet: raised by `exec`'s own arms only. Safe. -/
  | notModelled (mnemonic : String)
  /-- A command whose operand is no value of NUM (1/3 under binary64, an infinity under Exact): raised by `step`. No such
  transaction exists, since an operand slot holds a NUM value (R32). Safe. -/
  | operandNotOfNum
  /-- A configuration record with a field that is no value of NUM: raised by `step`. No such record exists (R33). Safe. -/
  | recordNotOfNum
  /-- A SINE_TABLE with an entry that is no value of NUM: raised by `step` when a reset would load it. No such parameter exists
  (R10). Safe. -/
  | tableNotOfNum
  deriving DecidableEq, Repr, Inhabited

/-- The outcome of a step. -/
abbrev StepOutcome := Host.Outcome State Fault Refusal

/-- The state right after reset (R70). The spec fixes neither the parameters nor the configuration record: these are the model's
choice, binary64 with the default sine table and CFG1 (DESIGN CHOICE, log 1). `Laws/Reset.lean` shows that every check of R342
passes and that this is the state that R340 gives. -/
def State.reset : State where
  par := defaultParams
  status := 0
  wt := defaultParams.sineTable
  osc := oscAtReset defaultParams.num Config.cfg1
  maf := mafAtReset defaultParams.num defaultParams.capacity Config.cfg1
  pidFast := pidAtReset defaultParams.num Config.cfg1.pidFast
  pidSlow := pidAtReset defaultParams.num Config.cfg1.pidSlow
  loop := loopAtReset defaultParams.num Config.cfg1
  pending := []
  answer := none
  free := 0

end Sys2Proof.Machine
end

