-- ==== Sys2Proof/Machine/Flags.lean ====
section
/-! DEFINITION. Flags and the status register (spec/10_state.md R60, R66; spec/60_exceptions.md R301). The block has no condition
codes: its flags are `osc.en`, `pid[s].frozen`, the derived `limited(s)` and `status.halted`. -/

namespace Sys2Proof.Machine

open Sys2Proof

/-! ## Fault causes -/

/-- The fault causes (R301). `none` is never raised; it is the cause code while the block is not halted. -/
inductive Cause where
  | none
  | configError
  | illegalCommand
  | numericFault
  | deadlineOverrun
  deriving DecidableEq, Repr, Inhabited

/-- The cause codes (R301). -/
def Cause.code : Cause → BitVec 4
  | .none => 0
  | .configError => 1
  | .illegalCommand => 2
  | .numericFault => 3
  | .deadlineOverrun => 4

/-! ## STATUS (R66) -/

/-- STATUS after a fault: INFO in `[31:16]`, zeros in `[15:8]`, CAUSE in `[7:4]`, zeros in `[3:1]`, HALTED = 1 in bit 0. -/
def statusWord (c : Cause) (info : BitVec 16) : BitVec 32 :=
  (((info ++ 0#8) ++ c.code) ++ 0#3) ++ 1#1

/-- `STATUS.HALTED`. -/
def State.halted (s : State) : Bool := s.status.getLsbD 0

/-- `STATUS.CAUSE`. -/
def State.causeField (s : State) : BitVec 4 := s.status.extractLsb' 4 4

/-- `STATUS.INFO`. -/
def State.infoField (s : State) : BitVec 16 := s.status.extractLsb' 16 16

/-- Reading STATUS: possible at any time, also while halted, without a command and without a side effect (R66). -/
def State.readStatus (s : State) : BitVec 32 := s.status

/-! ## Flags of the components (R60) -/

/-- The derived flag `limited(s)`: the saturation of the active delay set is not zero (R60, R236). -/
def Pid.limited (P : Pid) : Bool := !(P.activeDly.psat.eq (.fin 0))

end Sys2Proof.Machine
end

