-- ==== Sys2Proof/Machine/Operands.lean ====
section
/-! DEFINITION. Operand slots, result slots and the controller an operand selects (spec/10_state.md R32;
spec/30_encoding.md R104; spec/60_exceptions.md R305, R308). -/

namespace Sys2Proof.Machine

open Sys2Proof

/-- Why a command's body ends without a result: the block raises a fault with this cause (R303), or the state has departed from
the spec's rules and the model stops. -/
inductive Stop where
  | raise (c : Cause)
  | departed (f : Fault)
  deriving DecidableEq, Repr

/-- `if not b: raise Fault(c, word)`. -/
def require (b : Bool) (c : Cause) : Except Stop Unit :=
  if b then .ok () else .error (.raise c)

/-- The operand check that every command with a numeric operand begins with (R305, R308): NUMERIC_FAULT when it is infinite or
NaN. -/
def requireFinite (x : Value) : Except Stop Unit := require x.isFinite .numericFault

/-- The controller that `sel` selects (R23, R104). -/
def State.pid (s : State) (sel : Sel) : Pid :=
  match sel with
  | .fast => s.pidFast
  | .slow => s.pidSlow

/-- Replace the controller that `sel` selects. -/
def State.setPid (s : State) (sel : Sel) (P : Pid) : State :=
  match sel with
  | .fast => { s with pidFast := P }
  | .slow => { s with pidSlow := P }

/-- The results of a command: what it places in `res0` and `res1`, and the state it leaves. -/
structure Done where
  state : State
  res0  : Option Result
  res1  : Option Result
  deriving DecidableEq, Repr

/-- `return (-, -)`. -/
def done0 (s : State) : Done := ⟨s, none, none⟩

/-- `return (v, -)` for a number. -/
def done1 (s : State) (v : Value) : Done := ⟨s, some (.num v), none⟩

/-- `return (v, w)` for two numbers. -/
def done2 (s : State) (v w : Value) : Done := ⟨s, some (.num v), some (.num w)⟩

/-- Reading a result slot as a number. A slot that the command did not write holds no value, and reading it is a fault of the
reader, never zero (R32): there is no number. -/
def Answer.num0 (a : Answer) : Option Value :=
  match a.res0 with
  | some (.num v) => some v
  | _ => none

/-- The same for the slot `res1`. -/
def Answer.num1 (a : Answer) : Option Value :=
  match a.res1 with
  | some (.num v) => some v
  | _ => none

end Sys2Proof.Machine
end

