-- ==== Sys2Proof/Machine/Ops.lean ====
section
/-! DEFINITION. The shared operations: the element accesses to WT and BUF (spec/20_memory.md R82, R83), taking a fault
(spec/60_exceptions.md R303), a command's transaction around its body (R22, R312), and leaving a halt by reset
(spec/70_reset_and_hazards.md R340, R343, R344). -/

namespace Sys2Proof.Machine

open Sys2Proof

/-! ## The internal arrays -/

/-- `MemRead(space, i, 1)`: element `i` of WT or BUF, for `0 <= i < size`. An index outside the array is a fault, never a
value (R82). -/
def memRead (space : List Value) (i : Int) : Except Stop Value :=
  if 0 ≤ i then
    match space[i.toNat]? with
    | some v => .ok v
    | none => .error (.departed .indexOutOfRange)
  else .error (.departed .indexOutOfRange)

/-- `MemWrite(BUF, i, 1, v)` for `0 <= i < C` (R83). -/
def memWrite (buf : List Value) (i : Nat) (v : Value) : Except Stop (List Value) :=
  if i < buf.length then .ok (buf.set i v) else .error (.departed .indexOutOfRange)

/-- The two arrays have their sizes, `L` and `C` (R80, R96): the form that every step keeps. -/
def Memory.wf (s : State) : Bool :=
  decide (s.wt.length = Config.L) && decide (s.maf.buf.length = s.par.capacity)

/-! ## Taking a fault (R303), and the return from it -/

/-- Fault entry: nothing is written but STATUS. The block saves nothing else: it has no program counter, no saved-state
register and no handler address (R303, R310). -/
def faultEntry (c : Cause) (info : BitVec 16) (s : State) : State := { s with status := statusWord c info }

/-- The answer HALTED, with no result slot written (R303, R312). -/
def State.answerHalted (s : State) : State := { s with answer := some ⟨.halted, none, none⟩ }

/-- The answer OK with the results of the command (R100). -/
def Done.answerOk (d : Done) : State := { d.state with answer := some ⟨.ok, d.res0, d.res1⟩ }

/-- `raise Fault(c, w)` by the command with word `w`: fault entry into the state before the command, and the answer
HALTED. -/
def raiseBy (c : Cause) (w : CmdWord) (s : State) : State := (faultEntry c w s).answerHalted

/-- One command's transaction. While the block is halted every command is answered HALTED and changes nothing (R312).
Otherwise the body runs on the state, indivisibly (R86): it returns its results, or raises a fault that leaves the
state before the command with STATUS written (R303). -/
def transact (w : CmdWord) (s : State) (body : Except Stop Done) : StepOutcome :=
  if s.halted then .next s.answerHalted
  else
    match body with
    | .ok d => .next d.answerOk
    | .error (.raise c) => .next (raiseBy c w s)
    | .error (.departed f) => .fault f

/-- A command whose word or operand count the decoder rejects raises ILLEGAL_COMMAND with its word as information, before any
operand is examined (R302, R108). -/
def illegalCommand (w : CmdWord) (s : State) : StepOutcome :=
  transact w s (.error (.raise .illegalCommand))

/-- The overrun signal: DEADLINE_OVERRUN with `INFO = 0` (R306), ignored while halted (R311). It is no transaction and gets no
answer. -/
def deadlineOverrun (s : State) : State :=
  if s.halted then s else faultEntry .deadlineOverrun 0 s

/-- The state after a reset whose checks pass (R70): all state of the block is replaced. The parameters, the events to come and the
model's counter are not state of the block (log 9). -/
def afterReset (c : Config.Record) (s : State) : State where
  par := s.par
  status := 0
  wt := s.par.sineTable
  osc := oscAtReset s.par.num c
  maf := mafAtReset s.par.num s.par.capacity c
  pidFast := pidAtReset s.par.num c.pidFast
  pidSlow := pidAtReset s.par.num c.pidSlow
  loop := loopAtReset s.par.num c
  pending := s.pending
  answer := none
  free := s.free

/-- The state after a reset whose check `k` is the first to fail (R343): halted with CONFIG_ERROR and `INFO = k`. The rest of the
state is unspecified: free values (log 8), in arrays of the fixed sizes. -/
def afterFailedReset (k : Nat) (s : State) : State where
  par := s.par
  status := statusWord .configError (BitVec.ofNat 16 k)
  wt := (List.range Config.L).map (Config.freeTableEntry s.free)
  osc := Config.freeOsc s.free
  maf := { Config.freeMaf s.free with buf := (List.range s.par.capacity).map (Config.freeBufEntry s.free) }
  pidFast := Config.freePidFast s.free
  pidSlow := Config.freePidSlow s.free
  loop := Config.freeLoop s.free
  pending := s.pending
  answer := none
  free := s.free + 1

/-- Reset with a configuration record, the only way out of a halt (R311, R340, R343, R344). -/
def applyReset (c : Config.Record) (s : State) : State :=
  match firstFailedCheck s.par c with
  | none => afterReset c s
  | some k => afterFailedReset k s

end Sys2Proof.Machine
end

