-- ==== Sys2Proof/Machine/MovingAverage.lean ====
section
/-! DEFINITION. The MovingAverageFilter family (spec/42_moving_average.md). -/

namespace Sys2Proof.Machine

open Sys2Proof

/-- The window length `round(fs / fc)` (R190). -/
def windowOf (fmt : NumFormat) (fs fc : Value) : Int := (Value.div fmt fs fc).round

/-- The filter update primitive `maf_update(x)` (R190): the updated filter and the average. -/
def mafUpdate (fmt : NumFormat) (capacity : Nat) (m : Maf) (x : Value) : Except Stop (Maf × Value) := do
  let old ← memRead m.buf m.cur
  let s1 := Value.sub fmt m.sum old
  let s2 := Value.add fmt s1 x
  let n := windowOf fmt m.fs m.fc
  if 1 ≤ n ∧ n ≤ capacity then
    let c := (m.cur + 1) % n.toNat
    let y := Value.div fmt s2 (toNum fmt n)
    require (s2.isFinite && y.isFinite) .numericFault
    let buf ← memWrite m.buf m.cur x
    return ({ m with buf := buf, sum := s2, N := n.toNat, cur := c }, y)
  else
    throw (.departed .windowOutOfRange)

/-- MAF_UPDATE (R192). -/
def execMafUpdate (x : Value) (s : State) : StepOutcome :=
  transact (Instr.mafUpdate x).word s do
    requireFinite x
    let (m, y) ← mafUpdate s.par.num s.par.capacity s.maf x
    return done1 { s with maf := m } y

/-- MAF_SET_CUTOFF (R193). -/
def execMafSetCutoff (fc : Value) (s : State) : StepOutcome :=
  transact (Instr.mafSetCutoff fc).word s do
    requireFinite fc
    require (positive fc) .configError
    require (roundsWithin (Value.div s.par.num s.maf.fs fc) 1 s.par.capacity) .configError
    return done0 { s with maf := { s.maf with fc := fc } }

end Sys2Proof.Machine
end

