-- ==== Sys2Proof/Machine/WaveTable.lean ====
section
/-! DEFINITION. The WaveTable family (spec/40_wavetable.md). -/

namespace Sys2Proof.Machine

open Sys2Proof

/-- The interpolation formula `a + (f * (b - a))` (R141). -/
def slope (fmt : NumFormat) (a b f : Value) : Value :=
  Value.add fmt a (Value.mul fmt f (Value.sub fmt b a))

/-- The interpolation primitive `interp(x)` (R141). -/
def interp (fmt : NumFormat) (wt : List Value) (x : Value) : Except Stop Value := do
  if x.lt (.fin 0) then
    return .fin 0
  else if x.lt (toNum fmt (Config.L - 1)) then
    let i0 := x.floor
    let f := Value.sub fmt x (toNum fmt i0)
    let a ← memRead wt i0
    let b ← memRead wt (i0 + 1)
    return slope fmt a b f
  else
    let f := Value.sub fmt x (toNum fmt (Config.L - 1))
    let a ← memRead wt (Config.L - 1)
    let b ← memRead wt 0
    return slope fmt a b f

/-- WT_INTERP (R142). -/
def execWtInterp (x : Value) (s : State) : StepOutcome :=
  transact (Instr.wtInterp x).word s do
    requireFinite x
    let v ← interp s.par.num s.wt x
    requireFinite v
    return done1 s v

end Sys2Proof.Machine
end

