-- ==== Sys2Proof/Machine/Oscillator.lean ====
section
/-! DEFINITION. The Oscillator family (spec/41_oscillator.md). -/

namespace Sys2Proof.Machine

open Sys2Proof

/-- The fold of an accumulator into `0..2^W - 1`, in the closed form of R163: with `M = 2^W - 1`, subtract `M` while above `M`, add
`M` while negative. -/
def fold (W : Nat) (x : Int) : Int :=
  let M : Int := (2 ^ W : Nat) - 1
  if M < x then (x - 1) % M + 1
  else if x < 0 then x % M
  else x

/-- The table position of an accumulator (R164): the real quotient `toNUM(acc) / toNUM(2^(W - G))`. -/
def tablePosition (fmt : NumFormat) (W G : Nat) (acc : Int) : Value :=
  Value.div fmt (toNum fmt acc) (toNum fmt (2 ^ (W - G) : Nat))

/-- The shifted accumulator and the observed phase offset after one advance (R162). -/
def shiftedStep (o : Osc) : Int × Value :=
  if !(o.phaseCfg.eq o.phaseSeen) then (fold o.W (o.accS + (o.fw + o.detune)), o.phaseCfg)
  else (fold o.W (o.accS + o.fw), o.phaseSeen)

/-- The oscillator after one advance, without its outputs (R161, R162). -/
def oscStepped (o : Osc) : Osc :=
  { o with
    accP := fold o.W (o.accP + o.fw)
    accS := (shiftedStep o).1
    phaseSeen := (shiftedStep o).2 }

/-- The outputs for the new accumulators (R165): both 0 while disabled, the offset not added. -/
def oscOutputs (fmt : NumFormat) (wt : List Value) (o : Osc) (ap as : Int) : Except Stop (Value × Value) := do
  if o.en then
    let yp ← interp fmt wt (tablePosition fmt o.W o.G ap)
    let y ← interp fmt wt (tablePosition fmt o.W o.G as)
    return (yp, Value.add fmt (Value.mul fmt y o.amp) o.off)
  else
    return (.fin 0, .fin 0)

/-- The primitive `osc_advance()` (R166): the advanced oscillator and the outputs `(primary, shifted)`. -/
def oscAdvance (fmt : NumFormat) (wt : List Value) (o : Osc) : Except Stop (Osc × Value × Value) := do
  if 1 ≤ o.G ∧ o.G ≤ o.W then
    let o' := oscStepped o
    let (yp, ys) ← oscOutputs fmt wt o o'.accP o'.accS
    require (yp.isFinite && ys.isFinite) .numericFault
    return (o', yp, ys)
  else
    throw (.departed .widthsOutOfRange)

/-- OSC_ADVANCE (R166). -/
def execOscAdvance (s : State) : StepOutcome :=
  transact Instr.oscAdvance.word s do
    let (o, yp, ys) ← oscAdvance s.par.num s.wt s.osc
    return done2 { s with osc := o } yp ys

/-- OSC_SET_ENABLE (R167). -/
def execOscSetEnable (en : Bool) (s : State) : StepOutcome :=
  transact (Instr.oscSetEnable en).word s
    (.ok (done0 { s with osc := { s.osc with en := en } }))

/-- OSC_SET_PHASE (R168). -/
def execOscSetPhase (phi : Value) (s : State) : StepOutcome :=
  transact (Instr.oscSetPhase phi).word s do
    requireFinite phi
    match detuneOf s.par.num phi s.osc.phaseSeen s.osc.W with
    | none => throw (.raise .numericFault)
    | some step => return done0 { s with osc := { s.osc with phaseCfg := phi, detune := step } }

end Sys2Proof.Machine
end

