-- ==== Sys2Proof/Machine/LockIn.lean ====
section
/-! DEFINITION. The LockInAmplifier family (spec/43_lockin.md). The amplifier has no state of its own (R48). -/

namespace Sys2Proof.Machine

open Sys2Proof

/-- The primitive `lia_demod(e)` (R211): the advanced oscillator, the updated filter and the demodulated value. The primary output
is computed and dropped. -/
def liaDemod (par : Config.Params) (wt : List Value) (o : Osc) (m : Maf) (e : Value) :
    Except Stop (Osc × Maf × Value) := do
  requireFinite e
  let (o', _, ys) ← oscAdvance par.num wt o
  let prod := Value.mul par.num e ys
  requireFinite prod
  let (m', y) ← mafUpdate par.num par.capacity m prod
  return (o', m', y)

/-- LIA_DEMOD (R211). -/
def execLiaDemod (e : Value) (s : State) : StepOutcome :=
  transact (Instr.liaDemod e).word s do
    let (o, m, y) ← liaDemod s.par s.wt s.osc s.maf e
    return done1 { s with osc := o, maf := m } y

end Sys2Proof.Machine
end

