-- ==== Sys2Proof/Machine/Pid.lean ====
section
/-! DEFINITION. The PIDController family (spec/44_pid.md). -/

namespace Sys2Proof.Machine

open Sys2Proof

/-! ## Run -/

/-- The anti-windup strategies (R222, R223): the integrator after adding the increment, or kept. `sat` is the saturation recorded by
the previous run. -/
def antiWindup (fmt : NumFormat) (aw : AntiWindup) (I inc sat : Value) : Value :=
  match aw with
  | .none => Value.add fmt I inc
  | .conditional =>
    if sat.eq (.fin 0) || (Value.mul fmt I inc).le (.fin 0) then Value.add fmt I inc else I

/-- The increment of step 1: `(i_coef * e) + (prev_i_coef * prev_error)` (R224). -/
def increment (fmt : NumFormat) (C : CoefSet) (D : DelaySet) (e : Value) : Value :=
  Value.add fmt (Value.mul fmt C.ic e) (Value.mul fmt D.pic D.perr)

/-- The integrator of step 1 (R224). -/
def nextIntegrator (fmt : NumFormat) (P : Pid) (e : Value) : Value :=
  antiWindup fmt P.aw P.activeDly.integ (increment fmt P.activeCoef P.activeDly e) P.activeDly.psat

/-- The unclamped output of step 3: `K * (((pc * e) + I) + (dc * (e - perr)))`, with the old previous error (R224). -/
def rawOutput (fmt : NumFormat) (P : Pid) (I e : Value) : Value :=
  Value.mul fmt P.K
    (Value.add fmt (Value.add fmt (Value.mul fmt P.activeCoef.pc e) I)
      (Value.mul fmt P.activeCoef.dc (Value.sub fmt e P.activeDly.perr)))

/-- The primitive `pid_run(s, e)` on the selected controller (R224). The active delay set is updated in place. -/
def pidRun (fmt : NumFormat) (P : Pid) (e : Value) : Except Stop (Pid × Value) := do
  requireFinite e
  if P.frozen then
    return (P, P.cv)
  else
    let I := nextIntegrator fmt P e
    let raw := rawOutput fmt P I e
    let cv := clamp raw P.min P.max
    let sat := Value.sub fmt cv raw
    require (I.isFinite && cv.isFinite && sat.isFinite) .numericFault
    return ({ P with
              dly := P.dly.set P.ad { integ := I, perr := e, psat := sat, pic := P.activeCoef.ic }
              cv := cv }, cv)

/-- PID_RUN (R224). -/
def execPidRun (sel : Sel) (e : Value) (s : State) : StepOutcome :=
  transact (Instr.pidRun sel e).word s do
    let (P, v) ← pidRun s.par.num (s.pid sel) e
    return done1 (s.setPid sel P) v

/-! ## State machine -/

/-- The events of the state machine (R228). -/
inductive PidEvent where
  | enable
  | disable
  | hold
  | reset
  deriving DecidableEq, Repr, Inhabited

/-- The delay reset (R229): zero the shadow delay set and make it active. -/
def resetDelay (P : Pid) : Pid :=
  { P with dly := P.dly.set (shadow P.ad) zeroDelay, ad := shadow P.ad }

/-- The transition function (R228): the seven listed pairs have the table's effect, the six others change nothing (R234). -/
def pidEvent (ev : PidEvent) (P : Pid) : Pid :=
  match P.fsm, ev with
  | .idle, .enable => { P with fsm := .running, frozen := false }
  | .idle, .disable => P
  | .idle, .hold => P
  | .idle, .reset => P
  | .running, .enable => P
  | .running, .disable => resetDelay { P with fsm := .idle, frozen := true }
  | .running, .hold => { P with fsm := .hold, frozen := true }
  | .running, .reset => resetDelay P
  | .hold, .enable => { P with fsm := .running, frozen := false }
  | .hold, .disable => resetDelay { P with fsm := .idle, frozen := true }
  | .hold, .hold => P
  | .hold, .reset => P

/-- PID_ENABLE (R230). -/
def execPidEnable (sel : Sel) (s : State) : StepOutcome :=
  transact (Instr.pidEnable sel).word s (.ok (done0 (s.setPid sel (pidEvent .enable (s.pid sel)))))

/-- PID_DISABLE (R231). -/
def execPidDisable (sel : Sel) (s : State) : StepOutcome :=
  transact (Instr.pidDisable sel).word s (.ok (done0 (s.setPid sel (pidEvent .disable (s.pid sel)))))

/-- PID_HOLD (R232). -/
def execPidHold (sel : Sel) (s : State) : StepOutcome :=
  transact (Instr.pidHold sel).word s (.ok (done0 (s.setPid sel (pidEvent .hold (s.pid sel)))))

/-- PID_RESET (R233). -/
def execPidReset (sel : Sel) (s : State) : StepOutcome :=
  transact (Instr.pidReset sel).word s (.ok (done0 (s.setPid sel (pidEvent .reset (s.pid sel)))))

/-! ## Status -/

/-- PID_IS_LIMITED (R236). -/
def execPidIsLimited (sel : Sel) (s : State) : StepOutcome :=
  transact (Instr.pidIsLimited sel).word s (.ok ⟨s, some (.bool (s.pid sel).limited), none⟩)

/-! ## Coefficient updates -/

/-- `recompute_coef` (R238): the shadow coefficient set is written whole and made active. -/
def recomputeCoef (fmt : NumFormat) (P : Pid) (p i d Ts : Value) : Except Stop Pid := do
  let c := coefs fmt p i d Ts
  require c.finite .numericFault
  return { P with coef := P.coef.set (shadow P.ac) c, ac := shadow P.ac }

/-- PID_SET_P (R240). -/
def execPidSetP (sel : Sel) (p : Value) (s : State) : StepOutcome :=
  transact (Instr.pidSetP sel p).word s do
    requireFinite p
    let P ← recomputeCoef s.par.num (s.pid sel) p (s.pid sel).i (s.pid sel).d (s.pid sel).Ts
    return done0 (s.setPid sel { P with p := p })

/-- PID_SET_I (R241). -/
def execPidSetI (sel : Sel) (i : Value) (s : State) : StepOutcome :=
  transact (Instr.pidSetI sel i).word s do
    requireFinite i
    let P ← recomputeCoef s.par.num (s.pid sel) (s.pid sel).p i (s.pid sel).d (s.pid sel).Ts
    return done0 (s.setPid sel { P with i := i })

/-- PID_SET_D (R242). -/
def execPidSetD (sel : Sel) (d : Value) (s : State) : StepOutcome :=
  transact (Instr.pidSetD sel d).word s do
    requireFinite d
    let P ← recomputeCoef s.par.num (s.pid sel) (s.pid sel).p (s.pid sel).i d (s.pid sel).Ts
    return done0 (s.setPid sel { P with d := d })

/-- PID_SET_GAINS (R243): one recomputation and one swap for the three gains. The operands are checked in their order (R308). -/
def execPidSetGains (sel : Sel) (p i d : Value) (s : State) : StepOutcome :=
  transact (Instr.pidSetGains sel p i d).word s do
    requireFinite p
    requireFinite i
    requireFinite d
    let P ← recomputeCoef s.par.num (s.pid sel) p i d (s.pid sel).Ts
    return done0 (s.setPid sel { P with p := p, i := i, d := d })

/-- PID_SET_TS (R244). -/
def execPidSetTs (sel : Sel) (ts : Value) (s : State) : StepOutcome :=
  transact (Instr.pidSetTs sel ts).word s do
    requireFinite ts
    require (positive ts) .configError
    let P ← recomputeCoef s.par.num (s.pid sel) (s.pid sel).p (s.pid sel).i (s.pid sel).d ts
    return done0 (s.setPid sel { P with Ts := ts })

end Sys2Proof.Machine
end

