-- ==== Sys2Proof/Machine/ControlLoop.lean ====
section
/-! DEFINITION. The ControlLoop family (spec/45_control_loop.md). -/

namespace Sys2Proof.Machine

open Sys2Proof

/-- The tick counter after a tick that runs the slow controller: `t`, incremented a second time when CL_DOUBLE_INCREMENT is true
(R271, R11). -/
def tickAfterRun (double : Bool) (t : Nat) : Nat := if double then t + 1 else t

/-- CL_STEP (R271). The demodulated value is computed for its effects on the oscillator and the filter and dropped (R273). -/
def execClStep (e : Value) (s : State) : StepOutcome :=
  transact (Instr.clStep e).word s do
    requireFinite e
    let t := s.loop.tick + 1
    let (o, m, _) ← liaDemod s.par s.wt s.osc s.maf e
    let (pf, fast) ← pidRun s.par.num s.pidFast e
    if t < s.loop.countlim then
      let (ps, slow) ← pidRun s.par.num s.pidSlow e
      return done2
        { s with
          osc := o, maf := m, pidFast := pf, pidSlow := ps
          loop := { s.loop with tick := tickAfterRun s.par.doubleIncrement t, slowLast := slow } }
        slow fast
    else
      return done2
        { s with osc := o, maf := m, pidFast := pf, loop := { s.loop with tick := 0 } }
        s.loop.slowLast fast

end Sys2Proof.Machine
end

