-- ==== Sys2Proof/Machine/System.lean ====
section
/-! DEFINITION. The system command (spec/46_system.md). -/

namespace Sys2Proof.Machine

open Sys2Proof

/-- NOP (R290). -/
def execNop (s : State) : StepOutcome := transact Instr.nop.word s (.ok (done0 s))

end Sys2Proof.Machine
end

