-- ==== Sys2Proof/Machine/Dispatch.lean ====
section
/-! DEFINITION. One arm per instruction. -/

namespace Sys2Proof.Machine

open Sys2Proof

def exec (i : Instr) (s : State) : Host.Outcome State Fault Refusal :=
  match i with
  | .nop => Sys2Proof.Machine.execNop s
  | .wtInterp x => Sys2Proof.Machine.execWtInterp x s
  | .oscAdvance => Sys2Proof.Machine.execOscAdvance s
  | .oscSetEnable en => Sys2Proof.Machine.execOscSetEnable en s
  | .oscSetPhase phi => Sys2Proof.Machine.execOscSetPhase phi s
  | .mafUpdate x => Sys2Proof.Machine.execMafUpdate x s
  | .mafSetCutoff fc => Sys2Proof.Machine.execMafSetCutoff fc s
  | .liaDemod e => Sys2Proof.Machine.execLiaDemod e s
  | .pidRun sel e => Sys2Proof.Machine.execPidRun sel e s
  | .pidEnable sel => Sys2Proof.Machine.execPidEnable sel s
  | .pidDisable sel => Sys2Proof.Machine.execPidDisable sel s
  | .pidHold sel => Sys2Proof.Machine.execPidHold sel s
  | .pidReset sel => Sys2Proof.Machine.execPidReset sel s
  | .pidIsLimited sel => Sys2Proof.Machine.execPidIsLimited sel s
  | .pidSetP sel p => Sys2Proof.Machine.execPidSetP sel p s
  | .pidSetI sel gi => Sys2Proof.Machine.execPidSetI sel gi s
  | .pidSetD sel d => Sys2Proof.Machine.execPidSetD sel d s
  | .pidSetGains sel gp gi gd => Sys2Proof.Machine.execPidSetGains sel gp gi gd s
  | .pidSetTs sel ts => Sys2Proof.Machine.execPidSetTs sel ts s
  | .clStep e => Sys2Proof.Machine.execClStep e s

end Sys2Proof.Machine
end

