-- ==== Sys2Proof/WellFormed.lean ====
section
/-! DEFINITION. Well-formed inputs: every operand slot, every field of a record and every entry of the table holds a value of the
machine's NUM (spec/10_state.md R32, spec/30_encoding.md R104: each operand is one whole NUM value, taken as it is, with no
conversion; spec/00_scope.md R10). -/

namespace Sys2Proof

/-- Every operand is a value of the number format. -/
def Instr.wellFormed (fmt : NumFormat) (i : Instr) : Bool := i.operands.all (isOf fmt)

/-- Every NUM field of one controller's record is a value of the number format. -/
def Config.PidRecord.wellFormed (fmt : NumFormat) (r : Config.PidRecord) : Bool :=
  [r.Ts, r.p, r.i, r.d, r.gain, r.min, r.max].all (isOf fmt)

/-- Every NUM field of a configuration record is a value of the number format. Whether the values are legal is a matter of
the checks of reset (R342), not of this predicate. -/
def Config.Record.wellFormed (fmt : NumFormat) (c : Config.Record) : Bool :=
  [c.oscAmplitude, c.oscOffset, c.oscFreq, c.oscPhase, c.oscClock, c.loopRate, c.mafCutoff, c.slowRate].all (isOf fmt)
    && c.pidFast.wellFormed fmt && c.pidSlow.wellFormed fmt

/-- Every entry of the parameter SINE_TABLE is a value of the number format (R10). -/
def Config.Params.wellFormed (p : Config.Params) : Bool := p.sineTable.all (isOf p.num)

end Sys2Proof
end

