-- ==== Sys2Proof/Machine/Step.lean ====
section
/-! DEFINITION. One step: the next port event, in the order the outside world gives them (spec/20_memory.md R86, R87). -/

namespace Sys2Proof.Machine

open Sys2Proof

/-- A command transaction. The decoder rejects a malformed one (R302). A halted block answers HALTED without looking at the operands
(R312). Otherwise the operands must be values of NUM, as every operand slot's contents are (R32), and the command runs. -/
def issue (w : CmdWord) (ops : List Value) (s : State) : StepOutcome :=
  match decode w ops with
  | .error _ => illegalCommand w s
  | .ok i => if s.halted || i.wellFormed s.par.num then exec i s else .refused .operandNotOfNum

/-- Reset by the platform. The table and the record hold values of NUM (R10, R33). -/
def platformReset (c : Config.Record) (s : State) : StepOutcome :=
  if s.par.wellFormed = false then .refused .tableNotOfNum
  else if c.wellFormed s.par.num then .next (applyReset c s)
  else .refused .recordNotOfNum

/-- One step of the block: take the first pending port event and respond to it. With nothing pending the block waits (R340): nothing
changes, and the answer of the transaction before is gone (R32). -/
def step (s : State) : Host.Outcome State Fault Refusal :=
  match s.pending with
  | [] => .next { s with answer := none }
  | .command _ w ops :: rest => issue w ops { s with pending := rest }
  | .overrun :: rest => .next (deadlineOverrun { s with pending := rest, answer := none })
  | .reset c :: rest => platformReset c { s with pending := rest }

/-- `s` with the command of table word `w` as its next port event, issued by the tick agent with operands of zeros. A program comes to
run by the agents issuing its commands (R31); this stands for one such issue (log 11). -/
def State.withFetchWord (s : State) (nbits w : Nat) : State :=
  { s with
    pending :=
      .command .tick (BitVec.ofNat 16 (w % 2 ^ nbits)) (zeroOperands (BitVec.ofNat 16 (w % 2 ^ nbits))) :: s.pending }

end Sys2Proof.Machine
end

