-- ==== Sys2Proof/Safety.lean ====
section
/-! DEFINITION. What counts as a good state and a safe step, in the terms the statements use. -/

namespace Sys2Proof.Safety

open Sys2Proof Sys2Proof.Machine

/-! ## The ranges that every command keeps -/

/-- R12, R34 and the invariant of R41: legal widths, a frequency word in range, both accumulators in `0..2^W - 1`. -/
def OscInRange (o : Osc) : Prop :=
  1 ≤ o.G ∧ o.G ≤ o.W ∧ o.W ≤ 64 ∧ 2 ^ o.G ≤ Config.L ∧
  0 ≤ o.fw ∧ o.fw ≤ (2 ^ o.W : Nat) - 1 ∧
  0 ≤ o.accP ∧ o.accP ≤ (2 ^ o.W : Nat) - 1 ∧
  0 ≤ o.accS ∧ o.accS ≤ (2 ^ o.W : Nat) - 1

/-- The invariant of R45 with what R34 requires of the filter's registers: the buffer has its capacity, the cursor and the window
length are in range, and the next window length will be. -/
def MafInRange (fmt : NumFormat) (capacity : Nat) (m : Maf) : Prop :=
  m.buf.length = capacity ∧ m.cur < capacity ∧ 1 ≤ m.N ∧ m.N ≤ capacity ∧
  positive m.fs = true ∧ positive m.fc = true ∧ roundsWithin (Value.div fmt m.fs m.fc) 1 capacity = true

/-- R51 and R52, with the limits in order and a positive sampling interval (R34). -/
def PidInRange (P : Pid) : Prop :=
  (P.frozen = true ↔ P.fsm ≠ .running) ∧
  P.min.le P.max = true ∧ P.min.le P.cv = true ∧ P.cv.le P.max = true ∧ positive P.Ts = true

/-- The invariant of R56: `tick <= countlim`, and `countlim >= 1` (R34). -/
def LoopInRange (l : Loop) : Prop := 1 ≤ l.countlim ∧ l.tick ≤ l.countlim

/-- Every component is in range, and WT is the parameter's table, of `L` entries (R40). -/
def BlockInRange (s : State) : Prop :=
  s.wt = s.par.sineTable ∧ s.wt.length = Config.L ∧ OscInRange s.osc ∧
  MafInRange s.par.num s.par.capacity s.maf ∧ PidInRange s.pidFast ∧ PidInRange s.pidSlow ∧ LoopInRange s.loop

/-- The invariant: the block is halted (after a failed reset the rest of its state is unspecified, R343, and while halted no command
runs, R312), or every component is in range. -/
def Inv (s : State) : Prop := s.halted = true ∨ BlockInRange s

/-! ## The values that every command keeps finite -/

/-- A finite value of NUM. -/
def Good (fmt : NumFormat) (x : Value) : Prop := isOf fmt x = true ∧ x.isFinite = true

def GoodCoef (fmt : NumFormat) (c : CoefSet) : Prop := Good fmt c.pc ∧ Good fmt c.ic ∧ Good fmt c.dc

def GoodDly (fmt : NumFormat) (d : DelaySet) : Prop :=
  Good fmt d.integ ∧ Good fmt d.perr ∧ Good fmt d.psat ∧ Good fmt d.pic

/-- Every value of a controller is a finite value of NUM, but for its limits: `min` may be `-inf` and `max` may be `+inf` (R34). -/
def GoodPid (fmt : NumFormat) (P : Pid) : Prop :=
  Good fmt P.Ts ∧ Good fmt P.p ∧ Good fmt P.i ∧ Good fmt P.d ∧ Good fmt P.K ∧
  isOf fmt P.min = true ∧ (P.min.isFinite = true ∨ P.min = .inf true) ∧
  isOf fmt P.max = true ∧ (P.max.isFinite = true ∨ P.max = .inf false) ∧
  GoodCoef fmt P.coef.zero ∧ GoodCoef fmt P.coef.one ∧ GoodDly fmt P.dly.zero ∧ GoodDly fmt P.dly.one ∧ Good fmt P.cv

/-- Every value the block stores is a finite value of NUM (R34, R305). -/
def ValuesGood (s : State) : Prop :=
  (∀ v ∈ s.wt, Good s.par.num v) ∧
  (Good s.par.num s.osc.amp ∧ Good s.par.num s.osc.off ∧ Good s.par.num s.osc.phaseCfg ∧ Good s.par.num s.osc.phaseSeen) ∧
  ((∀ v ∈ s.maf.buf, Good s.par.num v) ∧ Good s.par.num s.maf.sum ∧ Good s.par.num s.maf.fc ∧ Good s.par.num s.maf.fs) ∧
  GoodPid s.par.num s.pidFast ∧ GoodPid s.par.num s.pidSlow ∧ Good s.par.num s.loop.slowLast

/-- The invariant of the values, for a table whose entries are values of NUM. -/
def ValuesInv (s : State) : Prop :=
  (∀ v ∈ s.par.sineTable, isOf s.par.num v = true) ∧ (s.halted = true ∨ ValuesGood s)

/-! ## The running sum -/

/-- Under Exact the running sum is the sum of all entries of BUF, as real numbers (R45, R191). -/
def SumIsSumOfBuffer (s : State) : Prop :=
  s.halted = true ∨
    ((∀ v ∈ s.maf.buf, isOf .exact v = true) ∧ isOf .exact s.maf.sum = true ∧
      s.maf.sum.real = (s.maf.buf.map Value.real).sum)

/-! ## STATUS -/

/-- STATUS as only reset and a fault write it (R66): 0, or HALTED with a cause of 1 to 4 and INFO. -/
def StatusLegal (s : State) : Prop :=
  s.status = 0 ∨ ∃ (c : Cause) (info : BitVec 16), c ≠ .none ∧ s.status = statusWord c info

/-! ## Safe steps -/

/-- The step does not stop with one of the model's faults: the state has not departed from the spec's rules. -/
def StepSafe (s : State) : Prop := ∀ f, step s ≠ .fault f

end Sys2Proof.Safety
end

