-- ==== Sys2Proof/Certificates/Slice0/Obligations.lean ====
section
/-! DEFINITION. The statements for the provers, each a numbered rule of spec/ or a consequence of such rules. -/

open Sys2Proof Sys2Proof.Machine

namespace Sys2Proof.Claims

/-! ## Vocabulary of the statements -/

/-- The answer OK without results. -/
def ok0 : Option Answer := some ⟨.ok, none, none⟩

/-- The answer OK with one number. -/
def ok1 (v : Value) : Option Answer := some ⟨.ok, some (.num v), none⟩

/-- The answer OK with two numbers. -/
def ok2 (v w : Value) : Option Answer := some ⟨.ok, some (.num v), some (.num w)⟩

/-- The answer HALTED. -/
def haltedAnswer : Option Answer := some ⟨.halted, none, none⟩

/-- The state after a fault of the command with word `w`: the state before it, but for STATUS and the answer HALTED (R303). -/
def faulted (c : Cause) (w : CmdWord) (s : State) : State :=
  { s with status := statusWord c w, answer := haltedAnswer }

/-- The reserved opcodes, as R107 (b) lists them. -/
def ReservedOpcode (c : Nat) : Prop :=
  (0x02 ≤ c ∧ c ≤ 0x0F) ∨ (0x13 ≤ c ∧ c ≤ 0x1F) ∨ (0x22 ≤ c ∧ c ≤ 0x2F) ∨ (0x31 ≤ c ∧ c ≤ 0x3F) ∨
    (0x46 ≤ c ∧ c ≤ 0x47) ∨ (0x4D ≤ c ∧ c ≤ 0x4F) ∨ (0x51 ≤ c ∧ c ≤ 0xFF)

/-- The format-P opcodes (R105). -/
def PlainOpcode (c : Nat) : Prop := c ∈ [0x00, 0x01, 0x10, 0x12, 0x20, 0x21, 0x30, 0x50]

/-- The number of operands of an opcode (R105). -/
def operandCount (c : Nat) : Nat :=
  if c ∈ [0x00, 0x10, 0x11, 0x41, 0x42, 0x43, 0x44, 0x45] then 0 else if c = 0x4B then 3 else 1

/-- A malformed transaction: an illegal word (R107) or a wrong number of operands (R108). -/
def Malformed (w : CmdWord) (ops : List Value) : Prop :=
  w.extractLsb' 9 7 ≠ 0 ∨ ReservedOpcode (w.extractLsb' 0 8).toNat ∨
    (PlainOpcode (w.extractLsb' 0 8).toNat ∧ w.getLsbD 8 = true) ∨
    ops.length ≠ operandCount (w.extractLsb' 0 8).toNat

/-- The sixteen checks of reset as R342's table words them. -/
def ResetCheckHolds (par : Config.Params) (c : Config.Record) (k : Nat) : Prop :=
  let div := Value.div par.num
  let fin := fun v : Value => v.isFinite = true
  let good := fun p : Config.PidRecord =>
    fin p.Ts ∧ fin p.p ∧ fin p.i ∧ fin p.d ∧ fin p.gain ∧ (fin p.min ∨ p.min = .inf true) ∧ (fin p.max ∨ p.max = .inf false)
  let pos := fun v : Value => (Value.fin 0).lt v = true
  match k with
  | 1 => par.sineTable.length = 1024 ∧ ∀ v ∈ par.sineTable, fin v
  | 2 =>
    fin c.oscAmplitude ∧ fin c.oscOffset ∧ fin c.oscFreq ∧ fin c.oscPhase ∧ fin c.oscClock ∧ fin c.loopRate ∧
      fin c.mafCutoff ∧ fin c.slowRate ∧ good c.pidFast ∧ good c.pidSlow
  | 3 => 1 ≤ c.oscG ∧ c.oscG ≤ c.oscW ∧ c.oscW ≤ 64
  | 4 => 2 ^ c.oscG ≤ 1024
  | 5 => pos c.oscClock
  | 6 =>
    let q := div c.oscFreq (div c.oscClock (toNum par.num (2 ^ c.oscW : Nat)))
    fin q ∧ 0 ≤ q.round ∧ q.round ≤ (2 ^ c.oscW : Nat) - 1
  | 7 =>
    match par.num with
    | .exact => True
    | .ieee f =>
      fin (div (Value.mul par.num (Value.sub par.num c.oscPhase (.fin 0)) (toNum par.num (2 ^ c.oscW : Nat)))
        (div (piIeee f) (toNum par.num 2)))
  | 8 => pos c.loopRate
  | 9 =>
    let q := div c.loopRate c.mafCutoff
    pos c.mafCutoff ∧ fin q ∧ 1 ≤ q.round ∧ q.round ≤ par.capacity
  | 10 => pos c.pidFast.Ts
  | 11 => c.pidFast.min.le c.pidFast.max = true
  | 12 =>
    fin (div (Value.mul par.num c.pidFast.i c.pidFast.Ts) (toNum par.num 2)) ∧ fin (div c.pidFast.d c.pidFast.Ts)
  | 13 => pos c.pidSlow.Ts
  | 14 => c.pidSlow.min.le c.pidSlow.max = true
  | 15 =>
    fin (div (Value.mul par.num c.pidSlow.i c.pidSlow.Ts) (toNum par.num 2)) ∧ fin (div c.pidSlow.d c.pidSlow.Ts)
  | 16 =>
    let q := div c.loopRate c.slowRate
    pos c.slowRate ∧ fin q ∧ 1 ≤ q.round
  | _ => True

/-- `n` is the detuning step of R168: `round(((phi - seen) * toNUM(2^W)) / (pi / 2))`. Under Exact, where pi is the real pi (R19), no
integer is nearer to the quotient, and none is as near: no quotient lies halfway, since pi is transcendental. -/
def DetuneIs (fmt : NumFormat) (phi seen : Value) (W : Nat) (n : Int) : Prop :=
  match fmt with
  | .exact => |(n : Real) - (phi.real - seen.real) * 2 ^ W / (Real.pi / 2)| ≤ 1 / 2
  | .ieee f =>
    n = (Value.div fmt (Value.mul fmt (Value.sub fmt phi seen) (toNum fmt (2 ^ W : Nat)))
      (Value.div fmt (piIeee f) (toNum fmt 2))).round

/-- What R53 says of a controller after reset. -/
def PidResetTo (fmt : NumFormat) (r : Config.PidRecord) (P : Pid) : Prop :=
  P.Ts = r.Ts ∧ P.p = r.p ∧ P.i = r.i ∧ P.d = r.d ∧ P.K = r.gain ∧ P.min = r.min ∧ P.max = r.max ∧ P.aw = r.aw ∧
  P.coef.zero = ⟨r.p, Value.div fmt (Value.mul fmt r.i r.Ts) (toNum fmt 2), Value.div fmt r.d r.Ts⟩ ∧
  P.coef.one = P.coef.zero ∧ P.ac = 0 ∧
  P.dly.zero = ⟨.fin 0, .fin 0, .fin 0, .fin 0⟩ ∧ P.dly.one = P.dly.zero ∧ P.ad = 1 ∧
  P.fsm = .idle ∧ P.frozen = true ∧
  P.cv = (if (Value.fin 0).lt r.min then r.min else if r.max.lt (.fin 0) then r.max else .fin 0)

/-- `interp(x) = v` as R141 writes it. -/
def InterpIs (fmt : NumFormat) (wt : List Value) (x v : Value) : Prop :=
  (x.lt (.fin 0) = true ∧ v = .fin 0) ∨
  (x.lt (.fin 0) = false ∧ x.lt (toNum fmt 1023) = true ∧ 0 ≤ x.floor ∧
    ∃ a b, wt[x.floor.toNat]? = some a ∧ wt[x.floor.toNat + 1]? = some b ∧
      v = Value.add fmt a (Value.mul fmt (Value.sub fmt x (toNum fmt x.floor)) (Value.sub fmt b a))) ∨
  (x.lt (.fin 0) = false ∧ x.lt (toNum fmt 1023) = false ∧
    ∃ a b, wt[1023]? = some a ∧ wt[0]? = some b ∧
      v = Value.add fmt a (Value.mul fmt (Value.sub fmt x (toNum fmt 1023)) (Value.sub fmt b a)))

/-- Has the configured phase offset changed since the last advance (R162)? -/
def PhaseChanged (o : Osc) : Prop := o.phaseCfg.eq o.phaseSeen = false

/-- The primary accumulator after an advance (R161). -/
def nextAccP (o : Osc) : Int := fold o.W (o.accP + o.fw)

/-- The shifted accumulator after an advance (R162). -/
def nextAccS (o : Osc) : Int :=
  if o.phaseCfg.eq o.phaseSeen then fold o.W (o.accS + o.fw) else fold o.W (o.accS + (o.fw + o.detune))

/-- The oscillator after an advance (R161, R162). -/
def advanced (o : Osc) : Osc :=
  { o with
    accP := nextAccP o
    accS := nextAccS o
    phaseSeen := if o.phaseCfg.eq o.phaseSeen then o.phaseSeen else o.phaseCfg }

/-- The table position of an accumulator (R164). -/
def position (fmt : NumFormat) (o : Osc) (acc : Int) : Value :=
  Value.div fmt (toNum fmt acc) (toNum fmt (2 ^ (o.W - o.G) : Nat))

/-- The outputs `(yp, ys)` of an advance (R165). -/
def OutputsAre (fmt : NumFormat) (wt : List Value) (o : Osc) (yp ys : Value) : Prop :=
  (o.en = false ∧ yp = .fin 0 ∧ ys = .fin 0) ∨
  (o.en = true ∧ InterpIs fmt wt (position fmt o (nextAccP o)) yp ∧
    ∃ y, InterpIs fmt wt (position fmt o (nextAccS o)) y ∧ ys = Value.add fmt (Value.mul fmt y o.amp) o.off)

/-- The window length of the next update, in its range (R190). -/
def WindowIs (s : State) (n : Nat) : Prop :=
  (Value.div s.par.num s.maf.fs s.maf.fc).round = (n : Int) ∧ 1 ≤ n ∧ n ≤ s.par.capacity

/-- The running sum after feeding `x` (R190). -/
def nextSum (s : State) (old x : Value) : Value :=
  Value.add s.par.num (Value.sub s.par.num s.maf.sum old) x

/-- The filter after feeding `x` with window `n` (R190). -/
def fed (s : State) (old x : Value) (n : Nat) : Maf :=
  { s.maf with buf := s.maf.buf.set s.maf.cur x, sum := nextSum s old x, N := n, cur := (s.maf.cur + 1) % n }

/-- The average that the update returns (R190). -/
def average (s : State) (old x : Value) (n : Nat) : Value := Value.div s.par.num (nextSum s old x) (toNum s.par.num n)

/-- What a demodulation of `e` meets in legal widths: the oscillator's outputs `yp` and `ys`, the oldest entry `old` of BUF, and the window
`n` (R165, R190, R211). -/
def DemodMeets (s : State) (yp ys old : Value) (n : Nat) : Prop :=
  1 ≤ s.osc.G ∧ s.osc.G ≤ s.osc.W ∧ OutputsAre s.par.num s.wt s.osc yp ys ∧ s.maf.buf[s.maf.cur]? = some old ∧ WindowIs s n

/-- The values that a demodulation checks: its operand, the oscillator's outputs, the product, the filter's sum and its average (R211,
R305). -/
def DemodFinite (s : State) (e yp ys old : Value) (n : Nat) : Prop :=
  e.isFinite = true ∧ yp.isFinite = true ∧ ys.isFinite = true ∧ (Value.mul s.par.num e ys).isFinite = true ∧
    (nextSum s old (Value.mul s.par.num e ys)).isFinite = true ∧
    (average s old (Value.mul s.par.num e ys) n).isFinite = true

/-- The integrator of step 1 of a run (R222, R223, R224). -/
def integratorOf (fmt : NumFormat) (P : Pid) (e : Value) : Value :=
  let C := P.coef.get P.ac
  let D := P.dly.get P.ad
  let inc := Value.add fmt (Value.mul fmt C.ic e) (Value.mul fmt D.pic D.perr)
  match P.aw with
  | .none => Value.add fmt D.integ inc
  | .conditional =>
    if D.psat.eq (.fin 0) = true ∨ (Value.mul fmt D.integ inc).le (.fin 0) = true then Value.add fmt D.integ inc else D.integ

/-- The raw output of step 3 of a run (R224). -/
def rawOf (fmt : NumFormat) (P : Pid) (e : Value) : Value :=
  let C := P.coef.get P.ac
  let D := P.dly.get P.ad
  Value.mul fmt P.K
    (Value.add fmt (Value.add fmt (Value.mul fmt C.pc e) (integratorOf fmt P e)) (Value.mul fmt C.dc (Value.sub fmt e D.perr)))

/-- The clamped output of step 5 of a run (R20, R224). -/
def outputOf (fmt : NumFormat) (P : Pid) (e : Value) : Value :=
  if (rawOf fmt P e).lt P.min then P.min else if P.max.lt (rawOf fmt P e) then P.max else rawOf fmt P e

/-- The saturation of step 6 of a run (R224). -/
def saturationOf (fmt : NumFormat) (P : Pid) (e : Value) : Value := Value.sub fmt (outputOf fmt P e) (rawOf fmt P e)

/-- The values that a run checks (R224). -/
def RunFinite (fmt : NumFormat) (P : Pid) (e : Value) : Prop :=
  (integratorOf fmt P e).isFinite = true ∧ (outputOf fmt P e).isFinite = true ∧ (saturationOf fmt P e).isFinite = true

/-- The controller after an unfrozen run (R224). -/
def ran (fmt : NumFormat) (P : Pid) (e : Value) : Pid :=
  { P with
    dly := P.dly.set P.ad
      { integ := integratorOf fmt P e, perr := e, psat := saturationOf fmt P e, pic := (P.coef.get P.ac).ic }
    cv := outputOf fmt P e }

/-- One run of a controller, frozen or not: what it leaves and what it returns. -/
def RunIs (fmt : NumFormat) (P : Pid) (e : Value) (P' : Pid) (v : Value) : Prop :=
  (P.frozen = true ∧ P' = P ∧ v = P.cv) ∨
  (P.frozen = false ∧ RunFinite fmt P e ∧ P' = ran fmt P e ∧ v = outputOf fmt P e)

/-- A run of a controller that meets a value that is not finite (R224, R307). -/
def RunFails (fmt : NumFormat) (P : Pid) (e : Value) : Prop := P.frozen = false ∧ ¬ RunFinite fmt P e

/-- The coefficient set of the raw gains (R221). -/
def coefSet (fmt : NumFormat) (p i d Ts : Value) : CoefSet :=
  ⟨p, Value.div fmt (Value.mul fmt i Ts) (toNum fmt 2), Value.div fmt d Ts⟩

/-- The controller after a recomputation: the shadow set written whole and made active (R238). -/
def swapped (P : Pid) (c : CoefSet) : Pid := { P with coef := P.coef.set (1 - P.ac) c, ac := 1 - P.ac }

/-- The controller after a delay reset: the shadow set zeroed and made active (R229). -/
def delayReset (P : Pid) : Pid :=
  { P with dly := P.dly.set (1 - P.ad) ⟨.fin 0, .fin 0, .fin 0, .fin 0⟩, ad := 1 - P.ad }

/-- The construction registers (R34) and the wave table (R40) are the same. -/
def SameConstruction (s t : State) : Prop :=
  t.wt = s.wt ∧ t.osc.amp = s.osc.amp ∧ t.osc.off = s.osc.off ∧ t.osc.W = s.osc.W ∧ t.osc.G = s.osc.G ∧ t.osc.fw = s.osc.fw ∧
  t.maf.fs = s.maf.fs ∧ t.loop.countlim = s.loop.countlim ∧
  ∀ sel, (t.pid sel).K = (s.pid sel).K ∧ (t.pid sel).min = (s.pid sel).min ∧ (t.pid sel).max = (s.pid sel).max ∧
    (t.pid sel).aw = (s.pid sel).aw

/-- A finite value of an IEEE format, from the format's precision and exponents: `m * 2^k`, `m` of at most `precision` bits, `k` an
exponent of a last bit (R8, log 3). -/
def FormatValue (f : FloatFormat) (r : Rat) : Prop :=
  ∃ m k : Int, r = m * 2 ^ k ∧ |m| < 2 ^ f.precision ∧ f.emin - (f.precision - 1) ≤ k ∧ k ≤ f.emax - (f.precision - 1)

/-- A value of the format whose last significand bit is 0. The significand has `precision` bits, or fewer at the least exponent. -/
def EvenFormatValue (f : FloatFormat) (r : Rat) : Prop :=
  ∃ m k : Int, r = m * 2 ^ k ∧ m % 2 = 0 ∧ |m| < 2 ^ f.precision ∧ k ≤ f.emax - (f.precision - 1) ∧
    (k = f.emin - (f.precision - 1) ∨ f.emin - (f.precision - 1) < k ∧ 2 ^ (f.precision - 1) ≤ |m|)

/-- The least magnitude that rounds to an infinity: half a last place above the greatest value of the format. -/
def overflowBound (f : FloatFormat) : Rat := (2 ^ f.precision - 1 / 2) * 2 ^ (f.emax - (f.precision - 1))

/-- The port event of a CL_STEP by the tick agent. -/
def tickOf (e : Value) : PortEvent := .command .tick 0x0050#16 [e]

end Sys2Proof.Claims

open Sys2Proof.Claims

/-! ## Encoding -/

/-- R105, R103: the words of the opcode map, written out, decode to their commands; the selector and enable bits in both values.
A sanity statement. -/
def Obligations.SpecWordsDecode : Prop :=
  ∀ x y z : Value,
    decode 0x0000#16 [] = .ok .nop ∧ decode 0x0001#16 [x] = .ok (.wtInterp x) ∧
    decode 0x0010#16 [] = .ok .oscAdvance ∧ decode 0x0111#16 [] = .ok (.oscSetEnable true) ∧
    decode 0x0011#16 [] = .ok (.oscSetEnable false) ∧ decode 0x0012#16 [x] = .ok (.oscSetPhase x) ∧
    decode 0x0020#16 [x] = .ok (.mafUpdate x) ∧ decode 0x0021#16 [x] = .ok (.mafSetCutoff x) ∧
    decode 0x0030#16 [x] = .ok (.liaDemod x) ∧ decode 0x0140#16 [x] = .ok (.pidRun .slow x) ∧
    decode 0x0041#16 [] = .ok (.pidEnable .fast) ∧ decode 0x0142#16 [] = .ok (.pidDisable .slow) ∧
    decode 0x0043#16 [] = .ok (.pidHold .fast) ∧ decode 0x0044#16 [] = .ok (.pidReset .fast) ∧
    decode 0x0145#16 [] = .ok (.pidIsLimited .slow) ∧ decode 0x0048#16 [x] = .ok (.pidSetP .fast x) ∧
    decode 0x0049#16 [x] = .ok (.pidSetI .fast x) ∧ decode 0x004A#16 [x] = .ok (.pidSetD .fast x) ∧
    decode 0x014B#16 [x, y, z] = .ok (.pidSetGains .slow x y z) ∧ decode 0x014C#16 [x] = .ok (.pidSetTs .slow x) ∧
    decode 0x0050#16 [x] = .ok (.clStep x)

/-- Decode and encode agree in both directions, on every word and every list of operands: a transaction decodes to an instruction
exactly when it is that instruction's transaction (R100 to R106). -/
def Obligations.DecodeInvertsEncode : Prop :=
  ∀ (w : CmdWord) (ops : List Value) (i : Instr), decode w ops = .ok i ↔ i.word = w ∧ i.operands = ops

/-- R106: decoding is total; what R107 and R108 do not call malformed is an instruction. -/
def Obligations.WellFormedTransactionsDecode : Prop :=
  ∀ (w : CmdWord) (ops : List Value), ¬ Malformed w ops → ∃ i, decode w ops = .ok i

/-- R107, R108: a command with an illegal word or a wrong number of operands raises ILLEGAL_COMMAND with its word as information,
whatever its operands are. -/
def Obligations.MalformedCommandRaisesIllegalCommand : Prop :=
  ∀ (s : State) (a : Agent) (w : CmdWord) (ops : List Value) (rest : List PortEvent),
    s.pending = .command a w ops :: rest → s.halted = false → Malformed w ops →
    step s = .next (faulted .illegalCommand w { s with pending := rest })

/-! ## Steps -/

/-- A step runs the decoded instruction: when the next port event is a command whose transaction decodes to a well-formed instruction,
the step is that instruction's `exec` on the state with the event taken. -/
def Obligations.StepRunsTheDecodedInstruction : Prop :=
  ∀ (s : State) (a : Agent) (w : CmdWord) (ops : List Value) (rest : List PortEvent) (i : Instr),
    s.pending = .command a w ops :: rest → decode w ops = .ok i → i.wellFormed s.par.num = true →
    step s = exec i { s with pending := rest }

/-- R312: while halted every command, legal or not, is answered HALTED and changes no state. -/
def Obligations.HaltedBlockAnswersHalted : Prop :=
  ∀ (s : State) (a : Agent) (w : CmdWord) (ops : List Value) (rest : List PortEvent),
    s.pending = .command a w ops :: rest → s.halted = true →
    step s = .next { s with pending := rest, answer := haltedAnswer }

/-- R306, R311: the overrun signal halts the block with DEADLINE_OVERRUN and INFO 0, and is ignored while the block is halted. That it
gets no answer is the model's convention (log 10). -/
def Obligations.OverrunHaltsTheBlock : Prop :=
  ∀ (s : State) (rest : List PortEvent), s.pending = .overrun :: rest →
    (s.halted = false →
      step s = .next { s with pending := rest, answer := none, status := statusWord .deadlineOverrun 0 }) ∧
    (s.halted = true → step s = .next { s with pending := rest, answer := none })

/-- R303, R310: faults are precise. Whenever a command that ran on a block not halted leaves it halted, nothing but STATUS and the answer
differs from the state before it, INFO is the command's word, and the answer is HALTED. -/
def Obligations.FaultsArePrecise : Prop :=
  ∀ (i : Instr) (s t : State), s.halted = false → exec i s = .next t → t.halted = true →
    ∃ c : Cause, c ≠ .none ∧ t = faulted c i.word s

/-- R66, R301: the layout of STATUS after a fault. -/
def Obligations.StatusLayout : Prop :=
  ∀ (c : Cause) (info : BitVec 16),
    (statusWord c info).getLsbD 0 = true ∧ (statusWord c info).extractLsb' 1 3 = 0 ∧
    (statusWord c info).extractLsb' 4 4 =
      (match c with | .none => 0 | .configError => 1 | .illegalCommand => 2 | .numericFault => 3 | .deadlineOverrun => 4) ∧
    (statusWord c info).extractLsb' 8 8 = 0 ∧ (statusWord c info).extractLsb' 16 16 = info

/-- R66, R301: STATUS is 0, or HALTED with a cause that is raised, and every step keeps it so: the reserved bits read 0 and no reserved
cause code is written. -/
def Obligations.StepKeepsStatusLegal : Prop :=
  ∀ s t : State, Safety.StatusLegal s → step s = .next t → Safety.StatusLegal t

/-! ## Reset -/

/-- R342: reset checks the configuration in the order of the table, with the checks as the table words them. The first clause is about
the model's function; the second says that a reset whose first failing check is `k` leaves the block halted with `k` in STATUS.INFO; the
third that a reset without a failing check leaves STATUS 0. -/
def Obligations.ResetReportsTheFirstFailedCheck : Prop :=
  (∀ (par : Config.Params) (c : Config.Record) (k : Nat),
    firstFailedCheck par c = some k ↔
      1 ≤ k ∧ k ≤ 16 ∧ ¬ ResetCheckHolds par c k ∧ ∀ j, 1 ≤ j → j < k → ResetCheckHolds par c j) ∧
  ∀ (s : State) (c : Config.Record) (rest : List PortEvent),
    s.pending = .reset c :: rest → s.par.wellFormed = true → c.wellFormed s.par.num = true →
    (∀ k, 1 ≤ k → k ≤ 16 → ¬ ResetCheckHolds s.par c k → (∀ j, 1 ≤ j → j < k → ResetCheckHolds s.par c j) →
      ∃ t, step s = .next t ∧ t.halted = true ∧ t.infoField = BitVec.ofNat 16 k) ∧
    ((∀ k, 1 ≤ k → k ≤ 16 → ResetCheckHolds s.par c k) → ∃ t, step s = .next t ∧ t.status = 0)

/-- R70, R340, R344: a reset whose checks pass gives every piece of state its tabled value, halted or not before. That the pending events
and the parameters stay is the model's convention (log 9). -/
def Obligations.ResetGivesTheTabledValues : Prop :=
  ∀ (s : State) (c : Config.Record) (rest : List PortEvent),
    s.pending = .reset c :: rest → s.par.wellFormed = true → c.wellFormed s.par.num = true →
    firstFailedCheck s.par c = none →
    ∃ t, step s = .next t ∧ t.par = s.par ∧ t.pending = rest ∧ t.status = 0 ∧ t.wt = s.par.sineTable ∧
      (t.osc.en = c.oscEnable ∧ t.osc.amp = c.oscAmplitude ∧ t.osc.off = c.oscOffset ∧ t.osc.phaseCfg = c.oscPhase ∧
        t.osc.phaseSeen = .fin 0 ∧ t.osc.W = c.oscW ∧ t.osc.G = c.oscG ∧ t.osc.accP = 0 ∧ t.osc.accS = 0 ∧
        t.osc.fw = (Value.div s.par.num c.oscFreq
          (Value.div s.par.num c.oscClock (toNum s.par.num (2 ^ c.oscW : Nat)))).round ∧
        DetuneIs s.par.num c.oscPhase (.fin 0) c.oscW t.osc.detune) ∧
      (t.maf.buf = List.replicate s.par.capacity (.fin 0) ∧ t.maf.cur = 0 ∧ t.maf.sum = .fin 0 ∧
        t.maf.fc = c.mafCutoff ∧ t.maf.fs = c.loopRate ∧
        (t.maf.N : Int) = (Value.div s.par.num c.loopRate c.mafCutoff).round) ∧
      PidResetTo s.par.num c.pidFast t.pidFast ∧ PidResetTo s.par.num c.pidSlow t.pidSlow ∧
      (t.loop.tick = 0 ∧ (t.loop.countlim : Int) = (Value.div s.par.num c.loopRate c.slowRate).round ∧
        t.loop.slowLast = t.pidSlow.cv)

/-- R343: a reset with a failing check leaves the block halted with CONFIG_ERROR and the number of the first failing check. That the
pending events stay is the model's convention (log 9). -/
def Obligations.FailedResetHaltsWithTheCheckNumber : Prop :=
  ∀ (s : State) (c : Config.Record) (rest : List PortEvent) (k : Nat),
    s.pending = .reset c :: rest → s.par.wellFormed = true → c.wellFormed s.par.num = true →
    firstFailedCheck s.par c = some k →
    ∃ t, step s = .next t ∧ t.halted = true ∧ t.causeField = 1 ∧ t.infoField = BitVec.ofNat 16 k ∧ t.pending = rest

/-- The model's reset state is in range and not halted, and its values are finite values of NUM. The state is that of a reset with CFG1
under the model's parameters (log 1). -/
def Obligations.ResetStateIsInRange : Prop :=
  Safety.BlockInRange State.reset ∧ State.reset.halted = false ∧ Safety.ValuesGood State.reset ∧
    State.reset.par.wellFormed = true

/-! ## WaveTable -/

/-- R141, R142: WT_INTERP returns the interpolated value; an operand or a result that is not finite is a NUMERIC_FAULT. -/
def Obligations.WtInterpReturnsTheInterpolation : Prop :=
  ∀ (s : State) (x v : Value), s.halted = false →
    (x.isFinite = false → exec (.wtInterp x) s = .next (faulted .numericFault 0x0001#16 s)) ∧
    (x.isFinite = true → InterpIs s.par.num s.wt x v →
      (v.isFinite = true → exec (.wtInterp x) s = .next { s with answer := ok1 v }) ∧
      (v.isFinite = false → exec (.wtInterp x) s = .next (faulted .numericFault 0x0001#16 s)))

/-- R82: every finite position has its interpolation in a table of 1024 entries, no index falls outside it, and the value is the only
one. -/
def Obligations.InterpolationStaysInTheTable : Prop :=
  ∀ (fmt : NumFormat) (wt : List Value) (x : Value), wt.length = 1024 → x.isFinite = true →
    ∃ v, InterpIs fmt wt x v ∧ interp fmt wt x = .ok v ∧ ∀ v', InterpIs fmt wt x v' → v' = v

/-- R143 (a), (d): at every integer position the interpolation is the table's entry, in every NUM in which the difference to the next
entry is finite; below 0 it is 0. -/
def Obligations.InterpolationMeetsTheTable : Prop :=
  ∀ (fmt : NumFormat) (wt : List Value) (x : Value),
    (∀ (k : Nat) (a b : Value), k < 1024 → wt[k]? = some a → wt[(k + 1) % 1024]? = some b →
      isOf fmt a = true → a.isFinite = true → (Value.sub fmt b a).isFinite = true →
      ∃ v, interp fmt wt (.fin k) = .ok v ∧ v.eq a = true) ∧
    (x.lt (.fin 0) = true → interp fmt wt x = .ok (.fin 0))

/-! ## Oscillator -/

/-- R163: the fold is the loop that subtracts `M` while above `M` and adds `M` while negative, and its result lies in `0..M`. -/
def Obligations.FoldIsTheLoop : Prop :=
  ∀ (W : Nat) (x M : Int), 1 ≤ W → M = (2 ^ W : Nat) - 1 →
    (M < x → fold W x = fold W (x - M)) ∧ (x < 0 → fold W x = fold W (x + M)) ∧
    (0 ≤ x → x ≤ M → fold W x = x) ∧ 0 ≤ fold W x ∧ fold W x ≤ M

/-- R161 to R166: OSC_ADVANCE steps both accumulators, records the phase offset and returns the outputs; an output that is not finite is
a NUMERIC_FAULT. -/
def Obligations.OscAdvanceStepsAndReturns : Prop :=
  ∀ (s : State) (yp ys : Value), s.halted = false → 1 ≤ s.osc.G → s.osc.G ≤ s.osc.W →
    OutputsAre s.par.num s.wt s.osc yp ys →
    (yp.isFinite = true ∧ ys.isFinite = true →
      exec .oscAdvance s = .next { s with osc := advanced s.osc, answer := ok2 yp ys }) ∧
    (¬ (yp.isFinite = true ∧ ys.isFinite = true) → exec .oscAdvance s = .next (faulted .numericFault 0x0010#16 s))

/-- R169 (a): the accumulators and the observed phase offset after an advance are the same whatever the enable flag is. -/
def Obligations.PhaseContinuity : Prop :=
  ∀ (s t t' : State) (b : Bool), s.halted = false →
    exec .oscAdvance s = .next t → t.halted = false →
    exec .oscAdvance { s with osc := { s.osc with en := b } } = .next t' → t'.halted = false →
    t'.osc = { t.osc with en := b }

/-- R169 (b): an advance changes the difference of the accumulators modulo `M` by the detuning step when the phase offset has changed, and
not at all when it has not. -/
def Obligations.DetuningStepAppliesOncePerChange : Prop :=
  ∀ (s t : State) (M : Int), M = (2 ^ s.osc.W : Nat) - 1 → s.halted = false →
    exec .oscAdvance s = .next t → t.halted = false →
    (PhaseChanged s.osc →
      (t.osc.accS - t.osc.accP) % M = (s.osc.accS - s.osc.accP + s.osc.detune) % M ∧ t.osc.phaseSeen = s.osc.phaseCfg) ∧
    (¬ PhaseChanged s.osc → (t.osc.accS - t.osc.accP) % M = (s.osc.accS - s.osc.accP) % M)

/-- R167: OSC_SET_ENABLE sets the enable flag and nothing else. -/
def Obligations.OscSetEnableSetsTheFlag : Prop :=
  ∀ (s : State) (en : Bool), s.halted = false →
    exec (.oscSetEnable en) s = .next { s with osc := { s.osc with en := en }, answer := ok0 }

/-- R168, for the IEEE formats: OSC_SET_PHASE writes the offset and the detuning step of the formula; a non-finite operand or quotient is a
NUMERIC_FAULT. -/
def Obligations.OscSetPhaseComputesTheStep : Prop :=
  ∀ (s : State) (phi q : Value) (f : FloatFormat), s.halted = false → s.par.num = .ieee f →
    q = Value.div s.par.num
      (Value.mul s.par.num (Value.sub s.par.num phi s.osc.phaseSeen) (toNum s.par.num (2 ^ s.osc.W : Nat)))
      (Value.div s.par.num (piIeee f) (toNum s.par.num 2)) →
    (phi.isFinite = true ∧ q.isFinite = true →
      exec (.oscSetPhase phi) s =
        .next { s with osc := { s.osc with phaseCfg := phi, detune := q.round }, answer := ok0 }) ∧
    (¬ (phi.isFinite = true ∧ q.isFinite = true) →
      exec (.oscSetPhase phi) s = .next (faulted .numericFault 0x0012#16 s))

/-- R168 and R19 under Exact, with the real pi, for every value of Exact: the detuning step is the integer nearest to
`(phi - phase_seen) * 2^W / (pi / 2)`. -/
def Obligations.ExactDetuningStepIsNearest : Prop :=
  ∀ (s : State) (phi : Value), s.halted = false → s.par.num = .exact → isOf .exact phi = true →
    isOf .exact s.osc.phaseSeen = true →
    ∃ n : Int, exec (.oscSetPhase phi) s =
        .next { s with osc := { s.osc with phaseCfg := phi, detune := n }, answer := ok0 } ∧
      DetuneIs .exact phi s.osc.phaseSeen s.osc.W n

/-! ## Filter -/

/-- R190, R192: MAF_UPDATE replaces the entry at the cursor, updates the sum, the window length and the cursor and returns the average; a
value that is not finite is a NUMERIC_FAULT. -/
def Obligations.MafUpdateReturnsTheAverage : Prop :=
  ∀ (s : State) (x old : Value) (n : Nat), s.halted = false → s.maf.buf[s.maf.cur]? = some old → WindowIs s n →
    (x.isFinite = true ∧ (nextSum s old x).isFinite = true ∧ (average s old x n).isFinite = true →
      exec (.mafUpdate x) s = .next { s with maf := fed s old x n, answer := ok1 (average s old x n) }) ∧
    (¬ (x.isFinite = true ∧ (nextSum s old x).isFinite = true ∧ (average s old x n).isFinite = true) →
      exec (.mafUpdate x) s = .next (faulted .numericFault 0x0020#16 s))

/-- R193, R304, R308: MAF_SET_CUTOFF accepts a positive cutoff whose window length is in `1..C`; it refuses any other finite one with
CONFIG_ERROR, and a non-finite one with NUMERIC_FAULT. -/
def Obligations.MafSetCutoffChecksTheWindow : Prop :=
  ∀ (s : State) (fc q : Value), s.halted = false → q = Value.div s.par.num s.maf.fs fc →
    (fc.isFinite = false → exec (.mafSetCutoff fc) s = .next (faulted .numericFault 0x0021#16 s)) ∧
    (fc.isFinite = true →
      ((Value.fin 0).lt fc = true ∧ q.isFinite = true ∧ 1 ≤ q.round ∧ q.round ≤ s.par.capacity →
        exec (.mafSetCutoff fc) s = .next { s with maf := { s.maf with fc := fc }, answer := ok0 }) ∧
      (¬ ((Value.fin 0).lt fc = true ∧ q.isFinite = true ∧ 1 ≤ q.round ∧ q.round ≤ s.par.capacity) →
        exec (.mafSetCutoff fc) s = .next (faulted .configError 0x0021#16 s)))

/-- R45, R191 under Exact: the running sum is the sum of all entries of BUF, and every step keeps it so. -/
def Obligations.StepKeepsRunningSum : Prop :=
  ∀ s t : State, s.par.num = .exact → Safety.SumIsSumOfBuffer s → step s = .next t → Safety.SumIsSumOfBuffer t

/-- R194 (a), (b) under Exact: from reset, the `k`-th MAF_UPDATE of a constant `v` answers `k * v / N` while `k < N`, and exactly `v` from
the `N`-th on. -/
def Obligations.ConstantInputConverges : Prop :=
  ∀ (s : State) (c : Config.Record) (N k : Nat) (v : Value), s.par.num = .exact → firstFailedCheck s.par c = none →
    c.wellFormed .exact = true → (afterReset c s).maf.N = N → 1 ≤ k → isOf .exact v = true →
    ∃ t y, core.run k { afterReset c s with pending := List.replicate k (.command .config 0x0020#16 [v]) } = .next t ∧
      t.answer = ok1 y ∧ isOf .exact y = true ∧ (k < N → y.real = k * v.real / N) ∧ (N ≤ k → y = v)

/-! ## Lock-in -/

/-- R211, R305: LIA_DEMOD advances the oscillator, multiplies the error by the shifted output, feeds the product to the filter and returns
its average; an operand, an oscillator output, a product, a filter sum or an average that is not finite is a NUMERIC_FAULT. -/
def Obligations.LiaDemodReturnsTheFilteredProduct : Prop :=
  ∀ (s : State) (e yp ys old : Value) (n : Nat), s.halted = false → DemodMeets s yp ys old n →
    (DemodFinite s e yp ys old n →
      exec (.liaDemod e) s =
        .next { s with
          osc := advanced s.osc
          maf := fed s old (Value.mul s.par.num e ys) n
          answer := ok1 (average s old (Value.mul s.par.num e ys) n) }) ∧
    (¬ DemodFinite s e yp ys old n → exec (.liaDemod e) s = .next (faulted .numericFault 0x0030#16 s))

/-! ## PID -/

/-- R224: an unfrozen PID_RUN computes the control value, updates the active delay set in place and stores the output; a value that is not
finite is a NUMERIC_FAULT. -/
def Obligations.PidRunComputesTheControlValue : Prop :=
  ∀ (s : State) (sel : Sel) (e : Value), s.halted = false → (s.pid sel).frozen = false →
    (e.isFinite = true ∧ RunFinite s.par.num (s.pid sel) e →
      exec (.pidRun sel e) s =
        .next { s.setPid sel (ran s.par.num (s.pid sel) e) with answer := ok1 (outputOf s.par.num (s.pid sel) e) }) ∧
    (¬ (e.isFinite = true ∧ RunFinite s.par.num (s.pid sel) e) →
      exec (.pidRun sel e) s = .next (faulted .numericFault (Instr.pidRun sel e).word s))

/-- R224, R307: a frozen PID_RUN returns the stored output and changes nothing; only its operand is checked. -/
def Obligations.FrozenPidRunReturnsTheStoredOutput : Prop :=
  ∀ (s : State) (sel : Sel) (e : Value), s.halted = false → (s.pid sel).frozen = true →
    (e.isFinite = true → exec (.pidRun sel e) s = .next { s with answer := ok1 (s.pid sel).cv }) ∧
    (e.isFinite = false → exec (.pidRun sel e) s = .next (faulted .numericFault (Instr.pidRun sel e).word s))

/-- R246 (b) under Exact: running with `p = 1`, `i = d = 0`, `K = 1` and zero history, PID_RUN returns its error inside the limits and the
nearer limit outside. -/
def Obligations.ProportionalIdentityLaw : Prop :=
  ∀ (s : State) (sel : Sel) (x lo hi : Value), s.halted = false → s.par.num = .exact → (s.pid sel).frozen = false →
    (s.pid sel).activeCoef = ⟨.fin 1, .fin 0, .fin 0⟩ → (s.pid sel).activeDly = zeroDelay → (s.pid sel).K = .fin 1 →
    (s.pid sel).min = lo → (s.pid sel).max = hi → isOf .exact x = true → isOf .exact lo = true → isOf .exact hi = true →
    lo.real ≤ hi.real →
    ∃ t, exec (.pidRun sel x) s = .next t ∧
      (x.real < lo.real → t.answer = ok1 lo) ∧ (hi.real < x.real → t.answer = ok1 hi) ∧
      (lo.real ≤ x.real → x.real ≤ hi.real → t.answer = ok1 x)

/-- R223, R246 (d): with the strategy Conditional and a nonzero previous saturation, a run whose increment has the sign of the integrator
leaves the integrator as it was. -/
def Obligations.ConditionalAntiWindupFreezesTheIntegrator : Prop :=
  ∀ (s t : State) (sel : Sel) (e : Value), s.halted = false → (s.pid sel).frozen = false → (s.pid sel).aw = .conditional →
    (s.pid sel).activeDly.psat.eq (.fin 0) = false →
    (Value.mul s.par.num (s.pid sel).activeDly.integ
      (Value.add s.par.num (Value.mul s.par.num (s.pid sel).activeCoef.ic e)
        (Value.mul s.par.num (s.pid sel).activeDly.pic (s.pid sel).activeDly.perr))).le (.fin 0) = false →
    exec (.pidRun sel e) s = .next t → t.halted = false →
    (t.pid sel).activeDly.integ = (s.pid sel).activeDly.integ ∧ (t.pid sel).activeDly.perr = e

/-- R228, R230, R234: PID_ENABLE. -/
def Obligations.PidEnableStartsTheController : Prop :=
  ∀ (s : State) (sel : Sel), s.halted = false →
    ((s.pid sel).fsm = .idle ∨ (s.pid sel).fsm = .hold →
      exec (.pidEnable sel) s =
        .next { s.setPid sel { s.pid sel with fsm := .running, frozen := false } with answer := ok0 }) ∧
    ((s.pid sel).fsm = .running → exec (.pidEnable sel) s = .next { s with answer := ok0 })

/-- R228, R229, R231, R234: PID_DISABLE. -/
def Obligations.PidDisableStopsAndResets : Prop :=
  ∀ (s : State) (sel : Sel), s.halted = false →
    ((s.pid sel).fsm = .running ∨ (s.pid sel).fsm = .hold →
      exec (.pidDisable sel) s =
        .next { s.setPid sel (delayReset { s.pid sel with fsm := .idle, frozen := true }) with answer := ok0 }) ∧
    ((s.pid sel).fsm = .idle → exec (.pidDisable sel) s = .next { s with answer := ok0 })

/-- R228, R232, R234: PID_HOLD. -/
def Obligations.PidHoldFreezes : Prop :=
  ∀ (s : State) (sel : Sel), s.halted = false →
    ((s.pid sel).fsm = .running →
      exec (.pidHold sel) s =
        .next { s.setPid sel { s.pid sel with fsm := .hold, frozen := true } with answer := ok0 }) ∧
    ((s.pid sel).fsm ≠ .running → exec (.pidHold sel) s = .next { s with answer := ok0 })

/-- R228, R229, R233, R234: PID_RESET. -/
def Obligations.PidResetZeroesTheHistory : Prop :=
  ∀ (s : State) (sel : Sel), s.halted = false →
    ((s.pid sel).fsm = .running →
      exec (.pidReset sel) s = .next { s.setPid sel (delayReset (s.pid sel)) with answer := ok0 }) ∧
    ((s.pid sel).fsm ≠ .running → exec (.pidReset sel) s = .next { s with answer := ok0 })

/-- R235 (b): the state-dependent reset law. Disable then enable, from Running or Hold, leaves a zeroed active delay set; hold then enable,
from Running, leaves the active delay set as it was. -/
def Obligations.StateDependentResetLaw : Prop :=
  ∀ (s s1 s2 : State) (sel : Sel), s.halted = false →
    (exec (.pidDisable sel) s = .next s1 → exec (.pidEnable sel) s1 = .next s2 → (s.pid sel).fsm ≠ .idle →
      (s2.pid sel).fsm = .running ∧ (s2.pid sel).activeDly = ⟨.fin 0, .fin 0, .fin 0, .fin 0⟩) ∧
    (exec (.pidHold sel) s = .next s1 → exec (.pidEnable sel) s1 = .next s2 → (s.pid sel).fsm = .running →
      (s2.pid sel).fsm = .running ∧ (s2.pid sel).activeDly = (s.pid sel).activeDly)

/-- R236: PID_IS_LIMITED answers whether the saturation of the active delay set is nonzero, and changes nothing. -/
def Obligations.PidIsLimitedReadsTheSaturation : Prop :=
  ∀ (s : State) (sel : Sel), s.halted = false →
    exec (.pidIsLimited sel) s =
      .next { s with
        answer := some ⟨.ok, some (.bool (!((s.pid sel).dly.get (s.pid sel).ad).psat.eq (.fin 0))), none⟩ }

/-- R221, R237, R238, R240 to R243: the setters of the raw gains recompute the coefficient set from the new gains, write it to the shadow
set, make it active, and store the gains. -/
def Obligations.GainSettersSwapTheCoefficients : Prop :=
  ∀ (s : State) (sel : Sel) (p i d : Value), s.halted = false →
    let P := s.pid sel
    let set := fun p i d => coefSet s.par.num p i d P.Ts
    let fin := fun c : CoefSet => c.ic.isFinite = true ∧ c.dc.isFinite = true
    (p.isFinite = true → fin (set p P.i P.d) →
      exec (.pidSetP sel p) s =
        .next { s.setPid sel { swapped P (set p P.i P.d) with p := p } with answer := ok0 }) ∧
    (i.isFinite = true → fin (set P.p i P.d) →
      exec (.pidSetI sel i) s =
        .next { s.setPid sel { swapped P (set P.p i P.d) with i := i } with answer := ok0 }) ∧
    (d.isFinite = true → fin (set P.p P.i d) →
      exec (.pidSetD sel d) s =
        .next { s.setPid sel { swapped P (set P.p P.i d) with d := d } with answer := ok0 }) ∧
    (p.isFinite = true → i.isFinite = true → d.isFinite = true → fin (set p i d) →
      exec (.pidSetGains sel p i d) s =
        .next { s.setPid sel { swapped P (set p i d) with p := p, i := i, d := d } with answer := ok0 })

/-- R240 to R243, R305: a gain that is not finite, or a coefficient that overflows, is a NUMERIC_FAULT of the setter. -/
def Obligations.GainSettersRefuseNonFiniteValues : Prop :=
  ∀ (s : State) (sel : Sel) (p i d : Value), s.halted = false →
    let P := s.pid sel
    let bad := fun p i d => (coefSet s.par.num p i d P.Ts).ic.isFinite = false ∨ (coefSet s.par.num p i d P.Ts).dc.isFinite = false
    (p.isFinite = false ∨ bad p P.i P.d →
      exec (.pidSetP sel p) s = .next (faulted .numericFault (Instr.pidSetP sel p).word s)) ∧
    (i.isFinite = false ∨ bad P.p i P.d →
      exec (.pidSetI sel i) s = .next (faulted .numericFault (Instr.pidSetI sel i).word s)) ∧
    (d.isFinite = false ∨ bad P.p P.i d →
      exec (.pidSetD sel d) s = .next (faulted .numericFault (Instr.pidSetD sel d).word s)) ∧
    (p.isFinite = false ∨ i.isFinite = false ∨ d.isFinite = false ∨ bad p i d →
      exec (.pidSetGains sel p i d) s = .next (faulted .numericFault (Instr.pidSetGains sel p i d).word s))

/-- R244, R304, R308: PID_SET_TS stores a positive sampling interval and swaps in its coefficients; zero or negative is a CONFIG_ERROR, a
non-finite operand or coefficient a NUMERIC_FAULT. -/
def Obligations.PidSetTsChecksTheInterval : Prop :=
  ∀ (s : State) (sel : Sel) (ts : Value), s.halted = false →
    let P := s.pid sel
    let c := coefSet s.par.num P.p P.i P.d ts
    (ts.isFinite = false → exec (.pidSetTs sel ts) s = .next (faulted .numericFault (Instr.pidSetTs sel ts).word s)) ∧
    (ts.isFinite = true → (Value.fin 0).lt ts = false →
      exec (.pidSetTs sel ts) s = .next (faulted .configError (Instr.pidSetTs sel ts).word s)) ∧
    (ts.isFinite = true → (Value.fin 0).lt ts = true →
      (c.ic.isFinite = true ∧ c.dc.isFinite = true →
        exec (.pidSetTs sel ts) s = .next { s.setPid sel { swapped P c with Ts := ts } with answer := ok0 }) ∧
      (¬ (c.ic.isFinite = true ∧ c.dc.isFinite = true) →
        exec (.pidSetTs sel ts) s = .next (faulted .numericFault (Instr.pidSetTs sel ts).word s)))

/-- R243: PID_SET_GAINS has the effect of the three setters issued back to back. When those complete it completes too, and leaves the same
gains, the same active coefficients, the same history and output. -/
def Obligations.SetGainsEqualsTheThreeSetters : Prop :=
  ∀ (s s1 s2 s3 : State) (sel : Sel) (p i d : Value),
    exec (.pidSetP sel p) s = .next s1 → exec (.pidSetI sel i) s1 = .next s2 → exec (.pidSetD sel d) s2 = .next s3 →
    s3.halted = false →
    ∃ t, exec (.pidSetGains sel p i d) s = .next t ∧ t.halted = false ∧
      (t.pid sel).p = (s3.pid sel).p ∧ (t.pid sel).i = (s3.pid sel).i ∧ (t.pid sel).d = (s3.pid sel).d ∧
      (t.pid sel).activeCoef = (s3.pid sel).activeCoef ∧ (t.pid sel).dly = (s3.pid sel).dly ∧
      (t.pid sel).ad = (s3.pid sel).ad ∧ (t.pid sel).cv = (s3.pid sel).cv

/-! ## Control loop -/

/-- R271, R305: CL_STEP on a tick that runs the slow controller; an operand, a value of the demodulation or a value of one of the runs that
is not finite is a NUMERIC_FAULT. -/
def Obligations.ClStepRunsBothControllers : Prop :=
  ∀ (s : State) (e yp ys old : Value) (n : Nat), s.halted = false → DemodMeets s yp ys old n →
    s.loop.tick + 1 < s.loop.countlim →
    (∀ (pf ps : Pid) (fast slow : Value), DemodFinite s e yp ys old n →
      RunIs s.par.num s.pidFast e pf fast → RunIs s.par.num s.pidSlow e ps slow →
      exec (.clStep e) s =
        .next { s with
          osc := advanced s.osc
          maf := fed s old (Value.mul s.par.num e ys) n
          pidFast := pf
          pidSlow := ps
          loop := { s.loop with
            tick := if s.par.doubleIncrement then s.loop.tick + 2 else s.loop.tick + 1
            slowLast := slow }
          answer := ok2 slow fast }) ∧
    (¬ DemodFinite s e yp ys old n ∨ RunFails s.par.num s.pidFast e ∨ RunFails s.par.num s.pidSlow e →
      exec (.clStep e) s = .next (faulted .numericFault 0x0050#16 s))

/-- R271, R305: CL_STEP on a tick that skips the slow controller: the counter goes to 0 and the slow output is carried forward; an operand,
a value of the demodulation or a value of the fast run that is not finite is a NUMERIC_FAULT. -/
def Obligations.ClStepCarriesTheSlowOutput : Prop :=
  ∀ (s : State) (e yp ys old : Value) (n : Nat), s.halted = false → DemodMeets s yp ys old n →
    s.loop.countlim ≤ s.loop.tick + 1 →
    (∀ (pf : Pid) (fast : Value), DemodFinite s e yp ys old n → RunIs s.par.num s.pidFast e pf fast →
      exec (.clStep e) s =
        .next { s with
          osc := advanced s.osc
          maf := fed s old (Value.mul s.par.num e ys) n
          pidFast := pf
          loop := { s.loop with tick := 0 }
          answer := ok2 s.loop.slowLast fast }) ∧
    (¬ DemodFinite s e yp ys old n ∨ RunFails s.par.num s.pidFast e →
      exec (.clStep e) s = .next (faulted .numericFault 0x0050#16 s))

/-- R273, R274 (a), (b): a CL_STEP that completes has on the oscillator and the filter the effect of one LIA_DEMOD of the same error, and
on the fast controller that of one PID_RUN. -/
def Obligations.ClStepContainsTheLockInAndTheFastRun : Prop :=
  ∀ (s t : State) (e : Value), s.halted = false → exec (.clStep e) s = .next t → t.halted = false →
    (∃ u, exec (.liaDemod e) s = .next u ∧ u.halted = false ∧ t.osc = u.osc ∧ t.maf = u.maf) ∧
    (∃ u, exec (.pidRun .fast e) s = .next u ∧ u.halted = false ∧ t.pidFast = u.pidFast)

/-- R272, R274 (c): the schedule. From `tick = 0`, after `k` CL_STEP commands that all complete, the counter is `k mod n` without the double
increment and `2 * (k mod (n / 2 + 1))` with it, `n = countlim`. -/
def Obligations.TickSchedule : Prop :=
  ∀ (s t : State) (es : List Value), s.loop.tick = 0 → 1 ≤ s.loop.countlim → s.pending = es.map tickOf →
    core.run es.length s = .next t → t.halted = false →
    t.loop.countlim = s.loop.countlim ∧
    t.loop.tick =
      (if s.par.doubleIncrement then 2 * (es.length % (s.loop.countlim / 2 + 1)) else es.length % s.loop.countlim)

/-! ## System -/

/-- R290: NOP does nothing. -/
def Obligations.NopDoesNothing : Prop :=
  ∀ s : State, s.halted = false → exec .nop s = .next { s with answer := ok0 }

/-! ## Frames -/

/-- What a command leaves unchanged, component by component, whether it completes or faults: the parameters, the wave table, the events to
come and the free-value counter always; the oscillator unless it is an oscillator command, LIA_DEMOD or CL_STEP; the filter unless it is a
filter command, LIA_DEMOD or CL_STEP; a controller unless the command selects it or is CL_STEP; the loop unless it is CL_STEP; STATUS
unless the command raises a fault. -/
def Obligations.CommandsTouchOnlyTheirComponents : Prop :=
  ∀ (i : Instr) (s t : State), exec i s = .next t →
    t.par = s.par ∧ t.wt = s.wt ∧ t.pending = s.pending ∧ t.free = s.free ∧
    (i.opcode ∉ [.oscAdvance, .oscSetEnable, .oscSetPhase, .liaDemod, .clStep] → t.osc = s.osc) ∧
    (i.opcode ∉ [.mafUpdate, .mafSetCutoff, .liaDemod, .clStep] → t.maf = s.maf) ∧
    (∀ sel, i.opcode ≠ .clStep →
      (∀ e, i ≠ .pidRun sel e) → i ≠ .pidEnable sel → i ≠ .pidDisable sel → i ≠ .pidHold sel → i ≠ .pidReset sel →
      (∀ p, i ≠ .pidSetP sel p) → (∀ x, i ≠ .pidSetI sel x) → (∀ d, i ≠ .pidSetD sel d) →
      (∀ p x d, i ≠ .pidSetGains sel p x d) → (∀ ts, i ≠ .pidSetTs sel ts) → t.pid sel = s.pid sel) ∧
    (i.opcode ≠ .clStep → t.loop = s.loop) ∧
    (t.halted = false → t.status = s.status)

/-- R34, R40, R245: the construction registers are written only by reset: no command, and no step that is not a reset, writes the
oscillator's amplitude, offset, widths or frequency word, the filter's loop rate, a controller's gain, limits or strategy, `countlim`, or
the wave table. -/
def Obligations.ConstructionRegistersNeverChange : Prop :=
  (∀ (i : Instr) (s t : State), exec i s = .next t → SameConstruction s t) ∧
    ∀ s t : State, (∀ c rest, s.pending ≠ .reset c :: rest) → step s = .next t → SameConstruction s t

/-- R34, R60: the runtime registers: each is written by its own setters only. The enable flag by OSC_SET_ENABLE; the phase offset and the
detuning step by OSC_SET_PHASE; the cutoff by MAF_SET_CUTOFF; a controller's gains and sampling interval by its setters. -/
def Obligations.RuntimeRegistersChangeByTheirSettersOnly : Prop :=
  ∀ (i : Instr) (s t : State) (sel : Sel), exec i s = .next t →
    (i.opcode ≠ .oscSetEnable → t.osc.en = s.osc.en) ∧
    (i.opcode ≠ .oscSetPhase → t.osc.phaseCfg = s.osc.phaseCfg ∧ t.osc.detune = s.osc.detune) ∧
    (i.opcode ≠ .mafSetCutoff → t.maf.fc = s.maf.fc) ∧
    (i.opcode ∉ [.pidSetP, .pidSetGains] → (t.pid sel).p = (s.pid sel).p) ∧
    (i.opcode ∉ [.pidSetI, .pidSetGains] → (t.pid sel).i = (s.pid sel).i) ∧
    (i.opcode ∉ [.pidSetD, .pidSetGains] → (t.pid sel).d = (s.pid sel).d) ∧
    (i.opcode ≠ .pidSetTs → (t.pid sel).Ts = (s.pid sel).Ts) ∧
    (i.opcode ∉ [.pidSetP, .pidSetI, .pidSetD, .pidSetGains, .pidSetTs] →
      (t.pid sel).coef = (s.pid sel).coef ∧ (t.pid sel).ac = (s.pid sel).ac) ∧
    (i.opcode ∉ [.pidEnable, .pidDisable, .pidHold] →
      (t.pid sel).fsm = (s.pid sel).fsm ∧ (t.pid sel).frozen = (s.pid sel).frozen)

/-- R235 (c), R237, R354: no event and no setter changes a controller's output; the setters, PID_ENABLE, PID_HOLD and PID_IS_LIMITED leave
its delay sets alone. -/
def Obligations.OnlyRunsChangeTheOutput : Prop :=
  ∀ (i : Instr) (s t : State) (sel : Sel), exec i s = .next t →
    (i.opcode ∉ [.pidRun, .clStep] → (t.pid sel).cv = (s.pid sel).cv) ∧
    (i.opcode ∉ [.pidRun, .clStep, .pidDisable, .pidReset] →
      (t.pid sel).dly = (s.pid sel).dly ∧ (t.pid sel).ad = (s.pid sel).ad)

/-- R81, R83: the frame of BUF. A filter update (MAF_UPDATE, LIA_DEMOD, CL_STEP) stores to the element at the cursor and to no other; no
other command stores to BUF; its size never changes. -/
def Obligations.BufferChangesAtTheCursorOnly : Prop :=
  ∀ (i : Instr) (s t : State) (k : Int), exec i s = .next t →
    t.maf.buf.length = s.maf.buf.length ∧
    (i.opcode ∉ [.mafUpdate, .liaDemod, .clStep] → memRead t.maf.buf k = memRead s.maf.buf k) ∧
    (k ≠ s.maf.cur → memRead t.maf.buf k = memRead s.maf.buf k) ∧
    (∀ x, i = .mafUpdate x → t.halted = false → memRead t.maf.buf s.maf.cur = .ok x)

/-! ## Invariants -/

/-- R41, R45, R51, R52, R56: every step keeps the block halted or its components in range, and every command keeps the components in range,
one that faults too. -/
def Obligations.StepKeepsInvariant : Prop :=
  (∀ s t : State, Safety.Inv s → step s = .next t → Safety.Inv t) ∧
    ∀ (i : Instr) (s t : State), Safety.BlockInRange s → exec i s = .next t → Safety.BlockInRange t

/-- R82, R190: from a state in range no step departs from the rules: the model never stops with a fault. -/
def Obligations.StepNeverDepartsFromTheRules : Prop :=
  ∀ s : State, Safety.Inv s → Safety.StepSafe s

/-- R34, R305: every value that the block stores stays a finite value of NUM, the limits apart, across every step. -/
def Obligations.StepKeepsValuesFinite : Prop :=
  ∀ s t : State, Safety.ValuesInv s → step s = .next t → Safety.ValuesInv t

/-- R305 under Exact: no command raises NUMERIC_FAULT. In every state in range with values of NUM, every command with operands of NUM is
answered OK, or refused with CONFIG_ERROR where R193 and R244 refuse the operand. -/
def Obligations.ExactCommandsComplete : Prop :=
  ∀ (i : Instr) (s : State), s.par.num = .exact → s.halted = false → Safety.BlockInRange s → Safety.ValuesGood s →
    i.wellFormed .exact = true →
    (∃ t, exec i s = .next t ∧ t.halted = false ∧ ∃ r0 r1, t.answer = some ⟨.ok, r0, r1⟩) ∨
    ((∃ fc, i = .mafSetCutoff fc ∧
        ¬ ((Value.fin 0).lt fc = true ∧ 1 ≤ (Value.div .exact s.maf.fs fc).round ∧
          (Value.div .exact s.maf.fs fc).round ≤ s.par.capacity)) ∨
      (∃ sel ts, i = .pidSetTs sel ts ∧ (Value.fin 0).lt ts = false)) ∧
    exec i s = .next (faulted .configError i.word s)

/-! ## Numbers -/

/-- R8, R17: rounding to an IEEE format is to nearest, ties to even. A result below the overflow bound rounds to a value of the format that
no other value of the format is nearer to, and that is even when another is as near; a result that rounds to zero has the sign of the
result, or the given sign when it is zero; a result at or above the bound rounds to an infinity. The finite values that the model admits
under the format are exactly the format's. The formats, their zeros and infinities are IEEE 754's (log 3). -/
def Obligations.RoundingIsToNearest : Prop :=
  ∀ (f : FloatFormat),
    (∀ r : Rat, isOf (.ieee f) (.fin r) = true ↔ FormatValue f r) ∧
    ∀ (neg : Bool) (q : Rat),
      (|q| < overflowBound f →
        ∃ r : Rat, FormatValue f r ∧
          (∀ r' : Rat, FormatValue f r' →
            |q - r| ≤ |q - r'| ∧ (|q - r| = |q - r'| → r' = r ∨ EvenFormatValue f r)) ∧
          roundIeee f neg q =
            (if r = 0 ∧ (q < 0 ∨ q = 0 ∧ neg = true) then .negZero else .fin r)) ∧
      (overflowBound f ≤ |q| → roundIeee f neg q = .inf (decide (q < 0)))

/-- R18: `round` gives an integer nearest to the value, and of two nearest ones the one farther from zero; `floor` gives the greatest
integer not above it. -/
def Obligations.RoundIsHalfAwayFromZero : Prop :=
  ∀ x : Value, x.isFinite = true →
    |x.real - x.round| ≤ 1 / 2 ∧ (|x.real - x.round| = 1 / 2 → |x.real| < |(x.round : Real)|) ∧
    (x.floor : Real) ≤ x.real ∧ x.real < x.floor + 1

/-- R10: every entry of the default SINE_TABLE is a value of NUM: under Exact the real sine of `2 pi k / 1024`, and in an IEEE format a
value of the format that no other is nearer to it than. The formats are IEEE 754's (log 3). -/
def Obligations.DefaultTableRoundsTheSine : Prop :=
  ∀ (fmt : NumFormat), (defaultSineTable fmt).length = 1024 ∧
    ∀ k : Nat, k < 1024 → ∃ v : Value, (defaultSineTable fmt)[k]? = some v ∧ isOf fmt v = true ∧
      match fmt with
      | .exact => v.real = Real.sin (2 * Real.pi * k / 1024)
      | .ieee f => ∃ r : Rat, v = .fin r ∧ FormatValue f r ∧ ∀ r' : Rat, FormatValue f r' →
          |(r : Real) - Real.sin (2 * Real.pi * k / 1024)| ≤ |(r' : Real) - Real.sin (2 * Real.pi * k / 1024)|
end

