-- ==== Sys2Proof/Laws/Decode.lean ====
section
/-! SUPPORT. The words of the instructions, and what the decoder does with a word and with operands, said once. -/

namespace Sys2Proof

/-! ## The words (R105) -/

@[simp] theorem word_nop : Instr.nop.word = 0x0000#16 := rfl

@[simp] theorem word_wtInterp (x : Value) : (Instr.wtInterp x).word = 0x0001#16 := by
  simp [Instr.word, Instr.bBit, Instr.opcode, Opcode.code]

@[simp] theorem word_oscAdvance : Instr.oscAdvance.word = 0x0010#16 := rfl

@[simp] theorem word_oscSetEnable_on : (Instr.oscSetEnable true).word = 0x0111#16 := rfl

@[simp] theorem word_oscSetEnable_off : (Instr.oscSetEnable false).word = 0x0011#16 := rfl

@[simp] theorem word_oscSetPhase (x : Value) : (Instr.oscSetPhase x).word = 0x0012#16 := by
  simp [Instr.word, Instr.bBit, Instr.opcode, Opcode.code]

@[simp] theorem word_mafUpdate (x : Value) : (Instr.mafUpdate x).word = 0x0020#16 := by
  simp [Instr.word, Instr.bBit, Instr.opcode, Opcode.code]

@[simp] theorem word_mafSetCutoff (x : Value) : (Instr.mafSetCutoff x).word = 0x0021#16 := by
  simp [Instr.word, Instr.bBit, Instr.opcode, Opcode.code]

@[simp] theorem word_liaDemod (x : Value) : (Instr.liaDemod x).word = 0x0030#16 := by
  simp [Instr.word, Instr.bBit, Instr.opcode, Opcode.code]

@[simp] theorem word_clStep (x : Value) : (Instr.clStep x).word = 0x0050#16 := by
  simp [Instr.word, Instr.bBit, Instr.opcode, Opcode.code]

/-- The word of a format-S command. -/
theorem word_select {i : Instr} {s : Sel} (h : i.bBit = s.bit) :
    i.word = (0#7 ++ BitVec.ofBool s.bit) ++ i.opcode.code := by
  rw [Instr.word, h]

/-! ## Decoding a word -/

/-- A word whose reserved bits are zero is its bit `B` before its opcode. -/
theorem word_of_fields (w : CmdWord) (h : w.rsv = 0) : w = (0#7 ++ BitVec.ofBool w.b) ++ w.opc := by
  have key : ∀ n : Fin 512,
      BitVec.ofNat 16 n = (0#7 ++ BitVec.ofBool (CmdWord.b (BitVec.ofNat 16 n))) ++ CmdWord.opc (BitVec.ofNat 16 n) := by
    decide +kernel
  have hn : w.toNat < 512 := by
    have h0 : w.rsv.toNat = 0 := by rw [h]; rfl
    simp only [CmdWord.rsv, BitVec.extractLsb'_toNat, Nat.shiftRight_eq_div_pow] at h0
    have := w.isLt
    omega
  have := key ⟨w.toNat, hn⟩
  simpa only [BitVec.ofNat_toNat, BitVec.setWidth_eq] using this

/-- A word that the decoder accepts is its row's opcode with its bit `B`, which is 0 in format P. -/
theorem decodeWord_ok {w : CmdWord} {r : OpcodeRow} {b : Bool} (h : decodeWord w = .ok (r, b)) :
    r ∈ opcodeTable ∧ w = (0#7 ++ BitVec.ofBool b) ++ r.op.code ∧ (r.format = .plain → b = false) := by
  unfold decodeWord at h
  split at h
  · next h0 =>
    split at h
    · cases h
    · next r' hr =>
      have hm := List.mem_of_find?_eq_some hr
      have hp := List.find?_some hr
      split at h
      · cases h
      · next hp' =>
        cases h
        have hc : ∀ r ∈ opcodeTable, r.op.code = r.opc := by decide
        refine ⟨hm, ?_, ?_⟩
        · rw [hc r hm, beq_iff_eq.mp hp]
          exact word_of_fields w h0
        · intro hf
          simpa [hf] using hp'
  · cases h

/-- The row of an opcode. -/
def Opcode.row (op : Opcode) : OpcodeRow :=
  match opcodeTable.find? (fun r => r.op = op) with
  | some r => r
  | none => ⟨0, .nop, .plain, 0, 0⟩

@[simp] theorem row_op (op : Opcode) : op.row.op = op := by cases op <;> rfl

theorem row_mem (op : Opcode) : op.row ∈ opcodeTable := by cases op <;> decide

/-- The map lists every opcode once. -/
theorem row_unique {r : OpcodeRow} (h : r ∈ opcodeTable) : r = r.op.row := by
  revert r
  decide

/-- The decoder accepts an opcode with a bit `B` that its format allows. -/
theorem decodeWord_of_row (op : Opcode) (b : Bool) (h : op.row.format = .plain → b = false) :
    decodeWord ((0#7 ++ BitVec.ofBool b) ++ op.code) = .ok (op.row, b) := by
  revert h
  cases op <;> cases b <;> decide

/-- The bit `B` of a format-P instruction is 0. -/
theorem bBit_plain {i : Instr} (h : i.opcode.row.format = .plain) : i.bBit = false := by
  cases i <;> first | rfl | (exact absurd h (by simp only [Instr.opcode]; decide))

theorem decodeWord_word (i : Instr) : decodeWord i.word = .ok (i.opcode.row, i.bBit) :=
  decodeWord_of_row _ _ bBit_plain

/-! ## The operands -/

/-- An instruction assembled from an opcode and operands has that opcode and those operands, and its bit `B` is the word's unless the
format is P. -/
theorem assemble_some {op : Opcode} {b : Bool} {ops : List Value} {i : Instr} (h : assemble op b ops = some i) :
    i.opcode = op ∧ i.operands = ops ∧ (i.bBit = b ∨ op.row.format = .plain) := by
  unfold assemble at h
  split at h <;> cases h <;> cases b <;> exact ⟨rfl, rfl, by first | exact .inl rfl | exact .inr rfl⟩

/-- An instruction assembles from its own parts. -/
theorem assemble_self (i : Instr) : assemble i.opcode i.bBit i.operands = some i := by
  cases i with
  | pidRun s _ => cases s <;> rfl
  | pidEnable s => cases s <;> rfl
  | pidDisable s => cases s <;> rfl
  | pidHold s => cases s <;> rfl
  | pidReset s => cases s <;> rfl
  | pidIsLimited s => cases s <;> rfl
  | pidSetP s _ => cases s <;> rfl
  | pidSetI s _ => cases s <;> rfl
  | pidSetD s _ => cases s <;> rfl
  | pidSetGains s _ _ _ => cases s <;> rfl
  | pidSetTs s _ => cases s <;> rfl
  | _ => rfl

/-- The operands assemble exactly when there are as many as the row says (R108). -/
theorem assemble_isSome (op : Opcode) (b : Bool) (ops : List Value) :
    (assemble op b ops).isSome = true ↔ ops.length = op.row.operands := by
  rcases ops with _ | ⟨x, _ | ⟨y, _ | ⟨z, _ | ⟨u, t⟩⟩⟩⟩ <;> cases op <;>
    simp [assemble, Opcode.row, opcodeTable]

end Sys2Proof
end

