-- ==== Sys2Proof/Laws/ExactSine.lean ====
section
/-! SUPPORT. The default SINE_TABLE of NUM = Exact holds the real sines (spec/00_scope.md R10). -/

namespace Sys2Proof

theorem real_cosineStep : cosineStep.real = 2 * Real.cos (2 * Real.pi * 1 / 1024) := by
  simp only [cosineStep, Surd.real_ext, Surd.real_rat, Surd.theta]
  push_cast
  rw [zero_add, one_mul, show Real.pi / 2 ^ (7 + 2) = 2 * Real.pi * 1 / 1024 by norm_num; ring]

theorem cosinesFrom_real (n : Nat) (c d : Surd 8) (i : Nat) (hc : c.real = 2 * Real.cos (2 * Real.pi * i / 1024))
    (hd : d.real = 2 * Real.cos (2 * Real.pi * (i + 1) / 1024)) (j : Nat) (hj : j < n) :
    ((cosinesFrom n c d).getD j (.rat 0)).real = 2 * Real.cos (2 * Real.pi * (i + j) / 1024) := by
  induction n generalizing c d i j with
  | zero => omega
  | succ n ih =>
    cases j with
    | zero => simpa [cosinesFrom] using hc
    | succ j =>
      have hs : ((cosineStep.mul d).sub c).real = 2 * Real.cos (2 * Real.pi * ((i + 1 : Nat) + 1) / 1024) := by
        rw [Surd.real_sub, Surd.real_mul, real_cosineStep, hc, hd]
        have e1 : 2 * Real.pi * ((i + 1 : Nat) + 1) / 1024 = 2 * Real.pi * (i + 1) / 1024 + 2 * Real.pi * 1 / 1024 := by
          push_cast; ring
        have e2 : 2 * Real.pi * i / 1024 = 2 * Real.pi * (i + 1) / 1024 - 2 * Real.pi * 1 / 1024 := by ring
        rw [e1, e2, Real.cos_add, Real.cos_sub]
        ring
      have h := ih d _ (i + 1) (by push_cast; exact hd) hs j (by omega)
      rw [cosinesFrom, List.getD_cons_succ, h]
      congr 3
      push_cast
      ring

/-- The exact entry is the real sine. -/
theorem exactSine_real (k : Nat) (hk : k < 1024) : (exactSine k).real = Real.sin (2 * Real.pi * k / 1024) := by
  have h := cosinesFrom_real 768 (.rat 2) cosineStep 0 (by simp) (by simpa using real_cosineStep) ((k - 256) + (256 - k))
    (by omega)
  rw [exactSine, Surd.real_scale, cosines, h]
  have hq : 2 * Real.pi * k / 1024 = Real.pi / 2 - 2 * Real.pi * (256 - k) / 1024 := by ring
  rw [hq, Real.sin_pi_div_two_sub]
  have hhalf : ((mkRat 1 2 : Rat) : ℝ) = 1 / 2 := by rw [Rat.mkRat_eq_div]; norm_num
  rw [hhalf]
  rcases le_total k 256 with h | h
  · have : ((0 : Nat) + ((k - 256 + (256 - k) : Nat) : ℝ)) = 256 - k := by
      rw [Nat.sub_eq_zero_of_le h, Nat.zero_add, Nat.cast_sub h]; push_cast; ring
    rw [this]
    ring
  · have : ((0 : Nat) + ((k - 256 + (256 - k) : Nat) : ℝ)) = -(256 - k) := by
      rw [Nat.sub_eq_zero_of_le h, Nat.add_zero, Nat.cast_sub h]; push_cast; ring
    rw [this, show 2 * Real.pi * -(256 - (k : ℝ)) / 1024 = -(2 * Real.pi * (256 - k) / 1024) by ring, Real.cos_neg]
    ring

/-- Every entry of the exact default table is a value of Exact, and the real sine. -/
theorem exactTable_entry (k : Nat) (hk : k < 1024) :
    ∃ v, (defaultSineTable .exact)[k]? = some v ∧ isOf .exact v = true ∧ v.real = Real.sin (2 * Real.pi * k / 1024) := by
  refine ⟨ofSurd (exactSine k), ?_, isOf_exact_ofSurd (Surd.reduced_scale _ _), ?_⟩
  · simp [defaultSineTable, hk]
  · rw [real_ofSurd, exactSine_real k hk]

/-- The exact default table is one that a reset under Exact loads, whatever the other parameters are. -/
theorem exactTable_wellFormed (C : Nat) (double : Bool) :
    Config.Params.wellFormed ⟨.exact, C, defaultSineTable .exact, double⟩ = true := by
  simp only [Config.Params.wellFormed, List.all_eq_true, defaultSineTable, List.mem_map]
  rintro v ⟨k, -, rfl⟩
  exact isOf_exact_ofSurd (Surd.reduced_scale _ _)

theorem exactTable_length : (defaultSineTable .exact).length = 1024 := by simp [defaultSineTable]

end Sys2Proof
end

