-- ==== Sys2Proof/Laws/State.lean ====
section
/-! SUPPORT. One lemma per field per update of the state, and the double buffers' laws. -/

namespace Sys2Proof.Machine

open Sys2Proof

/-! ## Double buffers -/

@[simp] theorem get_set {α : Type} (t : Two α) (i : Fin 2) (a : α) : (t.set i a).get i = a := by
  fin_cases i <;> rfl

@[simp] theorem get_set_shadow {α : Type} (t : Two α) (i : Fin 2) (a : α) : (t.set (shadow i) a).get i = t.get i := by
  fin_cases i <;> rfl

@[simp] theorem get_shadow_set {α : Type} (t : Two α) (i : Fin 2) (a : α) : (t.set i a).get (shadow i) = t.get (shadow i) := by
  fin_cases i <;> rfl

@[simp] theorem shadow_shadow (i : Fin 2) : shadow (shadow i) = i := by
  fin_cases i <;> rfl

theorem shadow_ne (i : Fin 2) : shadow i ≠ i := by
  fin_cases i <;> decide

/-! ## The selected controller -/

@[simp] theorem pid_fast (s : State) : s.pid .fast = s.pidFast := rfl

@[simp] theorem pid_slow (s : State) : s.pid .slow = s.pidSlow := rfl

@[simp] theorem pid_setPid (s : State) (sel : Sel) (P : Pid) : (s.setPid sel P).pid sel = P := by
  cases sel <;> rfl

theorem pid_setPid_ne (s : State) (sel sel' : Sel) (P : Pid) (h : sel' ≠ sel) : (s.setPid sel P).pid sel' = s.pid sel' := by
  cases sel <;> cases sel' <;> first | rfl | exact absurd rfl h

@[simp] theorem setPid_par (s : State) (sel : Sel) (P : Pid) : (s.setPid sel P).par = s.par := by cases sel <;> rfl

@[simp] theorem setPid_status (s : State) (sel : Sel) (P : Pid) : (s.setPid sel P).status = s.status := by cases sel <;> rfl

@[simp] theorem setPid_wt (s : State) (sel : Sel) (P : Pid) : (s.setPid sel P).wt = s.wt := by cases sel <;> rfl

@[simp] theorem setPid_osc (s : State) (sel : Sel) (P : Pid) : (s.setPid sel P).osc = s.osc := by cases sel <;> rfl

@[simp] theorem setPid_maf (s : State) (sel : Sel) (P : Pid) : (s.setPid sel P).maf = s.maf := by cases sel <;> rfl

@[simp] theorem setPid_loop (s : State) (sel : Sel) (P : Pid) : (s.setPid sel P).loop = s.loop := by cases sel <;> rfl

@[simp] theorem setPid_pending (s : State) (sel : Sel) (P : Pid) : (s.setPid sel P).pending = s.pending := by cases sel <;> rfl

@[simp] theorem setPid_answer (s : State) (sel : Sel) (P : Pid) : (s.setPid sel P).answer = s.answer := by cases sel <;> rfl

@[simp] theorem setPid_free (s : State) (sel : Sel) (P : Pid) : (s.setPid sel P).free = s.free := by cases sel <;> rfl

/-! ## Answers and faults -/

@[simp] theorem answerHalted_par (s : State) : s.answerHalted.par = s.par := rfl

@[simp] theorem answerHalted_status (s : State) : s.answerHalted.status = s.status := rfl

@[simp] theorem answerHalted_wt (s : State) : s.answerHalted.wt = s.wt := rfl

@[simp] theorem answerHalted_osc (s : State) : s.answerHalted.osc = s.osc := rfl

@[simp] theorem answerHalted_maf (s : State) : s.answerHalted.maf = s.maf := rfl

@[simp] theorem answerHalted_pidFast (s : State) : s.answerHalted.pidFast = s.pidFast := rfl

@[simp] theorem answerHalted_pidSlow (s : State) : s.answerHalted.pidSlow = s.pidSlow := rfl

@[simp] theorem answerHalted_loop (s : State) : s.answerHalted.loop = s.loop := rfl

@[simp] theorem answerHalted_pending (s : State) : s.answerHalted.pending = s.pending := rfl

@[simp] theorem answerHalted_free (s : State) : s.answerHalted.free = s.free := rfl

@[simp] theorem answerHalted_answer (s : State) : s.answerHalted.answer = some ⟨.halted, none, none⟩ := rfl

@[simp] theorem answerOk_par (d : Done) : d.answerOk.par = d.state.par := rfl

@[simp] theorem answerOk_status (d : Done) : d.answerOk.status = d.state.status := rfl

@[simp] theorem answerOk_wt (d : Done) : d.answerOk.wt = d.state.wt := rfl

@[simp] theorem answerOk_osc (d : Done) : d.answerOk.osc = d.state.osc := rfl

@[simp] theorem answerOk_maf (d : Done) : d.answerOk.maf = d.state.maf := rfl

@[simp] theorem answerOk_pidFast (d : Done) : d.answerOk.pidFast = d.state.pidFast := rfl

@[simp] theorem answerOk_pidSlow (d : Done) : d.answerOk.pidSlow = d.state.pidSlow := rfl

@[simp] theorem answerOk_loop (d : Done) : d.answerOk.loop = d.state.loop := rfl

@[simp] theorem answerOk_pending (d : Done) : d.answerOk.pending = d.state.pending := rfl

@[simp] theorem answerOk_free (d : Done) : d.answerOk.free = d.state.free := rfl

@[simp] theorem answerOk_answer (d : Done) : d.answerOk.answer = some ⟨.ok, d.res0, d.res1⟩ := rfl

@[simp] theorem faultEntry_par (c : Cause) (info : BitVec 16) (s : State) : (faultEntry c info s).par = s.par := rfl

@[simp] theorem faultEntry_wt (c : Cause) (info : BitVec 16) (s : State) : (faultEntry c info s).wt = s.wt := rfl

@[simp] theorem faultEntry_osc (c : Cause) (info : BitVec 16) (s : State) : (faultEntry c info s).osc = s.osc := rfl

@[simp] theorem faultEntry_maf (c : Cause) (info : BitVec 16) (s : State) : (faultEntry c info s).maf = s.maf := rfl

@[simp] theorem faultEntry_pidFast (c : Cause) (info : BitVec 16) (s : State) : (faultEntry c info s).pidFast = s.pidFast := rfl

@[simp] theorem faultEntry_pidSlow (c : Cause) (info : BitVec 16) (s : State) : (faultEntry c info s).pidSlow = s.pidSlow := rfl

@[simp] theorem faultEntry_loop (c : Cause) (info : BitVec 16) (s : State) : (faultEntry c info s).loop = s.loop := rfl

@[simp] theorem faultEntry_pending (c : Cause) (info : BitVec 16) (s : State) : (faultEntry c info s).pending = s.pending := rfl

@[simp] theorem faultEntry_answer (c : Cause) (info : BitVec 16) (s : State) : (faultEntry c info s).answer = s.answer := rfl

@[simp] theorem faultEntry_free (c : Cause) (info : BitVec 16) (s : State) : (faultEntry c info s).free = s.free := rfl

@[simp] theorem faultEntry_status (c : Cause) (info : BitVec 16) (s : State) : (faultEntry c info s).status = statusWord c info := rfl

@[simp] theorem raiseBy_par (c : Cause) (w : CmdWord) (s : State) : (raiseBy c w s).par = s.par := rfl

@[simp] theorem raiseBy_wt (c : Cause) (w : CmdWord) (s : State) : (raiseBy c w s).wt = s.wt := rfl

@[simp] theorem raiseBy_osc (c : Cause) (w : CmdWord) (s : State) : (raiseBy c w s).osc = s.osc := rfl

@[simp] theorem raiseBy_maf (c : Cause) (w : CmdWord) (s : State) : (raiseBy c w s).maf = s.maf := rfl

@[simp] theorem raiseBy_pidFast (c : Cause) (w : CmdWord) (s : State) : (raiseBy c w s).pidFast = s.pidFast := rfl

@[simp] theorem raiseBy_pidSlow (c : Cause) (w : CmdWord) (s : State) : (raiseBy c w s).pidSlow = s.pidSlow := rfl

@[simp] theorem raiseBy_loop (c : Cause) (w : CmdWord) (s : State) : (raiseBy c w s).loop = s.loop := rfl

@[simp] theorem raiseBy_pending (c : Cause) (w : CmdWord) (s : State) : (raiseBy c w s).pending = s.pending := rfl

@[simp] theorem raiseBy_free (c : Cause) (w : CmdWord) (s : State) : (raiseBy c w s).free = s.free := rfl

@[simp] theorem raiseBy_status (c : Cause) (w : CmdWord) (s : State) : (raiseBy c w s).status = statusWord c w := rfl

@[simp] theorem raiseBy_answer (c : Cause) (w : CmdWord) (s : State) : (raiseBy c w s).answer = some ⟨.halted, none, none⟩ := rfl

/-! ## STATUS -/

@[simp] theorem statusWord_bit0 (c : Cause) (info : BitVec 16) : (statusWord c info).getLsbD 0 = true := by
  rw [statusWord, BitVec.getLsbD_append]
  rfl

@[simp] theorem raiseBy_halted (c : Cause) (w : CmdWord) (s : State) : (raiseBy c w s).halted = true := statusWord_bit0 c w

@[simp] theorem faultEntry_halted (c : Cause) (info : BitVec 16) (s : State) : (faultEntry c info s).halted = true :=
  statusWord_bit0 c info

@[simp] theorem answerHalted_halted (s : State) : s.answerHalted.halted = s.halted := rfl

@[simp] theorem answerOk_halted (d : Done) : d.answerOk.halted = d.state.halted := rfl

@[simp] theorem setPid_halted (s : State) (sel : Sel) (P : Pid) : (s.setPid sel P).halted = s.halted := by cases sel <;> rfl

end Sys2Proof.Machine
end

