-- ==== Sys2Proof/Laws/Ops.lean ====
section
/-! SUPPORT. What each shared operation can do, said once; the provers cite these instead of unfolding the operations. -/

namespace Sys2Proof.Machine

open Sys2Proof

/-! ## Command bodies -/

@[simp] theorem ok_bind {α β : Type} (a : α) (f : α → Except Stop β) : ((Except.ok a : Except Stop α) >>= f) = f a := rfl

@[simp] theorem error_bind {α β : Type} (e : Stop) (f : α → Except Stop β) :
    ((Except.error e : Except Stop α) >>= f) = .error e := rfl

@[simp] theorem pure_ok {α : Type} (a : α) : (pure a : Except Stop α) = .ok a := rfl

@[simp] theorem throw_error {α : Type} (e : Stop) : (throw e : Except Stop α) = .error e := rfl

/-- A body that returns has returned at each of its steps. -/
theorem bind_ok {α β : Type} {x : Except Stop α} {f : α → Except Stop β} {b : β} :
    (x >>= f) = .ok b ↔ ∃ a, x = .ok a ∧ f a = .ok b := by
  cases x with
  | ok a => simp
  | error e => simp

/-- A body that stops has stopped at its first step or after it. -/
theorem bind_error {α β : Type} {x : Except Stop α} {f : α → Except Stop β} {e : Stop} :
    (x >>= f) = .error e ↔ x = .error e ∨ ∃ a, x = .ok a ∧ f a = .error e := by
  cases x with
  | ok a => simp
  | error e' => simp

@[simp] theorem require_true (c : Cause) : require true c = .ok () := rfl

@[simp] theorem require_false (c : Cause) : require false c = .error (.raise c) := rfl

theorem require_ok {b : Bool} {c : Cause} {u : Unit} : require b c = .ok u ↔ b = true := by
  cases b <;> simp

theorem require_error {b : Bool} {c : Cause} {e : Stop} : require b c = .error e ↔ b = false ∧ e = .raise c := by
  cases b <;> simp [eq_comm]

theorem requireFinite_ok {x : Value} {u : Unit} : requireFinite x = .ok u ↔ x.isFinite = true := require_ok

theorem requireFinite_error {x : Value} {e : Stop} :
    requireFinite x = .error e ↔ x.isFinite = false ∧ e = .raise .numericFault := require_error

/-! ## The internal arrays (R82, R83) -/

/-- A read returns the element, for an index inside the array and for no other. -/
theorem memRead_ok {space : List Value} {i : Int} {v : Value} :
    memRead space i = .ok v ↔ 0 ≤ i ∧ space[i.toNat]? = some v := by
  unfold memRead
  split
  · next h =>
    split
    · next w hw => simp [h, hw]
    · next hw => simp [hw]
  · next h => simp [h]

/-- A read that stops is one outside the array. -/
theorem memRead_error {space : List Value} {i : Int} {e : Stop} :
    memRead space i = .error e ↔ (i < 0 ∨ (space.length : Int) ≤ i) ∧ e = .departed .indexOutOfRange := by
  unfold memRead
  split
  · next h =>
    split
    · next w hw =>
      have := (List.getElem?_eq_some_iff.mp hw).1
      simp only [reduceCtorEq, false_iff]
      omega
    · next hw =>
      have := List.getElem?_eq_none_iff.mp hw
      simp only [Except.error.injEq]
      constructor
      · intro he; exact ⟨by omega, he.symm⟩
      · intro he; exact he.2.symm
  · next h =>
    simp only [Except.error.injEq]
    constructor
    · intro he; exact ⟨by omega, he.symm⟩
    · intro he; exact he.2.symm

/-- A write sets its element, for an index inside the array and for no other. -/
theorem memWrite_ok {buf buf' : List Value} {i : Nat} {v : Value} :
    memWrite buf i v = .ok buf' ↔ i < buf.length ∧ buf' = buf.set i v := by
  unfold memWrite
  split
  · next h => simp [h, eq_comm]
  · next h => simp [h]

/-- A write keeps the array's size (R96). -/
theorem memWrite_length {buf buf' : List Value} {i : Nat} {v : Value} (h : memWrite buf i v = .ok buf') :
    buf'.length = buf.length := by
  rw [(memWrite_ok.mp h).2, List.length_set]

/-- A write reads back. -/
theorem memRead_memWrite_same {buf buf' : List Value} {i : Nat} {v : Value} (h : memWrite buf i v = .ok buf') :
    memRead buf' i = .ok v := by
  obtain ⟨hi, rfl⟩ := memWrite_ok.mp h
  exact memRead_ok.mpr ⟨by omega, by simp [hi]⟩

/-- A write leaves every other element alone. -/
theorem memRead_memWrite_other {buf buf' : List Value} {i : Nat} {j : Int} {v : Value} (h : memWrite buf i v = .ok buf')
    (hj : j ≠ i) : memRead buf' j = memRead buf j := by
  obtain ⟨hi, rfl⟩ := memWrite_ok.mp h
  unfold memRead
  split
  · next h0 =>
    rw [List.getElem?_set_ne (by omega)]
  · rfl

/-! ## A command's transaction -/

/-- What a transaction can answer: HALTED while halted; its body's results; a fault raised by its body. -/
theorem transact_next {w : CmdWord} {s t : State} {body : Except Stop Done} (h : transact w s body = .next t) :
    (s.halted = true ∧ t = s.answerHalted) ∨
    (s.halted = false ∧ ∃ d, body = .ok d ∧ t = d.answerOk) ∨
    (s.halted = false ∧ ∃ c, body = .error (.raise c) ∧ t = raiseBy c w s) := by
  unfold transact at h
  split at h
  · next hh => cases h; exact .inl ⟨hh, rfl⟩
  · next hh =>
    have hh' : s.halted = false := by simpa using hh
    split at h
    · next d => cases h; exact .inr (.inl ⟨hh', d, rfl, rfl⟩)
    · next c => cases h; exact .inr (.inr ⟨hh', c, rfl, rfl⟩)
    · cases h

/-- A transaction stops only where its body has departed from the rules. -/
theorem transact_fault {w : CmdWord} {s : State} {body : Except Stop Done} {f : Fault} (h : transact w s body = .fault f) :
    s.halted = false ∧ body = .error (.departed f) := by
  unfold transact at h
  split at h
  · cases h
  · next hh =>
    split at h
    · cases h
    · cases h
    · cases h; exact ⟨by simpa using hh, rfl⟩

@[simp] theorem transact_ok (w : CmdWord) (s : State) (d : Done) (h : s.halted = false) :
    transact w s (.ok d) = .next d.answerOk := by
  simp [transact, h]

@[simp] theorem transact_raise (w : CmdWord) (s : State) (c : Cause) (h : s.halted = false) :
    transact w s (.error (.raise c)) = .next (raiseBy c w s) := by
  simp [transact, h]

theorem transact_halted (w : CmdWord) (s : State) (body : Except Stop Done) (h : s.halted = true) :
    transact w s body = .next s.answerHalted := by
  simp [transact, h]

/-- Every instruction is a transaction with its own word. -/
theorem exec_transact (i : Instr) (s : State) : ∃ body, exec i s = transact i.word s body := by
  cases i <;>
    simp only [exec, execNop, execWtInterp, execOscAdvance, execOscSetEnable, execOscSetPhase, execMafUpdate,
      execMafSetCutoff, execLiaDemod, execPidRun, execPidEnable, execPidDisable, execPidHold, execPidReset,
      execPidIsLimited, execPidSetP, execPidSetI, execPidSetD, execPidSetGains, execPidSetTs, execClStep] <;>
    exact ⟨_, rfl⟩

/-- No instruction is refused. -/
theorem exec_not_refused (i : Instr) (s : State) (r : Refusal) : exec i s ≠ .refused r := by
  obtain ⟨body, h⟩ := exec_transact i s
  rw [h]
  unfold transact
  split
  · simp
  · split <;> simp

end Sys2Proof.Machine
end

