-- ==== Sys2Proof/Laws/Families.lean ====
section
/-! SUPPORT. What each primitive returns when it returns, said once: the interpolation, the oscillator's advance, the filter update, the
demodulation, the PID run, the coefficient update. -/

namespace Sys2Proof.Machine

open Sys2Proof

/-! ## Interpolation (R141) -/

theorem interp_negative {fmt : NumFormat} {wt : List Value} {x : Value} (h : x.lt (.fin 0) = true) :
    interp fmt wt x = .ok (.fin 0) := by
  simp [interp, h]

theorem interp_inside {fmt : NumFormat} {wt : List Value} {x a b : Value} (h0 : x.lt (.fin 0) = false)
    (h1 : x.lt (toNum fmt (Config.L - 1)) = true) (ha : memRead wt x.floor = .ok a)
    (hb : memRead wt (x.floor + 1) = .ok b) :
    interp fmt wt x = .ok (slope fmt a b (Value.sub fmt x (toNum fmt x.floor))) := by
  simp only [interp, h0, h1, ha, hb]
  rfl

theorem interp_boundary {fmt : NumFormat} {wt : List Value} {x a b : Value} (h0 : x.lt (.fin 0) = false)
    (h1 : x.lt (toNum fmt (Config.L - 1)) = false) (ha : memRead wt (Config.L - 1) = .ok a) (hb : memRead wt 0 = .ok b) :
    interp fmt wt x = .ok (slope fmt a b (Value.sub fmt x (toNum fmt (Config.L - 1)))) := by
  simp only [interp, h0, h1, ha, hb]
  rfl

/-- The three ways an interpolation returns. -/
theorem interp_ok {fmt : NumFormat} {wt : List Value} {x v : Value} (h : interp fmt wt x = .ok v) :
    (x.lt (.fin 0) = true ∧ v = .fin 0) ∨
    (x.lt (.fin 0) = false ∧ x.lt (toNum fmt (Config.L - 1)) = true ∧
      ∃ a b, memRead wt x.floor = .ok a ∧ memRead wt (x.floor + 1) = .ok b ∧
        v = slope fmt a b (Value.sub fmt x (toNum fmt x.floor))) ∨
    (x.lt (.fin 0) = false ∧ x.lt (toNum fmt (Config.L - 1)) = false ∧
      ∃ a b, memRead wt (Config.L - 1) = .ok a ∧ memRead wt 0 = .ok b ∧
        v = slope fmt a b (Value.sub fmt x (toNum fmt (Config.L - 1)))) := by
  unfold interp at h
  split at h
  · next h0 => cases h; exact .inl ⟨h0, rfl⟩
  · next h0 =>
    split at h
    · next h1 =>
      obtain ⟨a, ha, h⟩ := bind_ok.mp h
      obtain ⟨b, hb, h⟩ := bind_ok.mp h
      cases h
      exact .inr (.inl ⟨by simpa using h0, h1, a, b, ha, hb, rfl⟩)
    · next h1 =>
      obtain ⟨a, ha, h⟩ := bind_ok.mp h
      obtain ⟨b, hb, h⟩ := bind_ok.mp h
      cases h
      exact .inr (.inr ⟨by simpa using h0, by simpa using h1, a, b, ha, hb, rfl⟩)

/-! ## Oscillator (R161 to R166) -/

theorem oscAdvance_ok {fmt : NumFormat} {wt : List Value} {o o' : Osc} {yp ys : Value} :
    oscAdvance fmt wt o = .ok (o', yp, ys) ↔
      (1 ≤ o.G ∧ o.G ≤ o.W) ∧ o' = oscStepped o ∧
      oscOutputs fmt wt o (oscStepped o).accP (oscStepped o).accS = .ok (yp, ys) ∧
      yp.isFinite = true ∧ ys.isFinite = true := by
  unfold oscAdvance
  split
  · next hw =>
    simp only [bind_ok, require_ok, Bool.and_eq_true, pure_ok, Except.ok.injEq, Prod.mk.injEq, Prod.exists]
    constructor
    · rintro ⟨a, b, ho, -, hf, rfl, rfl, rfl⟩
      exact ⟨hw, rfl, ho, hf.1, hf.2⟩
    · rintro ⟨-, rfl, ho, hp, hs⟩
      exact ⟨yp, ys, ho, (), ⟨hp, hs⟩, rfl, rfl, rfl⟩
  · next hw => simp [hw]

theorem oscOutputs_disabled {fmt : NumFormat} {wt : List Value} {o : Osc} {ap as : Int} (h : o.en = false) :
    oscOutputs fmt wt o ap as = .ok (.fin 0, .fin 0) := by
  simp [oscOutputs, h]

theorem oscOutputs_enabled {fmt : NumFormat} {wt : List Value} {o : Osc} {ap as : Int} {yp ys : Value} (h : o.en = true) :
    oscOutputs fmt wt o ap as = .ok (yp, ys) ↔
      interp fmt wt (tablePosition fmt o.W o.G ap) = .ok yp ∧
      ∃ y, interp fmt wt (tablePosition fmt o.W o.G as) = .ok y ∧
        ys = Value.add fmt (Value.mul fmt y o.amp) o.off := by
  simp only [oscOutputs, h, if_true, bind_ok, pure_ok, Except.ok.injEq, Prod.mk.injEq]
  constructor
  · rintro ⟨a, ha, b, hb, rfl, rfl⟩
    exact ⟨ha, b, hb, rfl⟩
  · rintro ⟨ha, b, hb, rfl⟩
    exact ⟨yp, ha, b, hb, rfl, rfl⟩

/-! ## Filter (R190) -/

theorem mafUpdate_ok {fmt : NumFormat} {C : Nat} {m m' : Maf} {x y : Value} :
    mafUpdate fmt C m x = .ok (m', y) ↔
      ∃ old, memRead m.buf m.cur = .ok old ∧
        (1 ≤ windowOf fmt m.fs m.fc ∧ windowOf fmt m.fs m.fc ≤ C) ∧
        (Value.add fmt (Value.sub fmt m.sum old) x).isFinite = true ∧ y.isFinite = true ∧ m.cur < m.buf.length ∧
        y = Value.div fmt (Value.add fmt (Value.sub fmt m.sum old) x) (toNum fmt (windowOf fmt m.fs m.fc)) ∧
        m' = { m with
          buf := m.buf.set m.cur x
          sum := Value.add fmt (Value.sub fmt m.sum old) x
          N := (windowOf fmt m.fs m.fc).toNat
          cur := (m.cur + 1) % (windowOf fmt m.fs m.fc).toNat } := by
  unfold mafUpdate
  rw [bind_ok]
  constructor
  · rintro ⟨old, ho, h⟩
    dsimp only at h
    split at h
    · next hw =>
      simp only [bind_ok, require_ok, Bool.and_eq_true, pure_ok, Except.ok.injEq, Prod.mk.injEq, memWrite_ok] at h
      obtain ⟨-, ⟨h1, h2⟩, b, ⟨hb, rfl⟩, rfl, rfl⟩ := h
      exact ⟨old, ho, hw, h1, h2, hb, rfl, rfl⟩
    · next hw => simp at h
  · rintro ⟨old, ho, hw, h1, h2, hb, rfl, rfl⟩
    refine ⟨old, ho, ?_⟩
    dsimp only
    rw [if_pos hw]
    simp only [bind_ok, require_ok, Bool.and_eq_true, pure_ok, memWrite_ok]
    exact ⟨(), ⟨h1, h2⟩, _, ⟨hb, rfl⟩, rfl⟩

/-! ## Lock-in (R211) -/

theorem liaDemod_ok {par : Config.Params} {wt : List Value} {o o' : Osc} {m m' : Maf} {e y : Value} :
    liaDemod par wt o m e = .ok (o', m', y) ↔
      e.isFinite = true ∧ ∃ yp ys, oscAdvance par.num wt o = .ok (o', yp, ys) ∧
        (Value.mul par.num e ys).isFinite = true ∧
        mafUpdate par.num par.capacity m (Value.mul par.num e ys) = .ok (m', y) := by
  simp only [liaDemod, bind_ok, requireFinite_ok, pure_ok, Except.ok.injEq, Prod.mk.injEq, Prod.exists]
  constructor
  · rintro ⟨-, he, a, b, c, h1, -, h2, d, f, h3, rfl, rfl, rfl⟩
    exact ⟨he, b, c, h1, h2, h3⟩
  · rintro ⟨he, b, c, h1, h2, h3⟩
    exact ⟨(), he, o', b, c, h1, (), h2, m', y, h3, rfl, rfl, rfl⟩

/-! ## PID run (R224) -/

theorem pidRun_frozen {fmt : NumFormat} {P : Pid} {e : Value} (he : e.isFinite = true) (hf : P.frozen = true) :
    pidRun fmt P e = .ok (P, P.cv) := by
  simp [pidRun, requireFinite, he, hf]

/-- The controller after an unfrozen run. -/
def pidRan (fmt : NumFormat) (P : Pid) (e : Value) : Pid :=
  let I := nextIntegrator fmt P e
  let cv := clamp (rawOutput fmt P I e) P.min P.max
  { P with
    dly := P.dly.set P.ad { integ := I, perr := e, psat := Value.sub fmt cv (rawOutput fmt P I e), pic := P.activeCoef.ic }
    cv := cv }

theorem pidRun_ok {fmt : NumFormat} {P P' : Pid} {e v : Value} :
    pidRun fmt P e = .ok (P', v) ↔
      e.isFinite = true ∧
      ((P.frozen = true ∧ P' = P ∧ v = P.cv) ∨
        (P.frozen = false ∧ (nextIntegrator fmt P e).isFinite = true ∧ (pidRan fmt P e).cv.isFinite = true ∧
          (pidRan fmt P e).activeDly.psat.isFinite = true ∧ P' = pidRan fmt P e ∧ v = (pidRan fmt P e).cv)) := by
  have hp : (pidRan fmt P e).activeDly.psat =
      Value.sub fmt (pidRan fmt P e).cv (rawOutput fmt P (nextIntegrator fmt P e) e) := by
    simp [pidRan, Pid.activeDly]
  rw [hp]
  unfold pidRun
  simp only [bind_ok, requireFinite_ok]
  constructor
  · rintro ⟨-, he, h⟩
    split at h
    · next hf => simp only [pure_ok, Except.ok.injEq, Prod.mk.injEq] at h; exact ⟨he, .inl ⟨hf, h.1.symm, h.2.symm⟩⟩
    · next hf =>
      simp only [bind_ok, require_ok, Bool.and_eq_true, pure_ok, Except.ok.injEq, Prod.mk.injEq] at h
      obtain ⟨-, ⟨⟨h1, h2⟩, h3⟩, rfl, rfl⟩ := h
      exact ⟨he, .inr ⟨by simpa using hf, h1, h2, h3, rfl, rfl⟩⟩
  · rintro ⟨he, ⟨hf, rfl, rfl⟩ | ⟨hf, h1, h2, h3, rfl, rfl⟩⟩
    · exact ⟨(), he, by simp [hf]⟩
    · refine ⟨(), he, ?_⟩
      rw [if_neg (by simp [hf])]
      simp only [bind_ok, require_ok, Bool.and_eq_true]
      exact ⟨(), ⟨⟨h1, h2⟩, h3⟩, rfl⟩

/-! ## Coefficient update (R238) -/

theorem recomputeCoef_ok {fmt : NumFormat} {P P' : Pid} {p i d Ts : Value} :
    recomputeCoef fmt P p i d Ts = .ok P' ↔
      (coefs fmt p i d Ts).finite = true ∧
      P' = { P with coef := P.coef.set (shadow P.ac) (coefs fmt p i d Ts), ac := shadow P.ac } := by
  simp only [recomputeCoef, bind_ok, require_ok, pure_ok, Except.ok.injEq]
  constructor
  · rintro ⟨-, h, rfl⟩; exact ⟨h, rfl⟩
  · rintro ⟨h, rfl⟩; exact ⟨(), h, rfl⟩

/-- After an update the active coefficient set is the new one, whole. -/
theorem recomputeCoef_active {fmt : NumFormat} {P P' : Pid} {p i d Ts : Value} (h : recomputeCoef fmt P p i d Ts = .ok P') :
    P'.activeCoef = coefs fmt p i d Ts := by
  obtain ⟨-, rfl⟩ := recomputeCoef_ok.mp h
  simp [Pid.activeCoef]

/-- After a delay reset the active delay set is zero. -/
theorem resetDelay_active (P : Pid) : (resetDelay P).activeDly = zeroDelay := by
  simp [resetDelay, Pid.activeDly]

end Sys2Proof.Machine
end

