-- ==== Sys2Proof/Laws/Exec.lean ====
section
/-! SUPPORT. What an instruction and a step can do, said once: every later proof about a next state goes through `exec_next` and
`step_next` and unfolds no meaning. -/

namespace Sys2Proof.Machine

open Sys2Proof

/-! ## Causes that a body raises -/

/-- The command bodies raise CONFIG_ERROR and NUMERIC_FAULT only (R304, R305). -/
def Raises {α : Type} (x : Except Stop α) : Prop :=
  ∀ c, x = .error (.raise c) → c = .configError ∨ c = .numericFault

theorem raises_bind {α β : Type} {x : Except Stop α} {f : α → Except Stop β} (hx : Raises x) (hf : ∀ a, Raises (f a)) :
    Raises (x >>= f) := by
  intro c h
  rcases bind_error.mp h with h | ⟨a, -, h⟩
  · exact hx c h
  · exact hf a c h

theorem raises_ok {α : Type} (a : α) : Raises (.ok a : Except Stop α) := by
  intro c h; cases h

theorem raises_departed {α : Type} (f : Fault) : Raises (.error (.departed f) : Except Stop α) := by
  intro c h; cases h

theorem raises_require (b : Bool) {c : Cause} (h : c = .configError ∨ c = .numericFault) : Raises (require b c) := by
  intro c' h'
  cases b with
  | true => cases h'
  | false => cases h'; exact h

theorem raises_requireFinite (x : Value) : Raises (requireFinite x) := raises_require _ (.inr rfl)

theorem raises_memRead (a : List Value) (i : Int) : Raises (memRead a i) := by
  intro c h
  cases (memRead_error.mp h).2

theorem raises_memWrite (a : List Value) (i : Nat) (v : Value) : Raises (memWrite a i v) := by
  intro c h
  unfold memWrite at h
  split at h <;> cases h

theorem raises_interp (fmt : NumFormat) (wt : List Value) (x : Value) : Raises (interp fmt wt x) := by
  unfold interp
  split
  · exact raises_ok _
  · split <;> exact raises_bind (raises_memRead _ _) fun _ => raises_bind (raises_memRead _ _) fun _ => raises_ok _

theorem raises_oscAdvance (fmt : NumFormat) (wt : List Value) (o : Osc) : Raises (oscAdvance fmt wt o) := by
  unfold oscAdvance
  split
  · refine raises_bind ?_ fun _ => raises_bind (raises_require _ (.inr rfl)) fun _ => raises_ok _
    unfold oscOutputs
    split
    · exact raises_bind (raises_interp _ _ _) fun _ => raises_bind (raises_interp _ _ _) fun _ => raises_ok _
    · exact raises_ok _
  · exact raises_departed _

theorem raises_mafUpdate (fmt : NumFormat) (C : Nat) (m : Maf) (x : Value) : Raises (mafUpdate fmt C m x) := by
  unfold mafUpdate
  refine raises_bind (raises_memRead _ _) fun _ => ?_
  dsimp only
  split
  · exact raises_bind (raises_require _ (.inr rfl)) fun _ => raises_bind (raises_memWrite _ _ _) fun _ => raises_ok _
  · exact raises_departed _

theorem raises_liaDemod (par : Config.Params) (wt : List Value) (o : Osc) (m : Maf) (e : Value) :
    Raises (liaDemod par wt o m e) :=
  raises_bind (raises_requireFinite _) fun _ => raises_bind (raises_oscAdvance _ _ _) fun _ =>
    raises_bind (raises_requireFinite _) fun _ => raises_bind (raises_mafUpdate _ _ _ _) fun _ => raises_ok _

theorem raises_pidRun (fmt : NumFormat) (P : Pid) (e : Value) : Raises (pidRun fmt P e) := by
  unfold pidRun
  refine raises_bind (raises_requireFinite _) fun _ => ?_
  split
  · exact raises_ok _
  · exact raises_bind (raises_require _ (.inr rfl)) fun _ => raises_ok _

theorem raises_recomputeCoef (fmt : NumFormat) (P : Pid) (p i d Ts : Value) : Raises (recomputeCoef fmt P p i d Ts) :=
  raises_bind (raises_require _ (.inr rfl)) fun _ => raises_ok _

/-! ## What a command leaves and returns -/

/-- The controller after a coefficient update (R238). -/
def recomputed (fmt : NumFormat) (P : Pid) (p i d Ts : Value) : Pid :=
  { P with coef := P.coef.set (shadow P.ac) (coefs fmt p i d Ts), ac := shadow P.ac }

/-- What a command leaves and returns when it completes, one line per command: everything that can happen. -/
def Effect (i : Instr) (s : State) (d : Done) : Prop :=
  match i with
  | .nop => d = done0 s
  | .wtInterp x =>
    x.isFinite = true ∧ ∃ v, interp s.par.num s.wt x = .ok v ∧ v.isFinite = true ∧ d = done1 s v
  | .oscAdvance =>
    ∃ o yp ys, oscAdvance s.par.num s.wt s.osc = .ok (o, yp, ys) ∧ d = done2 { s with osc := o } yp ys
  | .oscSetEnable en => d = done0 { s with osc := { s.osc with en := en } }
  | .oscSetPhase phi =>
    phi.isFinite = true ∧ ∃ step, detuneOf s.par.num phi s.osc.phaseSeen s.osc.W = some step ∧
      d = done0 { s with osc := { s.osc with phaseCfg := phi, detune := step } }
  | .mafUpdate x =>
    x.isFinite = true ∧ ∃ m y, mafUpdate s.par.num s.par.capacity s.maf x = .ok (m, y) ∧ d = done1 { s with maf := m } y
  | .mafSetCutoff fc =>
    fc.isFinite = true ∧ positive fc = true ∧
      roundsWithin (Value.div s.par.num s.maf.fs fc) 1 s.par.capacity = true ∧
      d = done0 { s with maf := { s.maf with fc := fc } }
  | .liaDemod e =>
    ∃ o m y, liaDemod s.par s.wt s.osc s.maf e = .ok (o, m, y) ∧ d = done1 { s with osc := o, maf := m } y
  | .pidRun sel e => ∃ P v, pidRun s.par.num (s.pid sel) e = .ok (P, v) ∧ d = done1 (s.setPid sel P) v
  | .pidEnable sel => d = done0 (s.setPid sel (pidEvent .enable (s.pid sel)))
  | .pidDisable sel => d = done0 (s.setPid sel (pidEvent .disable (s.pid sel)))
  | .pidHold sel => d = done0 (s.setPid sel (pidEvent .hold (s.pid sel)))
  | .pidReset sel => d = done0 (s.setPid sel (pidEvent .reset (s.pid sel)))
  | .pidIsLimited sel => d = ⟨s, some (.bool (s.pid sel).limited), none⟩
  | .pidSetP sel p =>
    p.isFinite = true ∧ (coefs s.par.num p (s.pid sel).i (s.pid sel).d (s.pid sel).Ts).finite = true ∧
      d = done0 (s.setPid sel
        { recomputed s.par.num (s.pid sel) p (s.pid sel).i (s.pid sel).d (s.pid sel).Ts with p := p })
  | .pidSetI sel i =>
    i.isFinite = true ∧ (coefs s.par.num (s.pid sel).p i (s.pid sel).d (s.pid sel).Ts).finite = true ∧
      d = done0 (s.setPid sel
        { recomputed s.par.num (s.pid sel) (s.pid sel).p i (s.pid sel).d (s.pid sel).Ts with i := i })
  | .pidSetD sel x =>
    x.isFinite = true ∧ (coefs s.par.num (s.pid sel).p (s.pid sel).i x (s.pid sel).Ts).finite = true ∧
      d = done0 (s.setPid sel
        { recomputed s.par.num (s.pid sel) (s.pid sel).p (s.pid sel).i x (s.pid sel).Ts with d := x })
  | .pidSetGains sel p i x =>
    (p.isFinite = true ∧ i.isFinite = true ∧ x.isFinite = true) ∧
      (coefs s.par.num p i x (s.pid sel).Ts).finite = true ∧
      d = done0 (s.setPid sel { recomputed s.par.num (s.pid sel) p i x (s.pid sel).Ts with p := p, i := i, d := x })
  | .pidSetTs sel ts =>
    ts.isFinite = true ∧ positive ts = true ∧
      (coefs s.par.num (s.pid sel).p (s.pid sel).i (s.pid sel).d ts).finite = true ∧
      d = done0 (s.setPid sel
        { recomputed s.par.num (s.pid sel) (s.pid sel).p (s.pid sel).i (s.pid sel).d ts with Ts := ts })
  | .clStep e =>
    ∃ o m y pf fast, liaDemod s.par s.wt s.osc s.maf e = .ok (o, m, y) ∧ pidRun s.par.num s.pidFast e = .ok (pf, fast) ∧
      ((s.loop.tick + 1 < s.loop.countlim ∧ ∃ ps slow, pidRun s.par.num s.pidSlow e = .ok (ps, slow) ∧
          d = done2
            { s with
              osc := o, maf := m, pidFast := pf, pidSlow := ps
              loop := { s.loop with tick := tickAfterRun s.par.doubleIncrement (s.loop.tick + 1), slowLast := slow } }
            slow fast) ∨
        (s.loop.countlim ≤ s.loop.tick + 1 ∧
          d = done2 { s with osc := o, maf := m, pidFast := pf, loop := { s.loop with tick := 0 } } s.loop.slowLast fast))

/-- The body of every command: a transaction with the command's word, which completes exactly with the command's effect and raises only
CONFIG_ERROR and NUMERIC_FAULT. -/
theorem exec_body (i : Instr) (s : State) :
    ∃ body, exec i s = transact i.word s body ∧ Raises body ∧ ∀ d, body = .ok d ↔ Effect i s d := by
  cases i with
  | nop => exact ⟨_, rfl, raises_ok _, fun d => by simp [Effect, eq_comm]⟩
  | wtInterp x =>
    refine ⟨_, rfl, raises_bind (raises_requireFinite _) fun _ => raises_bind (raises_interp _ _ _) fun _ =>
      raises_bind (raises_requireFinite _) fun _ => raises_ok _, fun d => ?_⟩
    simp only [Effect, bind_ok, requireFinite_ok, pure_ok, Except.ok.injEq, exists_and_left, exists_const, @eq_comm _ _ d]
  | oscAdvance =>
    refine ⟨_, rfl, raises_bind (raises_oscAdvance _ _ _) fun _ => raises_ok _, fun d => ?_⟩
    simp only [Effect, bind_ok, pure_ok, Except.ok.injEq, Prod.exists, @eq_comm _ _ d]
  | oscSetEnable en => exact ⟨_, rfl, raises_ok _, fun d => by simp [Effect, eq_comm]⟩
  | oscSetPhase phi =>
    refine ⟨_, rfl, raises_bind (raises_requireFinite _) fun _ => ?_, fun d => ?_⟩
    · split
      · intro c h; cases h; exact .inr rfl
      · exact raises_ok _
    · simp only [Effect, bind_ok, requireFinite_ok, exists_and_left, exists_const]
      refine and_congr_right fun _ => ?_
      cases detuneOf s.par.num phi s.osc.phaseSeen s.osc.W <;> simp [eq_comm]
  | mafUpdate x =>
    refine ⟨_, rfl, raises_bind (raises_requireFinite _) fun _ => raises_bind (raises_mafUpdate _ _ _ _) fun _ =>
      raises_ok _, fun d => ?_⟩
    simp only [Effect, bind_ok, requireFinite_ok, pure_ok, Except.ok.injEq, exists_and_left, exists_const, Prod.exists,
      @eq_comm _ _ d]
  | mafSetCutoff fc =>
    refine ⟨_, rfl, raises_bind (raises_requireFinite _) fun _ => raises_bind (raises_require _ (.inl rfl)) fun _ =>
      raises_bind (raises_require _ (.inl rfl)) fun _ => raises_ok _, fun d => ?_⟩
    simp only [Effect, bind_ok, requireFinite_ok, require_ok, pure_ok, Except.ok.injEq, exists_and_left, exists_const,
      @eq_comm _ _ d]
  | liaDemod e =>
    refine ⟨_, rfl, raises_bind (raises_liaDemod _ _ _ _ _) fun _ => raises_ok _, fun d => ?_⟩
    simp only [Effect, bind_ok, pure_ok, Except.ok.injEq, Prod.exists, @eq_comm _ _ d]
  | pidRun sel e =>
    refine ⟨_, rfl, raises_bind (raises_pidRun _ _ _) fun _ => raises_ok _, fun d => ?_⟩
    simp only [Effect, bind_ok, pure_ok, Except.ok.injEq, Prod.exists, @eq_comm _ _ d]
  | pidEnable sel => exact ⟨_, rfl, raises_ok _, fun d => by simp [Effect, eq_comm]⟩
  | pidDisable sel => exact ⟨_, rfl, raises_ok _, fun d => by simp [Effect, eq_comm]⟩
  | pidHold sel => exact ⟨_, rfl, raises_ok _, fun d => by simp [Effect, eq_comm]⟩
  | pidReset sel => exact ⟨_, rfl, raises_ok _, fun d => by simp [Effect, eq_comm]⟩
  | pidIsLimited sel => exact ⟨_, rfl, raises_ok _, fun d => by simp [Effect, eq_comm]⟩
  | pidSetP sel p =>
    refine ⟨_, rfl, raises_bind (raises_requireFinite _) fun _ => raises_bind (raises_recomputeCoef _ _ _ _ _ _) fun _ =>
      raises_ok _, fun d => ?_⟩
    simp only [bind_ok, requireFinite_ok, recomputeCoef_ok, pure_ok, Except.ok.injEq]
    exact ⟨fun ⟨_, h1, _, ⟨h2, rfl⟩, h3⟩ => ⟨h1, h2, h3.symm⟩, fun ⟨h1, h2, h3⟩ => ⟨(), h1, _, ⟨h2, rfl⟩, h3.symm⟩⟩
  | pidSetI sel i =>
    refine ⟨_, rfl, raises_bind (raises_requireFinite _) fun _ => raises_bind (raises_recomputeCoef _ _ _ _ _ _) fun _ =>
      raises_ok _, fun d => ?_⟩
    simp only [bind_ok, requireFinite_ok, recomputeCoef_ok, pure_ok, Except.ok.injEq]
    exact ⟨fun ⟨_, h1, _, ⟨h2, rfl⟩, h3⟩ => ⟨h1, h2, h3.symm⟩, fun ⟨h1, h2, h3⟩ => ⟨(), h1, _, ⟨h2, rfl⟩, h3.symm⟩⟩
  | pidSetD sel x =>
    refine ⟨_, rfl, raises_bind (raises_requireFinite _) fun _ => raises_bind (raises_recomputeCoef _ _ _ _ _ _) fun _ =>
      raises_ok _, fun d => ?_⟩
    simp only [bind_ok, requireFinite_ok, recomputeCoef_ok, pure_ok, Except.ok.injEq]
    exact ⟨fun ⟨_, h1, _, ⟨h2, rfl⟩, h3⟩ => ⟨h1, h2, h3.symm⟩, fun ⟨h1, h2, h3⟩ => ⟨(), h1, _, ⟨h2, rfl⟩, h3.symm⟩⟩
  | pidSetGains sel p i x =>
    refine ⟨_, rfl, raises_bind (raises_requireFinite _) fun _ => raises_bind (raises_requireFinite _) fun _ =>
      raises_bind (raises_requireFinite _) fun _ => raises_bind (raises_recomputeCoef _ _ _ _ _ _) fun _ =>
      raises_ok _, fun d => ?_⟩
    simp only [bind_ok, requireFinite_ok, recomputeCoef_ok, pure_ok, Except.ok.injEq]
    exact ⟨fun ⟨_, h1, _, h2, _, h3, _, ⟨h4, rfl⟩, h5⟩ => ⟨⟨h1, h2, h3⟩, h4, h5.symm⟩,
      fun ⟨⟨h1, h2, h3⟩, h4, h5⟩ => ⟨(), h1, (), h2, (), h3, _, ⟨h4, rfl⟩, h5.symm⟩⟩
  | pidSetTs sel ts =>
    refine ⟨_, rfl, raises_bind (raises_requireFinite _) fun _ => raises_bind (raises_require _ (.inl rfl)) fun _ =>
      raises_bind (raises_recomputeCoef _ _ _ _ _ _) fun _ => raises_ok _, fun d => ?_⟩
    simp only [bind_ok, requireFinite_ok, require_ok, recomputeCoef_ok, pure_ok, Except.ok.injEq]
    exact ⟨fun ⟨_, h1, _, h2, _, ⟨h3, rfl⟩, h4⟩ => ⟨h1, h2, h3, h4.symm⟩,
      fun ⟨h1, h2, h3, h4⟩ => ⟨(), h1, (), h2, _, ⟨h3, rfl⟩, h4.symm⟩⟩
  | clStep e =>
    refine ⟨_, rfl, raises_bind (raises_requireFinite _) fun _ => raises_bind (raises_liaDemod _ _ _ _ _) fun _ =>
      raises_bind (raises_pidRun _ _ _) fun _ => ?_, fun d => ?_⟩
    · dsimp only
      split
      · exact raises_bind (raises_pidRun _ _ _) fun _ => raises_ok _
      · exact raises_ok _
    · simp only [bind_ok, requireFinite_ok, Prod.exists]
      constructor
      · rintro ⟨-, he, o, m, y, hl, pf, fast, hf, h⟩
        refine ⟨o, m, y, pf, fast, hl, hf, ?_⟩
        split at h
        · next ht =>
          obtain ⟨⟨ps, slow⟩, hp, h⟩ := bind_ok.mp h
          cases h
          exact .inl ⟨ht, ps, slow, hp, rfl⟩
        · next ht => cases h; exact .inr ⟨by omega, rfl⟩
      · rintro ⟨o, m, y, pf, fast, hl, hf, h⟩
        refine ⟨(), (liaDemod_ok.mp hl).1, o, m, y, hl, pf, fast, hf, ?_⟩
        rcases h with ⟨ht, ps, slow, hp, rfl⟩ | ⟨ht, rfl⟩
        · rw [if_pos ht, hp]; rfl
        · rw [if_neg (by omega)]; rfl

/-! ## An instruction's next states -/

/-- Everything that an instruction can answer. -/
theorem exec_next {i : Instr} {s t : State} (h : exec i s = .next t) :
    (s.halted = true ∧ t = s.answerHalted) ∨
    (s.halted = false ∧ ∃ d, Effect i s d ∧ t = d.answerOk) ∨
    (s.halted = false ∧ ∃ c, (c = .configError ∨ c = .numericFault) ∧ t = raiseBy c i.word s) := by
  obtain ⟨body, hb, hr, he⟩ := exec_body i s
  rw [hb] at h
  rcases transact_next h with h | ⟨hs, d, hd, ht⟩ | ⟨hs, c, hc, ht⟩
  · exact .inl h
  · exact .inr (.inl ⟨hs, d, (he d).mp hd, ht⟩)
  · exact .inr (.inr ⟨hs, c, hr c hc, ht⟩)

/-- A command whose effect is given completes with it. -/
theorem exec_of_effect {i : Instr} {s : State} {d : Done} (hs : s.halted = false) (h : Effect i s d) :
    exec i s = .next d.answerOk := by
  obtain ⟨body, hb, -, he⟩ := exec_body i s
  rw [hb, (he d).mpr h, transact_ok _ _ _ hs]

theorem exec_halted {i : Instr} {s : State} (hs : s.halted = true) : exec i s = .next s.answerHalted := by
  obtain ⟨body, hb, -⟩ := exec_body i s
  rw [hb, transact_halted _ _ _ hs]

/-- What no command touches: the parameters, STATUS, the wave table, the events to come and the free-value counter. -/
theorem effect_frame {i : Instr} {s : State} {d : Done} (h : Effect i s d) :
    d.state.par = s.par ∧ d.state.status = s.status ∧ d.state.wt = s.wt ∧ d.state.pending = s.pending ∧
      d.state.free = s.free := by
  cases i <;> simp only [Effect] at h
  case clStep =>
    obtain ⟨o, m, y, pf, fast, -, -, ⟨-, ps, slow, -, rfl⟩ | ⟨-, rfl⟩⟩ := h <;> simp [done2]
  all_goals
    first
      | (subst h; simp [done0])
      | (obtain ⟨-, v, -, -, rfl⟩ := h; simp [done1])
      | (obtain ⟨o, yp, ys, -, rfl⟩ := h; simp [done0, done2])

/-- A completed command does not halt the block. -/
theorem effect_halted {i : Instr} {s : State} {d : Done} (h : Effect i s d) : d.answerOk.halted = s.halted := by
  rw [answerOk_halted, State.halted, State.halted, (effect_frame h).2.1]

/-- A command that leaves the block running has completed. -/
theorem exec_completed {i : Instr} {s t : State} (h : exec i s = .next t) (ht : t.halted = false) :
    s.halted = false ∧ ∃ d, Effect i s d ∧ t = d.answerOk := by
  rcases exec_next h with ⟨hs, rfl⟩ | ⟨hs, h⟩ | ⟨hs, c, -, rfl⟩
  · simp [hs] at ht
  · exact ⟨hs, h⟩
  · simp at ht

/-! ## A step's next states -/

/-- Everything that a step can answer. -/
theorem step_next {s t : State} (h : step s = .next t) :
    (s.pending = [] ∧ t = { s with answer := none }) ∨
    (∃ rest, s.pending = .overrun :: rest ∧ t = deadlineOverrun { s with pending := rest, answer := none }) ∨
    (∃ c rest, s.pending = .reset c :: rest ∧ s.par.wellFormed = true ∧ c.wellFormed s.par.num = true ∧
      t = applyReset c { s with pending := rest }) ∨
    (∃ a w ops rest e, s.pending = .command a w ops :: rest ∧ decode w ops = .error e ∧
      t = if s.halted then State.answerHalted { s with pending := rest }
        else raiseBy .illegalCommand w { s with pending := rest }) ∨
    (∃ a w ops rest i, s.pending = .command a w ops :: rest ∧ decode w ops = .ok i ∧
      (s.halted = true ∨ i.wellFormed s.par.num = true) ∧ exec i { s with pending := rest } = .next t) := by
  unfold step at h
  split at h
  · next hp => cases h; exact .inl ⟨hp, rfl⟩
  · next a w ops rest hp =>
    unfold issue at h
    split at h
    · next e he =>
      refine .inr (.inr (.inr (.inl ⟨a, w, ops, rest, e, hp, he, ?_⟩)))
      unfold illegalCommand transact at h
      by_cases hs : s.halted = true
      · have : State.halted { s with pending := rest } = true := hs
        rw [if_pos this] at h
        cases h
        rw [if_pos hs]
      · have : ¬ State.halted { s with pending := rest } = true := hs
        rw [if_neg this] at h
        cases h
        rw [if_neg hs]
    · next i hi =>
      split at h
      · next hw => exact .inr (.inr (.inr (.inr ⟨a, w, ops, rest, i, hp, hi, by rwa [Bool.or_eq_true] at hw, h⟩)))
      · cases h
  · next rest hp => cases h; exact .inr (.inl ⟨rest, hp, rfl⟩)
  · next c rest hp =>
    unfold platformReset at h
    split at h
    · cases h
    · next ht =>
      split at h
      · next hw => cases h; exact .inr (.inr (.inl ⟨c, rest, hp, by simpa using ht, hw, rfl⟩))
      · cases h

/-! ## Runs -/

theorem run_succ_of {M : Host.Core} {s s' : M.State} (n : Nat) (h : M.step s = .next s') :
    M.run (n + 1) s = M.run n s' := by
  simp only [Host.Core.run, h]

theorem run_succ_next {M : Host.Core} {s t : M.State} {n : Nat} (h : M.run (n + 1) s = .next t) :
    ∃ s', M.step s = .next s' ∧ M.run n s' = .next t := by
  simp only [Host.Core.run] at h
  split at h
  · next s' hs => exact ⟨s', hs, h⟩
  · cases h
  · cases h

/-- A run takes its first step and goes on. -/
theorem run_step {s s' : State} (n : Nat) (h : step s = .next s') : core.run (n + 1) s = core.run n s' :=
  run_succ_of (M := core) n h

/-- A run that ends has taken its first step. -/
theorem run_next {s t : State} {n : Nat} (h : core.run (n + 1) s = .next t) :
    ∃ s' : State, step s = .next s' ∧ core.run n s' = .next t :=
  run_succ_next (M := core) h

end Sys2Proof.Machine
end

