-- ==== Sys2Proof/Laws/Keep.lean ====
section
/-! SUPPORT. What each primitive leaves unchanged when it returns, and that the primitives stay within the rules in a state in range. -/

namespace Sys2Proof.Machine

open Sys2Proof

/-! ## Frames of the primitives -/

theorem oscAdvance_keeps {fmt : NumFormat} {wt : List Value} {o o' : Osc} {yp ys : Value}
    (h : oscAdvance fmt wt o = .ok (o', yp, ys)) :
    o'.en = o.en ∧ o'.amp = o.amp ∧ o'.off = o.off ∧ o'.phaseCfg = o.phaseCfg ∧ o'.W = o.W ∧ o'.G = o.G ∧ o'.fw = o.fw ∧
      o'.detune = o.detune := by
  obtain ⟨_, rfl, _⟩ := oscAdvance_ok.mp h
  simp [oscStepped]

theorem mafUpdate_keeps {fmt : NumFormat} {C : Nat} {m m' : Maf} {x y : Value} (h : mafUpdate fmt C m x = .ok (m', y)) :
    m'.fs = m.fs ∧ m'.fc = m.fc ∧ m'.buf.length = m.buf.length ∧ memRead m'.buf m.cur = .ok x ∧
      ∀ k : Int, k ≠ m.cur → memRead m'.buf k = memRead m.buf k := by
  obtain ⟨old, _, _, _, _, hc, _, rfl⟩ := mafUpdate_ok.mp h
  exact ⟨rfl, rfl, by simp, memRead_memWrite_same (memWrite_ok.mpr ⟨hc, rfl⟩),
    fun k hk => memRead_memWrite_other (memWrite_ok.mpr ⟨hc, rfl⟩) hk⟩

theorem liaDemod_keeps {par : Config.Params} {wt : List Value} {o o' : Osc} {m m' : Maf} {e y : Value}
    (h : liaDemod par wt o m e = .ok (o', m', y)) : m'.buf.length = m.buf.length := by
  obtain ⟨_, _, _, _, _, hm⟩ := liaDemod_ok.mp h
  exact (mafUpdate_keeps hm).2.2.1

theorem pidRun_keeps {fmt : NumFormat} {P P' : Pid} {e v : Value} (h : pidRun fmt P e = .ok (P', v)) :
    P'.Ts = P.Ts ∧ P'.p = P.p ∧ P'.i = P.i ∧ P'.d = P.d ∧ P'.K = P.K ∧ P'.min = P.min ∧ P'.max = P.max ∧ P'.aw = P.aw ∧
      P'.coef = P.coef ∧ P'.ac = P.ac ∧ P'.ad = P.ad ∧ P'.fsm = P.fsm ∧ P'.frozen = P.frozen := by
  obtain ⟨_, ⟨_, rfl, _⟩ | ⟨_, _, _, _, rfl, _⟩⟩ := pidRun_ok.mp h <;> simp [pidRan]

theorem pidEvent_keeps (ev : PidEvent) (P : Pid) :
    (pidEvent ev P).Ts = P.Ts ∧ (pidEvent ev P).p = P.p ∧ (pidEvent ev P).i = P.i ∧ (pidEvent ev P).d = P.d ∧
      (pidEvent ev P).K = P.K ∧ (pidEvent ev P).min = P.min ∧ (pidEvent ev P).max = P.max ∧ (pidEvent ev P).aw = P.aw ∧
      (pidEvent ev P).coef = P.coef ∧ (pidEvent ev P).ac = P.ac ∧ (pidEvent ev P).cv = P.cv := by
  unfold pidEvent
  split <;> simp [resetDelay]

/-! ## The fold (R163) -/

theorem fold_range (W : Nat) (hW : 1 ≤ W) (x : Int) : 0 ≤ fold W x ∧ fold W x ≤ (2 ^ W : Nat) - 1 := by
  have hp : 2 ^ 1 ≤ 2 ^ W := Nat.pow_le_pow_right (by omega) hW
  have key : ∀ y : Int, 0 ≤ y % ((2 ^ W : Nat) - 1) ∧ y % ((2 ^ W : Nat) - 1) < (2 ^ W : Nat) - 1 := fun y =>
    ⟨Int.emod_nonneg _ (by omega), Int.emod_lt_of_pos _ (by omega)⟩
  have h1 := key (x - 1)
  have h2 := key x
  unfold fold
  dsimp only
  split
  · omega
  · split <;> omega

theorem fold_mod (W : Nat) (x : Int) : fold W x % ((2 ^ W : Nat) - 1) = x % ((2 ^ W : Nat) - 1) := by
  unfold fold
  dsimp only
  split
  · rw [Int.emod_add_emod]
    congr 1
    ring
  · split
    · exact Int.emod_emod_of_dvd _ (dvd_refl _)
    · rfl

/-! ## Reset -/

/-- A reset that reports no failing check has passed every check. -/
theorem firstFailedCheck_none {par : Config.Params} {c : Config.Record} (h : firstFailedCheck par c = none) :
    ∀ k ∈ checkNumbers, resetCheck par c k = true := by
  unfold firstFailedCheck at h
  rw [List.find?_eq_none] at h
  intro k hk
  simpa using h k hk

end Sys2Proof.Machine
end

