-- ==== Sys2Proof/Laws/Memory.lean ====
section
/-! SUPPORT. The two arrays keep their sizes: every memory operation, every command and every step keeps `Memory.wf`
(spec/20_memory.md R80, R96). -/

namespace Sys2Proof.Machine

open Sys2Proof

theorem wf_iff {s : State} : Memory.wf s = true ↔ s.wt.length = Config.L ∧ s.maf.buf.length = s.par.capacity := by
  simp [Memory.wf]

/-- `Memory.wf` depends on the table, the buffer's size and the capacity only. -/
theorem wf_congr {s t : State} (h1 : t.wt = s.wt) (h2 : t.maf.buf.length = s.maf.buf.length) (h3 : t.par = s.par)
    (h : Memory.wf s = true) : Memory.wf t = true := by
  rw [wf_iff] at *
  rw [h1, h2, h3]
  exact h

theorem effect_bufLength {i : Instr} {s : State} {d : Done} (h : Effect i s d) :
    d.state.maf.buf.length = s.maf.buf.length := by
  cases i
  case mafUpdate x =>
    obtain ⟨-, m, y, hm, rfl⟩ := h
    exact (mafUpdate_keeps hm).2.2.1
  case liaDemod e =>
    obtain ⟨o, m, y, hl, rfl⟩ := h
    exact liaDemod_keeps hl
  case clStep e =>
    obtain ⟨o, m, y, pf, fast, hl, -, ⟨-, ps, slow, -, rfl⟩ | ⟨-, rfl⟩⟩ := h <;> exact liaDemod_keeps hl
  case wtInterp x =>
    obtain ⟨-, v, -, -, rfl⟩ := h
    rfl
  case oscAdvance =>
    obtain ⟨o, yp, ys, -, rfl⟩ := h
    rfl
  case oscSetPhase phi =>
    obtain ⟨-, st, -, rfl⟩ := h
    rfl
  case mafSetCutoff fc =>
    obtain ⟨-, -, -, rfl⟩ := h
    rfl
  case pidRun sel e =>
    obtain ⟨P, v, -, rfl⟩ := h
    simp [done1]
  all_goals
    simp only [Effect] at h
    first
      | (subst h; simp [done0])
      | (obtain ⟨-, -, rfl⟩ := h; simp [done0])
      | (obtain ⟨-, -, -, rfl⟩ := h; simp [done0])

theorem exec_keeps_wf {i : Instr} {s t : State} (h : exec i s = .next t) (hs : Memory.wf s = true) : Memory.wf t = true := by
  rcases exec_next h with ⟨-, rfl⟩ | ⟨-, d, hd, rfl⟩ | ⟨-, c, -, rfl⟩
  · exact wf_congr rfl rfl rfl hs
  · obtain ⟨hp, -, hw, -⟩ := effect_frame hd
    exact wf_congr (by simp [hw]) (by simp [effect_bufLength hd]) (by simp [hp]) hs
  · exact wf_congr rfl rfl rfl hs

/-- Every reset leaves arrays of the right sizes, whatever the state before it. -/
theorem applyReset_wf (c : Config.Record) (s : State) : Memory.wf (applyReset c s) = true := by
  rw [wf_iff]
  unfold applyReset
  split
  · next h =>
    have h1 := firstFailedCheck_none h 1 (by decide)
    simp [resetCheck] at h1
    exact ⟨h1.1, by simp [afterReset, mafAtReset]⟩
  · simp [afterFailedReset]

/-- Every step keeps the sizes of the two arrays. -/
theorem step_keeps_wf {s t : State} (h : step s = .next t) (hs : Memory.wf s = true) : Memory.wf t = true := by
  rcases step_next h with ⟨-, rfl⟩ | ⟨rest, -, rfl⟩ | ⟨c, rest, -, -, -, rfl⟩ | ⟨a, w, ops, rest, e, -, -, rfl⟩ |
    ⟨a, w, ops, rest, i, -, -, -, he⟩
  · exact wf_congr rfl rfl rfl hs
  · unfold deadlineOverrun
    split <;> exact wf_congr rfl rfl rfl hs
  · exact applyReset_wf _ _
  · split <;> exact wf_congr rfl rfl rfl hs
  · exact exec_keeps_wf he hs

end Sys2Proof.Machine
end

