-- ==== Sys2Proof/Laws/Rounding.lean ====
section
/-! SUPPORT. Rounding to an IEEE format: its leading exponent, its exactness on representable values, and that every result of an
operation is a value of the format (spec/00_scope.md R8, R17). -/

namespace Sys2Proof

/-! ## The leading exponent -/

theorem two_zpow_pos (e : Int) : (0 : Rat) < 2 ^ e := zpow_pos (by norm_num) e

theorem pow_toNat_div (e : Int) : ((2 : Rat) ^ e.toNat) / 2 ^ (-e).toNat = 2 ^ e := by
  rcases le_total 0 e with h | h
  · obtain ⟨n, rfl⟩ := Int.eq_ofNat_of_zero_le h
    simp
  · obtain ⟨n, hn⟩ := Int.eq_ofNat_of_zero_le (Int.neg_nonneg.mpr h)
    have : e = -(n : Int) := by omega
    subst this
    simp

theorem le_iff_scaled (n d : Nat) (hd : 0 < d) (e : Int) :
    d * 2 ^ e.toNat ≤ n * 2 ^ (-e).toNat ↔ (2 : Rat) ^ e ≤ (n : Rat) / d := by
  have hd' : (0 : Rat) < d := by exact_mod_cast hd
  have hp : (0 : Rat) < 2 ^ (-e).toNat := by positivity
  rw [← pow_toNat_div, div_le_div_iff₀ hp hd']
  constructor
  · intro h
    have : ((d * 2 ^ e.toNat : Nat) : Rat) ≤ ((n * 2 ^ (-e).toNat : Nat) : Rat) := by exact_mod_cast h
    push_cast at this
    linarith
  · intro h
    have : ((d * 2 ^ e.toNat : Nat) : Rat) ≤ ((n * 2 ^ (-e).toNat : Nat) : Rat) := by push_cast; linarith
    exact_mod_cast this

/-- The leading exponent of a positive quotient. -/
theorem floorLog2_spec (n d : Nat) (hn : 0 < n) (hd : 0 < d) :
    (2 : Rat) ^ floorLog2 n d ≤ (n : Rat) / d ∧ (n : Rat) / d < 2 ^ (floorLog2 n d + 1) := by
  have hd' : (0 : Rat) < d := by exact_mod_cast hd
  have h2 : (2 : Rat) ≠ 0 := by norm_num
  have n1 : (2 : Rat) ^ (Nat.log2 n) ≤ n := by exact_mod_cast Nat.log2_self_le hn.ne'
  have n2 : (n : Rat) < 2 ^ (Nat.log2 n + 1) := by exact_mod_cast Nat.lt_log2_self
  have d1 : (2 : Rat) ^ (Nat.log2 d) ≤ d := by exact_mod_cast Nat.log2_self_le hd.ne'
  have d2 : (d : Rat) < 2 ^ (Nat.log2 d + 1) := by exact_mod_cast Nat.lt_log2_self
  have up : (n : Rat) / d < 2 ^ ((Nat.log2 n : Int) - (Nat.log2 d : Int) + 1) := by
    rw [div_lt_iff₀ hd', sub_add_eq_add_sub, zpow_sub₀ h2]
    have e1 : (2 : Rat) ^ ((Nat.log2 n : Int) + 1) = 2 ^ (Nat.log2 n + 1) := by norm_cast
    have e2 : (2 : Rat) ^ ((Nat.log2 d : Int)) = 2 ^ (Nat.log2 d) := by norm_cast
    rw [e1, e2, div_mul_eq_mul_div, lt_div_iff₀ (by positivity)]
    calc (n : Rat) * 2 ^ Nat.log2 d < 2 ^ (Nat.log2 n + 1) * 2 ^ Nat.log2 d := by
          exact mul_lt_mul_of_pos_right n2 (by positivity)
      _ ≤ 2 ^ (Nat.log2 n + 1) * d := by exact mul_le_mul_of_nonneg_left d1 (by positivity)
  have low : (2 : Rat) ^ ((Nat.log2 n : Int) - (Nat.log2 d : Int) - 1) ≤ (n : Rat) / d := by
    rw [le_div_iff₀ hd', sub_sub, zpow_sub₀ h2]
    have e1 : (2 : Rat) ^ ((Nat.log2 n : Int)) = 2 ^ (Nat.log2 n) := by norm_cast
    have e2 : (2 : Rat) ^ ((Nat.log2 d : Int) + 1) = 2 ^ (Nat.log2 d + 1) := by norm_cast
    rw [e1, e2, div_mul_eq_mul_div, div_le_iff₀ (by positivity)]
    calc (2 : Rat) ^ Nat.log2 n * d ≤ n * d := by exact mul_le_mul_of_nonneg_right n1 (by positivity)
      _ ≤ n * 2 ^ (Nat.log2 d + 1) := by
          exact mul_le_mul_of_nonneg_left d2.le (by exact_mod_cast hn.le)
  unfold floorLog2
  simp only
  split
  · next h => exact ⟨(le_iff_scaled n d hd _).mp h, up⟩
  · next h =>
    refine ⟨low, ?_⟩
    rw [le_iff_scaled n d hd, not_le] at h
    simpa using h

/-- The leading exponent is the only one with its property. -/
theorem exponent_unique (x : Rat) (e e' : Int) (h1 : (2 : Rat) ^ e ≤ x) (h2 : x < 2 ^ (e + 1))
    (h3 : (2 : Rat) ^ e' ≤ x) (h4 : x < 2 ^ (e' + 1)) : e = e' := by
  have a := (zpow_lt_zpow_iff_right₀ (by norm_num : (1 : Rat) < 2)).mp (h1.trans_lt h4)
  have b := (zpow_lt_zpow_iff_right₀ (by norm_num : (1 : Rat) < 2)).mp (h3.trans_lt h2)
  omega

/-! ## Rounding a quotient -/

theorem divRoundEven_exact (m d : Nat) (hd : 0 < d) : divRoundEven (m * d) d = m := by
  simp [divRoundEven, hd]

/-- The rounded quotient is within one half of the quotient. -/
theorem divRoundEven_near (n d : Nat) (hd : 0 < d) :
    2 * n ≤ 2 * (divRoundEven n d * d) + d ∧ 2 * (divRoundEven n d * d) ≤ 2 * n + d := by
  have h := Nat.div_add_mod n d
  have hr := Nat.mod_lt n hd
  have e : (n / d + 1) * d = d * (n / d) + d := by ring
  have e' : (n / d) * d = d * (n / d) := by ring
  unfold divRoundEven
  simp only
  split
  · rw [e']; omega
  · split
    · rw [e]; omega
    · split
      · rw [e']; omega
      · rw [e]; omega

/-- A tie goes to the even number. -/
theorem divRoundEven_tie (n d : Nat) (hd : 0 < d)
    (h : 2 * n = 2 * (divRoundEven n d * d) + d ∨ 2 * (divRoundEven n d * d) = 2 * n + d) : divRoundEven n d % 2 = 0 := by
  have h1 := Nat.div_add_mod n d
  have hr := Nat.mod_lt n hd
  have e : (n / d + 1) * d = d * (n / d) + d := by ring
  have e' : (n / d) * d = d * (n / d) := by ring
  unfold divRoundEven at h ⊢
  simp only at h ⊢
  split at h
  · rw [e'] at h; omega
  · split at h
    · rw [e] at h; omega
    · split at h
      · next h1 h2 h3 => rw [if_neg h1, if_neg h2, if_pos h3]; exact h3
      · next h1 h2 h3 => simp only [if_neg h1, if_neg h2, if_neg h3]; omega

theorem divRoundEven_le (n d b : Nat) (hd : 0 < d) (h : n ≤ b * d) : divRoundEven n d ≤ b := by
  by_contra hc
  have h1 : b + 1 ≤ divRoundEven n d := by omega
  have h2 : (b + 1) * d ≤ divRoundEven n d * d := Nat.mul_le_mul_right d h1
  have h3 := (divRoundEven_near n d hd).2
  have h4 : (b + 1) * d = b * d + d := by ring
  omega

/-! ## Exactness on representable values -/

theorem scale2_eq (m : Int) (k : Int) : scale2 m k = m * 2 ^ k := by
  rw [scale2, Rat.mkRat_eq_div, ← pow_toNat_div k]
  push_cast
  ring

theorem abs_eq_natAbs_div (q : Rat) : |q| = (q.num.natAbs : Rat) / q.den := by
  have h : ((q.num.natAbs : Nat) : Rat) = |(q.num : Rat)| := by rw [Nat.cast_natAbs, Int.cast_abs]
  have hd : (0 : Rat) < q.den := by exact_mod_cast q.den_pos
  conv_lhs => rw [← Rat.num_div_den q]
  rw [h, abs_div, abs_of_pos hd]

theorem numer_scaled (q : Rat) (k : Int) :
    (((q.num.natAbs * 2 ^ (-k).toNat : Nat) : Rat)) / ((q.den * 2 ^ k.toNat : Nat) : Rat) = |q| / 2 ^ k := by
  rw [abs_eq_natAbs_div, ← pow_toNat_div k]
  push_cast
  have hd : (q.den : Rat) ≠ 0 := by exact_mod_cast q.den_nz
  field_simp

/-- A value with at most `precision` significand bits, an exponent that the format has and no overflow is its own rounding. -/
theorem roundIeee_representable (f : FloatFormat) (neg : Bool) (s : Bool) (m : Nat) (k : Int) (hm : 0 < m)
    (hp : m ≤ 2 ^ f.precision) (hk : f.emin - ((f.precision : Int) - 1) ≤ k)
    (ho : (Nat.log2 m : Int) + k ≤ f.emax) :
    roundIeee f neg (scale2 (if s then -(m : Int) else m) k) = .fin (scale2 (if s then -(m : Int) else m) k) := by
  set q := scale2 (if s then -(m : Int) else m) k with hq
  have hmq : (0 : Rat) < m := by exact_mod_cast hm
  have habs : |q| = m * 2 ^ k := by
    rw [hq, scale2_eq, abs_mul, abs_of_pos (two_zpow_pos k)]
    cases s <;> simp
  have hq0 : q ≠ 0 := by
    intro h
    rw [h, abs_zero] at habs
    exact absurd habs.symm (mul_pos hmq (two_zpow_pos k)).ne'
  have hnum : q.num ≠ 0 := Rat.num_ne_zero.mpr hq0
  have hsign : decide (q.num < 0) = s := by
    have : q.num < 0 ↔ q < 0 := Rat.num_neg
    rw [Bool.eq_iff_iff, decide_eq_true_iff, this, hq, scale2_eq]
    have := two_zpow_pos k
    cases s
    · simp; positivity
    · simp; positivity
  have he := floorLog2_spec q.num.natAbs q.den (Int.natAbs_pos.mpr hnum) q.den_pos
  rw [← abs_eq_natAbs_div, habs] at he
  set e := floorLog2 q.num.natAbs q.den with hedef
  have one2 : (1 : Rat) < 2 := by norm_num
  -- the exponent of the last bit is at most one above k, and then m is even
  have hpk : e ≤ (f.precision : Int) + k := by
    have : (m : Rat) * 2 ^ k ≤ 2 ^ ((f.precision : Int) + k) := by
      rw [zpow_add₀ (by norm_num)]
      refine mul_le_mul_of_nonneg_right ?_ (two_zpow_pos k).le
      exact_mod_cast hp
    have := he.1.trans this
    exact (zpow_le_zpow_iff_right₀ one2).mp this
  have hdiv : ∃ m' : Nat, (m : Rat) * 2 ^ k = m' * 2 ^ ulpExp f e := by
    by_cases hc : ulpExp f e ≤ k
    · refine ⟨m * 2 ^ (k - ulpExp f e).toNat, ?_⟩
      obtain ⟨j, hj⟩ := Int.eq_ofNat_of_zero_le (Int.sub_nonneg.mpr hc)
      have : k = j + ulpExp f e := by omega
      rw [hj]
      conv_lhs => rw [this, zpow_add₀ (by norm_num)]
      push_cast
      rw [Int.toNat_natCast, zpow_natCast]
      ring
    · have hu : ulpExp f e = k + 1 := by unfold ulpExp at hc ⊢; omega
      have hee : e = (f.precision : Int) + k := by unfold ulpExp at hu; omega
      have hmm : m = 2 ^ f.precision := by
        refine le_antisymm hp ?_
        have := he.1
        rw [hee, zpow_add₀ (by norm_num)] at this
        have := le_of_mul_le_mul_right this (two_zpow_pos k)
        exact_mod_cast this
      have hpp : f.precision = (f.precision - 1) + 1 := by cases f <;> rfl
      refine ⟨2 ^ (f.precision - 1), ?_⟩
      rw [hu, hmm, zpow_add₀ (by norm_num)]
      conv_lhs => rw [hpp]
      push_cast
      rw [pow_succ]
      ring
  obtain ⟨m', hm'⟩ := hdiv
  have hm'0 : m' ≠ 0 := by
    rintro rfl
    have := mul_pos hmq (two_zpow_pos k)
    rw [hm'] at this
    simp at this
  have hN : divRoundEven (q.num.natAbs * 2 ^ (-ulpExp f e).toNat) (q.den * 2 ^ (ulpExp f e).toNat) = m' := by
    have hD : 0 < q.den * 2 ^ (ulpExp f e).toNat := Nat.mul_pos q.den_pos (by positivity)
    have : q.num.natAbs * 2 ^ (-ulpExp f e).toNat = m' * (q.den * 2 ^ (ulpExp f e).toNat) := by
      have h := numer_scaled q (ulpExp f e)
      rw [habs, hm', mul_div_assoc, div_self (two_zpow_pos _).ne', mul_one,
        div_eq_iff (by exact_mod_cast hD.ne')] at h
      exact_mod_cast h
    rw [this, divRoundEven_exact _ _ hD]
  have hlog : (Nat.log2 m' : Int) + ulpExp f e = (Nat.log2 m : Int) + k := by
    have key : ∀ (a : Nat) (j : Int), 0 < a →
        (2 : Rat) ^ ((Nat.log2 a : Int) + j) ≤ a * 2 ^ j ∧ (a : Rat) * 2 ^ j < 2 ^ ((Nat.log2 a : Int) + j + 1) := by
      intro a j ha
      have a1 : (2 : Rat) ^ (Nat.log2 a) ≤ a := by exact_mod_cast Nat.log2_self_le ha.ne'
      have a2 : (a : Rat) < 2 ^ (Nat.log2 a + 1) := by exact_mod_cast Nat.lt_log2_self
      constructor
      · rw [zpow_add₀ (by norm_num), zpow_natCast]
        exact mul_le_mul_of_nonneg_right a1 (two_zpow_pos j).le
      · rw [show (Nat.log2 a : Int) + j + 1 = ((Nat.log2 a + 1 : Nat) : Int) + j by push_cast; ring,
          zpow_add₀ (by norm_num), zpow_natCast]
        exact mul_lt_mul_of_pos_right a2 (two_zpow_pos j)
    have k1 := key m k hm
    have k2 := key m' (ulpExp f e) (Nat.pos_of_ne_zero hm'0)
    rw [← hm'] at k2
    exact exponent_unique _ _ _ k2.1 k2.2 k1.1 k1.2
  have hval : scale2 (if s then -(m' : Int) else m') (ulpExp f e) = q := by
    rw [scale2_eq, hq, scale2_eq]
    cases s
    · simpa using hm'.symm
    · simpa using hm'.symm
  unfold roundIeee
  rw [if_neg hnum]
  simp only [← hedef, hN, hsign, if_neg hm'0]
  rw [if_neg (by omega), hval]

/-- What rounding a nonzero number does: the multiple `m * 2^k` of the last place `2^k` that is nearest, the even one of two. -/
theorem roundIeee_nonzero (f : FloatFormat) (neg : Bool) {q : Rat} (hq : q ≠ 0) :
    ∃ (e : Int) (m : Nat), (2 : Rat) ^ e ≤ |q| ∧ |q| < 2 ^ (e + 1) ∧
      |(|q| / 2 ^ ulpExp f e - m)| ≤ 1 / 2 ∧ (|(|q| / 2 ^ ulpExp f e - m)| = 1 / 2 → m % 2 = 0) ∧
      roundIeee f neg q =
        (if m = 0 then (if decide (q < 0) then .negZero else .fin 0)
        else if f.emax < (Nat.log2 m : Int) + ulpExp f e then .inf (decide (q < 0))
        else .fin (scale2 (if decide (q < 0) then -(m : Int) else m) (ulpExp f e))) := by
  have hnum : q.num ≠ 0 := Rat.num_ne_zero.mpr hq
  have he := floorLog2_spec q.num.natAbs q.den (Int.natAbs_pos.mpr hnum) q.den_pos
  rw [← abs_eq_natAbs_div] at he
  refine ⟨floorLog2 q.num.natAbs q.den, divRoundEven (q.num.natAbs * 2 ^ (-ulpExp f (floorLog2 q.num.natAbs q.den)).toNat)
    (q.den * 2 ^ (ulpExp f (floorLog2 q.num.natAbs q.den)).toNat), he.1, he.2, ?_, ?_, ?_⟩
  all_goals set k := ulpExp f (floorLog2 q.num.natAbs q.den)
  all_goals have hD : 0 < q.den * 2 ^ k.toNat := Nat.mul_pos q.den_pos (by positivity)
  · rw [← numer_scaled]
    have h := divRoundEven_near (q.num.natAbs * 2 ^ (-k).toNat) _ hD
    set m := divRoundEven (q.num.natAbs * 2 ^ (-k).toNat) (q.den * 2 ^ k.toNat)
    set n := q.num.natAbs * 2 ^ (-k).toNat
    set d := q.den * 2 ^ k.toNat
    have hd' : (0 : Rat) < d := by exact_mod_cast hD
    have h1 : (2 * n : Rat) ≤ 2 * (m * d) + d := by exact_mod_cast h.1
    have h2 : (2 * (m * d) : Rat) ≤ 2 * n + d := by exact_mod_cast h.2
    rw [abs_le, div_sub' (by positivity), div_le_iff₀ hd', le_div_iff₀ hd']
    constructor <;> nlinarith
  · rw [← numer_scaled]
    have h := divRoundEven_tie (q.num.natAbs * 2 ^ (-k).toNat) _ hD
    set m := divRoundEven (q.num.natAbs * 2 ^ (-k).toNat) (q.den * 2 ^ k.toNat)
    set n := q.num.natAbs * 2 ^ (-k).toNat
    set d := q.den * 2 ^ k.toNat
    have hd' : (0 : Rat) < d := by exact_mod_cast hD
    intro ht
    apply h
    rcases (abs_eq (by norm_num)).mp ht with ht | ht <;> rw [div_sub' (by positivity), div_eq_iff (by positivity)] at ht
    · left
      have : (2 * n : Rat) = 2 * (m * d) + d := by nlinarith
      exact_mod_cast this
    · right
      have : (2 * (m * d) : Rat) = 2 * n + d := by nlinarith
      exact_mod_cast this
  · have hs : (q.num < 0) = (q < 0) := propext Rat.num_neg
    unfold roundIeee
    rw [if_neg hnum]
    simp only [hs]
    rfl
theorem roundIeee_zero (f : FloatFormat) (neg : Bool) :
    roundIeee f neg 0 = if neg then .negZero else .fin 0 := by
  simp [roundIeee]

/-- Rounding again changes nothing: every finite result is a value of the format. -/
theorem roundIeee_idempotent (f : FloatFormat) (neg neg' : Bool) (q r : Rat) (h : roundIeee f neg q = .fin r)
    (hr : r ≠ 0 ∨ neg' = false) : roundIeee f neg' r = .fin r := by
  by_cases hz : r = 0
  · subst hz
    rcases hr with hr | rfl
    · exact absurd rfl hr
    · simp [roundIeee_zero]
  unfold roundIeee at h
  split at h
  · split at h
    · cases h
    · cases h; exact absurd rfl hz
  · next hnum =>
    simp only at h
    split at h
    · split at h
      · cases h
      · cases h; exact absurd rfl hz
    · next hm =>
      split at h
      · cases h
      · next ho =>
        simp only [Value.fin.injEq] at h
        rw [← h]
        refine roundIeee_representable f neg' _ _ _ (Nat.pos_of_ne_zero hm) ?_ ?_ (by omega)
        · refine divRoundEven_le _ _ _ (Nat.mul_pos q.den_pos (by positivity)) ?_
          set e := floorLog2 q.num.natAbs q.den
          have he := (floorLog2_spec q.num.natAbs q.den (Int.natAbs_pos.mpr hnum) q.den_pos).2
          rw [← abs_eq_natAbs_div] at he
          have hD : 0 < q.den * 2 ^ (ulpExp f e).toNat := Nat.mul_pos q.den_pos (by positivity)
          have hD' : (0 : Rat) < ((q.den * 2 ^ (ulpExp f e).toNat : Nat) : Rat) := by exact_mod_cast hD
          have hle : |q| / 2 ^ ulpExp f e ≤ 2 ^ (f.precision : Int) := by
            rw [div_le_iff₀ (two_zpow_pos _), ← zpow_add₀ (by norm_num)]
            refine he.le.trans (zpow_le_zpow_right₀ (by norm_num) ?_)
            unfold ulpExp
            omega
          rw [← numer_scaled, div_le_iff₀ hD', zpow_natCast] at hle
          exact_mod_cast hle
        · unfold ulpExp
          omega

/-! ## Results are values of the format -/

theorem roundIeee_ne_surd (f : FloatFormat) (neg : Bool) (q : Rat) (z : Surd 8) : roundIeee f neg q ≠ .surd z := by
  unfold roundIeee
  split
  · split <;> simp
  · dsimp only
    split
    · split <;> simp
    · split <;> simp

theorem isOf_rnd_ieee (f : FloatFormat) (neg : Bool) (z : Surd 8) : isOf (.ieee f) (rnd (.ieee f) neg z) = true := by
  simp only [rnd]
  cases h : roundIeee f neg z.toRat with
  | fin r => simpa [isOf] using roundIeee_idempotent f neg false _ r h (.inr rfl)
  | surd z => exact absurd h (roundIeee_ne_surd _ _ _ _)
  | negZero => rfl
  | inf _ => rfl
  | nan => rfl

/-- A rounded number is a value of NUM. -/
theorem isOf_rnd (fmt : NumFormat) (neg : Bool) {z : Surd 8} (hz : z.reduced = true) : isOf fmt (rnd fmt neg z) = true := by
  cases fmt with
  | exact => exact isOf_exact_ofSurd hz
  | ieee f => exact isOf_rnd_ieee f neg z

/-- Rounding leaves a finite value of the format as it is. -/
theorem rnd_of_isOf (fmt : NumFormat) (q : Rat) (h : isOf fmt (.fin q) = true) : rnd fmt false (.rat q) = .fin q := by
  cases fmt with
  | exact => rfl
  | ieee f => simpa [isOf, rnd] using h

theorem isOf_zero (fmt : NumFormat) : isOf fmt (.fin 0) = true := by
  cases fmt with
  | exact => rfl
  | ieee f => simp [isOf, roundIeee_zero]

end Sys2Proof
end

