-- ==== Sys2Proof/Laws/Numbers.lean ====
section
/-! SUPPORT. Small integers, comparisons, clamping and closure of the NUM operations (spec/00_scope.md R17 to R20). -/

namespace Sys2Proof

/-! ## Integers and comparisons -/

/-- `toNUM` of a small natural number is that number, in every NUM. -/
theorem toNum_small (fmt : NumFormat) (k : Nat) (h : k ≤ 1024) : toNum fmt k = .fin k := by
  rcases fmt with _ | f
  · simp
  · have key : ∀ n : Fin 1025, toNum (.ieee f) (n.val : Int) = .fin (mkRat n.val 1) := by
      cases f <;> decide +kernel
    have := key ⟨k, by omega⟩
    simpa [Rat.mkRat_one] using this

theorem floor_eq (x : Value) : x.floor = ⌊x.real⌋ := Surd.floor_eq _

/-- `round` gives an integer nearest to the value. -/
theorem round_near (x : Value) : |x.real - x.round| ≤ 1 / 2 := Surd.round_near _

theorem lt_of_finite {x y : Value} (hx : x.isFinite = true) (hy : y.isFinite = true) :
    x.lt y = true ↔ x.real < y.real := by
  have h : x.lt y = x.exact.lt y.exact := by cases x <;> cases y <;> first | rfl | simp_all
  rw [h, Surd.lt_iff]
  rfl

theorem eq_of_finite {x y : Value} (hx : x.isFinite = true) (hy : y.isFinite = true) :
    x.eq y = true ↔ x.real = y.real := by
  have h : x.eq y = x.exact.eq y.exact := by cases x <;> cases y <;> first | rfl | simp_all
  rw [h, Surd.eq_iff]
  rfl

theorem le_of_finite {x y : Value} (hx : x.isFinite = true) (hy : y.isFinite = true) :
    x.le y = true ↔ x.real ≤ y.real := by
  rw [Value.le, Bool.or_eq_true, lt_of_finite hx hy, eq_of_finite hx hy, le_iff_lt_or_eq]

/-- No integer is nearer to `x / (pi / 2)`, for the real pi. -/
theorem roundOverHalfPi_near (x : Surd 8) : |x.real / (Real.pi / 2) - roundOverHalfPi x| ≤ 1 / 2 := by
  unfold roundOverHalfPi
  dsimp only
  have hs : (piScale : ℝ) ≠ 0 := by norm_num [piScale]
  split
  · next h =>
    refine roundOverHalf_near x ?_ ?_ ?_ h
    · rw [Rat.mkRat_eq_div]; norm_num [piFloor, piScale]
    · rw [Rat.mkRat_eq_div, Rat.cast_div, Rat.cast_intCast, Int.cast_natCast, Rat.cast_natCast]
      exact pi_bounds.1.le
    · rw [Rat.mkRat_eq_div, Rat.cast_div, Rat.cast_intCast, Int.cast_add, Int.cast_natCast, Int.cast_one, Rat.cast_natCast]
      exact pi_bounds.2.le
  · have h := Nat.find_spec (bounds_agree x)
    rw [boundsAgree, Bool.and_eq_true, ratLt_iff, decide_eq_true_iff] at h
    exact roundOverHalf_near x h.1 (piBelow_le _) (le_piAbove _) h.2

/-- Any two bounds that agree give the result. -/
theorem roundOverHalfPi_eq {x : Surd 8} {n : Nat} (h : boundsAgree x n = true) :
    roundOverHalfPi x = roundOverHalf x (piBelow n) := by
  rw [boundsAgree, Bool.and_eq_true, ratLt_iff, decide_eq_true_iff] at h
  have h1 := abs_le.mp (roundOverHalf_near x h.1 (piBelow_le n) (le_piAbove n) h.2)
  have h2 := abs_le.mp (roundOverHalfPi_near x)
  by_contra hne
  rcases lt_or_gt_of_ne hne with hlt | hlt
  · have hc : (roundOverHalfPi x : ℝ) + 1 ≤ roundOverHalf x (piBelow n) := by exact_mod_cast hlt
    exact quotient_not_half x (roundOverHalfPi x) (by linarith)
  · have hc : (roundOverHalf x (piBelow n) : ℝ) + 1 ≤ roundOverHalfPi x := by exact_mod_cast hlt
    exact quotient_not_half x (roundOverHalf x (piBelow n)) (by linarith)

/-! ## Clamping (R20) -/

/-- A value compares with itself, unless it is NaN. -/
theorem le_refl_iff (x : Value) : x.le x = true ↔ x ≠ .nan := by
  cases x with
  | fin q => simp
  | surd z => simp [le_of_finite (isFinite_surd z) (isFinite_surd z)]
  | negZero => simp [le_of_finite isFinite_negZero isFinite_negZero]
  | inf a => cases a <;> simp [Value.le, Value.lt, Value.eq]
  | nan => simp [Value.le, Value.lt, Value.eq]

/-- Of two values that are not NaN, one is below the other or at most it. -/
theorem le_of_not_lt {x y : Value} (hx : x ≠ .nan) (hy : y ≠ .nan) (h : x.lt y = false) : y.le x = true := by
  by_cases hfx : x.isFinite = true
  · by_cases hfy : y.isFinite = true
    · rw [← Bool.not_eq_true, lt_of_finite hfx hfy, not_lt] at h
      exact (le_of_finite hfy hfx).mpr h
    · cases y with
      | inf b => revert h; cases x <;> cases b <;> simp_all [Value.le, Value.lt, Value.eq]
      | _ => simp_all
  · cases x with
    | inf a => revert h; cases y <;> cases a <;> simp_all [Value.le, Value.lt, Value.eq]
    | _ => simp_all

theorem le_not_nan {x y : Value} (h : x.le y = true) : x ≠ .nan ∧ y ≠ .nan := by
  constructor <;> rintro rfl
  · simp [Value.le, Value.lt, Value.eq] at h
  · cases x <;> simp [Value.le, Value.lt, Value.eq] at h

/-- A clamped value that is not NaN lies between the limits (R52). -/
theorem clamp_between {x lo hi : Value} (hx : x ≠ .nan) (h : lo.le hi = true) :
    lo.le (clamp x lo hi) = true ∧ (clamp x lo hi).le hi = true := by
  obtain ⟨hl, hh⟩ := le_not_nan h
  unfold clamp
  split
  · exact ⟨(le_refl_iff lo).mpr hl, h⟩
  · next h1 =>
    split
    · exact ⟨h, (le_refl_iff hi).mpr hh⟩
    · next h2 => exact ⟨le_of_not_lt hx hl (by simpa using h1), le_of_not_lt hh hx (by simpa using h2)⟩

/-! ## Closure: every result is a value of NUM (R8, R17) -/

theorem isOf_ieee_of_special {f : FloatFormat} {x : Value} (h : x.isFinite = false) : isOf (.ieee f) x = true := by
  cases x with
  | fin q => cases h
  | surd z => cases h
  | _ => rfl

theorem isOf_toNum (fmt : NumFormat) (n : Int) : isOf fmt (toNum fmt n) = true := isOf_rnd _ _ rfl

theorem isOf_add_ieee (f : FloatFormat) {x y : Value} : isOf (.ieee f) (Value.add (.ieee f) x y) = true := by
  unfold Value.add
  split
  · rfl
  · rfl
  · split <;> rfl
  · rfl
  · rfl
  · rfl
  · exact isOf_rnd_ieee _ _ _

theorem isOf_add {fmt : NumFormat} {x y : Value} (hx : isOf fmt x = true) (hy : isOf fmt y = true) :
    isOf fmt (Value.add fmt x y) = true := by
  rcases fmt with _ | f
  · obtain ⟨z, hz, rfl⟩ := isOf_exact.mp hx
    obtain ⟨w, hw, rfl⟩ := isOf_exact.mp hy
    rw [add_ofSurd]
    exact isOf_exact_ofSurd (Surd.reduced_add _ _)
  · exact isOf_add_ieee f

theorem isOf_sub {fmt : NumFormat} {x y : Value} (hx : isOf fmt x = true) (hy : isOf fmt y = true) :
    isOf fmt (Value.sub fmt x y) = true := by
  rcases fmt with _ | f
  · obtain ⟨z, hz, rfl⟩ := isOf_exact.mp hx
    obtain ⟨w, hw, rfl⟩ := isOf_exact.mp hy
    rw [sub_ofSurd]
    exact isOf_exact_ofSurd (Surd.reduced_sub _ _)
  · exact isOf_add_ieee f

theorem isOf_mul {fmt : NumFormat} {x y : Value} (hx : isOf fmt x = true) (hy : isOf fmt y = true) :
    isOf fmt (Value.mul fmt x y) = true := by
  rcases fmt with _ | f
  · obtain ⟨z, hz, rfl⟩ := isOf_exact.mp hx
    obtain ⟨w, hw, rfl⟩ := isOf_exact.mp hy
    rw [mul_ofSurd]
    exact isOf_exact_ofSurd (Surd.reduced_mul _ _)
  · unfold Value.mul
    split
    · rfl
    · rfl
    · rfl
    · split <;> rfl
    · split <;> rfl
    · exact isOf_rnd_ieee _ _ _

theorem isOf_div {fmt : NumFormat} {x y : Value} (hx : isOf fmt x = true) (hy : isOf fmt y = true) :
    isOf fmt (Value.div fmt x y) = true := by
  rcases fmt with _ | f
  · obtain ⟨z, hz, rfl⟩ := isOf_exact.mp hx
    obtain ⟨w, hw, rfl⟩ := isOf_exact.mp hy
    by_cases h : w.real = 0
    · have h0 := (isZero_ofSurd w).mpr h
      cases z <;> cases w <;> simp_all [Value.div, ofSurd, divByZero, isOf]
    · rw [div_ofSurd z w h]
      exact isOf_exact_ofSurd (Surd.reduced_div _ _)
  · unfold Value.div
    split
    · rfl
    · rfl
    · rfl
    · rfl
    · exact isOf_rnd_ieee _ _ _
    · unfold divByZero
      split
      · dsimp only
        split <;> rfl
      · exact isOf_rnd_ieee _ _ _

/-- Under Exact every value of NUM is finite (R17). -/
theorem isFinite_of_exact {x : Value} (h : isOf .exact x = true) : x.isFinite = true := by
  obtain ⟨z, -, rfl⟩ := isOf_exact.mp h
  exact isFinite_ofSurd z

end Sys2Proof
end

