-- ==== Sys2Proof/Laws/PerInstr.lean ====
section
/-! SUPPORT. Per instruction: its word has the fields of R102, and its transaction the row's number of operands (R105). -/

namespace Sys2Proof.Laws.EncodedFields

open Sys2Proof

/-- The reserved bits of the instruction's word are 0, its opcode field is the row's, the row allows its bit `B`, and it has as many
operands as the row says. -/
def Statement (i : Instr) : Prop :=
  i.word.rsv = 0 ∧ i.word.opc = i.opcode.row.opc ∧ (i.opcode.row.format = .plain → i.word.b = false) ∧
    i.operands.length = i.opcode.row.operands

/-- The fields of a word put together from its parts. -/
theorem of_parts (i : Instr) (h : i.operands.length = i.opcode.row.operands) : Statement i := by
  have hf : ∀ (op : Opcode) (b : Bool), CmdWord.rsv ((0#7 ++ BitVec.ofBool b) ++ op.code) = 0 ∧
      CmdWord.opc ((0#7 ++ BitVec.ofBool b) ++ op.code) = op.row.opc ∧
      CmdWord.b ((0#7 ++ BitVec.ofBool b) ++ op.code) = b := by
    intro op b
    cases op <;> cases b <;> decide
  obtain ⟨h1, h2, h3⟩ := hf i.opcode i.bBit
  exact ⟨h1, h2, fun hp => by rw [Instr.word, h3]; exact bBit_plain hp, h⟩

theorem nop : Statement .nop := of_parts _ rfl

theorem wtInterp (x : Value) : Statement (.wtInterp x) := of_parts _ rfl

theorem oscAdvance : Statement .oscAdvance := of_parts _ rfl

theorem oscSetEnable (en : Bool) : Statement (.oscSetEnable en) := of_parts _ rfl

theorem oscSetPhase (phi : Value) : Statement (.oscSetPhase phi) := of_parts _ rfl

theorem mafUpdate (x : Value) : Statement (.mafUpdate x) := of_parts _ rfl

theorem mafSetCutoff (fc : Value) : Statement (.mafSetCutoff fc) := of_parts _ rfl

theorem liaDemod (e : Value) : Statement (.liaDemod e) := of_parts _ rfl

theorem pidRun (sel : Sel) (e : Value) : Statement (.pidRun sel e) := of_parts _ rfl

theorem pidEnable (sel : Sel) : Statement (.pidEnable sel) := of_parts _ rfl

theorem pidDisable (sel : Sel) : Statement (.pidDisable sel) := of_parts _ rfl

theorem pidHold (sel : Sel) : Statement (.pidHold sel) := of_parts _ rfl

theorem pidReset (sel : Sel) : Statement (.pidReset sel) := of_parts _ rfl

theorem pidIsLimited (sel : Sel) : Statement (.pidIsLimited sel) := of_parts _ rfl

theorem pidSetP (sel : Sel) (p : Value) : Statement (.pidSetP sel p) := of_parts _ rfl

theorem pidSetI (sel : Sel) (i : Value) : Statement (.pidSetI sel i) := of_parts _ rfl

theorem pidSetD (sel : Sel) (d : Value) : Statement (.pidSetD sel d) := of_parts _ rfl

theorem pidSetGains (sel : Sel) (p i d : Value) : Statement (.pidSetGains sel p i d) := of_parts _ rfl

theorem pidSetTs (sel : Sel) (ts : Value) : Statement (.pidSetTs sel ts) := of_parts _ rfl

theorem clStep (e : Value) : Statement (.clStep e) := of_parts _ rfl

end Sys2Proof.Laws.EncodedFields
end

