-- ==== Sys2Proof/Laws/Range.lean ====
section
/-! SUPPORT. The primitives keep their component in range, and from a component in range they do not depart from the rules. -/

namespace Sys2Proof.Machine

open Sys2Proof Sys2Proof.Safety

/-! ## Ranges -/

theorem oscAdvance_range {fmt : NumFormat} {wt : List Value} {o o' : Osc} {yp ys : Value}
    (h : oscAdvance fmt wt o = .ok (o', yp, ys)) (hr : OscInRange o) : OscInRange o' := by
  obtain ⟨_, rfl, _⟩ := oscAdvance_ok.mp h
  obtain ⟨h1, h2, h3, h4, h5, h6, _⟩ := hr
  have hf := fold_range o.W (by omega)
  refine ⟨h1, h2, h3, h4, h5, h6, (hf _).1, (hf _).2, ?_, ?_⟩ <;>
    simp only [oscStepped, shiftedStep] <;> split
  · exact (hf _).1
  · exact (hf _).1
  · exact (hf _).2
  · exact (hf _).2

theorem mafUpdate_range {fmt : NumFormat} {C : Nat} {m m' : Maf} {x y : Value} (h : mafUpdate fmt C m x = .ok (m', y))
    (hr : MafInRange fmt C m) : MafInRange fmt C m' := by
  obtain ⟨old, _, hw, _, _, _, _, rfl⟩ := mafUpdate_ok.mp h
  obtain ⟨h1, h2, h3, h4, h5, h6, h7⟩ := hr
  have hc : (m.cur + 1) % (windowOf fmt m.fs m.fc).toNat < (windowOf fmt m.fs m.fc).toNat := Nat.mod_lt _ (by omega)
  exact ⟨by simp [h1], by simp; omega, by simp; omega, by simp; omega, h5, h6, h7⟩

theorem pidRun_range {fmt : NumFormat} {P P' : Pid} {e v : Value} (h : pidRun fmt P e = .ok (P', v)) (hr : PidInRange P) :
    PidInRange P' := by
  obtain ⟨_, ⟨_, rfl, _⟩ | ⟨_, _, hcv, _, rfl, _⟩⟩ := pidRun_ok.mp h
  · exact hr
  · obtain ⟨h1, h2, _, _, h5⟩ := hr
    have hn : rawOutput fmt P (nextIntegrator fmt P e) e ≠ .nan := by
      intro hn
      have hc : clamp Value.nan P.min P.max = .nan := by
        unfold clamp
        cases P.max <;> simp [Value.lt]
      simp only [pidRan, hn, hc] at hcv
      cases hcv
    obtain ⟨c1, c2⟩ := clamp_between hn h2
    exact ⟨h1, h2, c1, c2, h5⟩

theorem pidEvent_range (ev : PidEvent) {P : Pid} (hr : PidInRange P) : PidInRange (pidEvent ev P) := by
  obtain ⟨_, h2, h3, h4, h5⟩ := hr
  unfold pidEvent
  split <;> (refine ⟨?_, h2, h3, h4, h5⟩; simp_all [resetDelay])

theorem pidAtReset_range (fmt : NumFormat) (r : Config.PidRecord) (h1 : r.min.le r.max = true) (h2 : positive r.Ts = true) :
    PidInRange (pidAtReset fmt r) := by
  obtain ⟨c1, c2⟩ := clamp_between (x := .fin 0) (by simp) h1
  exact ⟨by simp [pidAtReset], h1, c1, c2, h2⟩

theorem blockInRange_pid {s : State} (h : BlockInRange s) (sel : Sel) : PidInRange (s.pid sel) := by
  obtain ⟨_, _, _, _, hf, hs, _⟩ := h
  cases sel
  · exact hf
  · exact hs

theorem blockInRange_setPid {s : State} (h : BlockInRange s) (sel : Sel) {P : Pid} (hp : PidInRange P) :
    BlockInRange (s.setPid sel P) := by
  obtain ⟨h1, h2, h3, h4, hf, hs, h5⟩ := h
  cases sel
  · exact ⟨h1, h2, h3, h4, hp, hs, h5⟩
  · exact ⟨h1, h2, h3, h4, hf, hp, h5⟩

/-! ## Departures -/

/-- The body does not depart from the rules. -/
def Stays {α : Type} (x : Except Stop α) : Prop := ∀ f, x ≠ .error (.departed f)

theorem stays_bind {α β : Type} {x : Except Stop α} {f : α → Except Stop β} (hx : Stays x) (hf : ∀ a, Stays (f a)) :
    Stays (x >>= f) := by
  intro g h
  rcases bind_error.mp h with h | ⟨a, -, h⟩
  · exact hx g h
  · exact hf a g h

theorem stays_ok {α : Type} (a : α) : Stays (.ok a : Except Stop α) := by
  intro f h
  cases h

theorem stays_require (b : Bool) (c : Cause) : Stays (require b c) := by
  intro f h
  cases b <;> simp at h

theorem stays_requireFinite (x : Value) : Stays (requireFinite x) := stays_require _ _

theorem stays_memRead {l : List Value} {i : Int} (h0 : 0 ≤ i) (h1 : i < l.length) : Stays (memRead l i) := by
  intro f h
  have := (memRead_error.mp h).1
  omega

theorem toNum_last (fmt : NumFormat) : toNum fmt (Config.L - 1) = .fin 1023 := by
  simpa [Config.L] using toNum_small fmt 1023 (by omega)

theorem stays_interp {fmt : NumFormat} {wt : List Value} {x : Value} (hl : wt.length = Config.L) : Stays (interp fmt wt x) := by
  have hl : wt.length = 1024 := hl
  unfold interp
  split
  · exact stays_ok _
  · next h0 =>
    split
    · next h1 =>
      rw [toNum_last] at h1
      have hx : x.isFinite = true := by
        cases x with
        | inf a => cases a <;> simp_all [Value.lt]
        | nan => simp [Value.lt] at h1
        | _ => rfl
      rw [lt_of_finite hx rfl] at h1
      rw [lt_of_finite hx rfl] at h0
      simp at h0 h1
      have f0 : 0 ≤ x.floor := by rw [floor_eq]; exact Int.floor_nonneg.mpr h0
      have f1 : x.floor < 1023 := by rw [floor_eq]; exact Int.floor_lt.mpr (by exact_mod_cast h1)
      exact stays_bind (stays_memRead f0 (by omega)) fun _ => stays_bind (stays_memRead (by omega) (by omega)) fun _ =>
        stays_ok _
    · exact stays_bind (stays_memRead (by simp [Config.L]) (by simp [Config.L, hl])) fun _ =>
        stays_bind (stays_memRead (by simp) (by simp [hl])) fun _ => stays_ok _

theorem stays_oscAdvance {fmt : NumFormat} {wt : List Value} {o : Osc} (hl : wt.length = Config.L) (h : OscInRange o) :
    Stays (oscAdvance fmt wt o) := by
  unfold oscAdvance
  rw [if_pos ⟨h.1, h.2.1⟩]
  refine stays_bind ?_ fun _ => stays_bind (stays_require _ _) fun _ => stays_ok _
  unfold oscOutputs
  split
  · exact stays_bind (stays_interp hl) fun _ => stays_bind (stays_interp hl) fun _ => stays_ok _
  · exact stays_ok _

theorem stays_mafUpdate {fmt : NumFormat} {C : Nat} {m : Maf} {x : Value} (h : MafInRange fmt C m) :
    Stays (mafUpdate fmt C m x) := by
  obtain ⟨h1, h2, _, _, _, _, h7⟩ := h
  simp [roundsWithin] at h7
  unfold mafUpdate
  refine stays_bind (stays_memRead (by omega) (by omega)) fun _ => ?_
  dsimp only
  rw [if_pos (by unfold windowOf; omega)]
  refine stays_bind (stays_require _ _) fun _ => stays_bind ?_ fun _ => stays_ok _
  intro f h
  unfold memWrite at h
  rw [if_pos (by omega)] at h
  cases h

theorem stays_liaDemod {par : Config.Params} {wt : List Value} {o : Osc} {m : Maf} {e : Value} (hl : wt.length = Config.L)
    (h : OscInRange o) (hm : MafInRange par.num par.capacity m) : Stays (liaDemod par wt o m e) :=
  stays_bind (stays_requireFinite _) fun _ => stays_bind (stays_oscAdvance hl h) fun _ =>
    stays_bind (stays_requireFinite _) fun _ => stays_bind (stays_mafUpdate hm) fun _ => stays_ok _

theorem stays_pidRun (fmt : NumFormat) (P : Pid) (e : Value) : Stays (pidRun fmt P e) := by
  unfold pidRun
  refine stays_bind (stays_requireFinite _) fun _ => ?_
  split
  · exact stays_ok _
  · exact stays_bind (stays_require _ _) fun _ => stays_ok _

theorem stays_recomputeCoef (fmt : NumFormat) (P : Pid) (p i d Ts : Value) : Stays (recomputeCoef fmt P p i d Ts) :=
  stays_bind (stays_require _ _) fun _ => stays_ok _

/-- A transaction whose body stays within the rules does not stop with a fault. -/
theorem transact_stays {w : CmdWord} {s : State} {body : Except Stop Done} (h : Stays body) (f : Fault) :
    transact w s body ≠ .fault f :=
  fun hf => h f (transact_fault hf).2

end Sys2Proof.Machine
end

