-- ==== Sys2Proof/Laws/Reset.lean ====
section
/-! SUPPORT. The model's reset state is a state that R340 gives: the checks of R342 pass for CFG1 under the model's parameters, and reset
with CFG1 leaves exactly `State.reset`. -/

namespace Sys2Proof.Machine

open Sys2Proof

theorem cfg1_passes : firstFailedCheck defaultParams Config.cfg1 = none := by decide +kernel

theorem cfg1_wellFormed : Config.cfg1.wellFormed defaultParams.num = true := by decide +kernel

theorem defaultParams_wellFormed : defaultParams.wellFormed = true := by decide +kernel

/-- Reset with CFG1 in the reset state gives the reset state. -/
theorem reset_is_reset : applyReset Config.cfg1 State.reset = State.reset := by
  have h : firstFailedCheck State.reset.par Config.cfg1 = none := cfg1_passes
  unfold applyReset
  rw [h]
  rfl

/-- The arrays of the reset state have their sizes. -/
theorem reset_wf : Memory.wf State.reset = true := by
  rw [← reset_is_reset]
  exact applyReset_wf _ _

end Sys2Proof.Machine
end

