-- ==== Sys2Proof/Laws/Sine.lean ====
section
/-! SUPPORT. The literals of Machine/SineTable.lean are the sines they stand for (spec/00_scope.md R10, log 4): the sine and cosine of
one step from the sine series, and the others by the addition theorem. -/

namespace Sys2Proof

/-! ## The sine series -/

/-- The sum of the first terms of the series of `sin (a / b)`. -/
def sinSum (a b : Nat) : Nat → Rat
  | 0 => 0
  | k + 1 =>
    ratAdd (sinSum a b k) (mkRat ((-1) ^ k * (a : Int) ^ (2 * k + 1)) (b ^ (2 * k + 1) * Nat.factorial (2 * k + 1)))

theorem sinSum_cast (a b k : Nat) :
    ((sinSum a b k : Rat) : ℝ) =
      ∑ i ∈ Finset.range k, (-1) ^ i * (((a : ℝ) / b) ^ (2 * i + 1) / ((Nat.factorial (2 * i + 1) : Nat) : ℝ)) := by
  induction k with
  | zero => simp [sinSum]
  | succ k ih =>
    rw [sinSum, ratAdd_eq, Rat.cast_add, ih, Finset.sum_range_succ, Rat.mkRat_eq_div]
    congr 1
    push_cast
    rw [div_pow, mul_div_assoc, div_div]

/-- For an argument in `0..2` the partial sums with an even and an odd number of terms enclose the sine. -/
theorem sinSum_bounds (a b : Nat) (hb : 0 < b) (hab : a ≤ 2 * b) (k : Nat) :
    ((sinSum a b (2 * k) : Rat) : ℝ) ≤ Real.sin (a / b) ∧ Real.sin (a / b) ≤ ((sinSum a b (2 * k + 1) : Rat) : ℝ) := by
  have hb' : (0 : ℝ) < b := by exact_mod_cast hb
  have hx0 : (0 : ℝ) ≤ (a : ℝ) / b := by positivity
  have hx2 : (a : ℝ) / b ≤ 2 := by
    rw [div_le_iff₀ hb']
    exact_mod_cast hab
  have ht := (Real.hasSum_sin ((a : ℝ) / b)).tendsto_sum_nat
  have he : ∀ i : Nat, (-1 : ℝ) ^ i * ((a : ℝ) / b) ^ (2 * i + 1) / ((Nat.factorial (2 * i + 1) : Nat) : ℝ) =
      (-1) ^ i * (((a : ℝ) / b) ^ (2 * i + 1) / ((Nat.factorial (2 * i + 1) : Nat) : ℝ)) :=
    fun i => mul_div_assoc _ _ _
  simp only [he] at ht
  have ha : Antitone fun i : Nat => ((a : ℝ) / b) ^ (2 * i + 1) / ((Nat.factorial (2 * i + 1) : Nat) : ℝ) := by
    apply antitone_nat_of_succ_le
    intro i
    have hf : Nat.factorial (2 * (i + 1) + 1) = (2 * i + 3) * ((2 * i + 2) * Nat.factorial (2 * i + 1)) := by
      rw [show 2 * (i + 1) + 1 = (2 * i + 2) + 1 by ring, Nat.factorial_succ, Nat.factorial_succ]
    have hp : (0 : ℝ) < ((Nat.factorial (2 * i + 1) : Nat) : ℝ) := by exact_mod_cast Nat.factorial_pos _
    rw [hf, show 2 * (i + 1) + 1 = (2 * i + 1) + 2 by ring, pow_add]
    push_cast
    rw [div_le_div_iff₀ (by positivity) hp]
    have hx : ((a : ℝ) / b) ^ 2 ≤ (2 * (i : ℝ) + 3) * (2 * i + 2) := by
      have h4 : ((a : ℝ) / b) ^ 2 ≤ 4 := by nlinarith
      have hi : (0 : ℝ) ≤ i := by positivity
      nlinarith
    have hm : (0 : ℝ) ≤ ((a : ℝ) / b) ^ (2 * i + 1) * ((Nat.factorial (2 * i + 1) : Nat) : ℝ) := by positivity
    nlinarith [mul_le_mul_of_nonneg_left hx hm]
  rw [sinSum_cast, sinSum_cast]
  exact ⟨ha.alternating_series_le_tendsto ht k, ha.tendsto_le_alternating_series ht k⟩

/-! ## One step -/

/-- `floor (pi * 2^120)`. -/
def piShort : Nat := piFloor / 2 ^ 140 / 2 ^ 140

theorem piShort_bounds : (piShort : ℝ) / 2 ^ 120 ≤ Real.pi ∧ Real.pi ≤ ((piShort : ℝ) + 1) / 2 ^ 120 := by
  have h1 : piShort * (2 ^ 140 * 2 ^ 140) ≤ piFloor := by decide +kernel
  have h2 : piFloor + 1 ≤ (piShort + 1) * (2 ^ 140 * 2 ^ 140) := by decide +kernel
  have hs : piScale = 2 ^ 120 * (2 ^ 140 * 2 ^ 140) := by decide +kernel
  have hpos : (0 : ℝ) < (2 ^ 140 * 2 ^ 140 : Nat) := by positivity
  have hsr : ((piScale : Nat) : ℝ) = 2 ^ 120 * (2 ^ 140 * 2 ^ 140 : Nat) := by rw [hs]; norm_num
  obtain ⟨hb, ha⟩ := pi_bounds
  rw [hsr] at hb ha
  have h1r : (piShort : ℝ) * (2 ^ 140 * 2 ^ 140 : Nat) ≤ piFloor := by exact_mod_cast h1
  have h2r : (piFloor : ℝ) + 1 ≤ ((piShort : ℝ) + 1) * (2 ^ 140 * 2 ^ 140 : Nat) := by exact_mod_cast h2
  constructor
  · refine le_trans ?_ hb.le
    rw [div_le_div_iff₀ (by positivity) (by positivity)]
    nlinarith
  · refine le_trans ha.le ?_
    rw [div_le_div_iff₀ (by positivity) (by positivity)]
    nlinarith

/-- Is the literal with index `k` within one unit of the enclosed sine, with room for the error of `piShort`? -/
def sineLiteralOk (k m : Nat) : Bool :=
  ratLt (mkRat ((m : Int) - 1) (2 ^ 100)) (ratAdd (sinSum (k * piShort) (512 * 2 ^ 120) 20) (mkRat (-1) (2 ^ 120))) &&
    ratLt (ratAdd (sinSum (k * piShort) (512 * 2 ^ 120) 21) (mkRat 1 (2 ^ 120))) (mkRat ((m : Int) + 1) (2 ^ 100))

theorem sineLiteral_near {k m : Nat} (hk : k ≤ 256) (h : sineLiteralOk k m = true) :
    |(m : ℝ) - 2 ^ 100 * Real.sin (Real.pi * k / 512)| ≤ 1 := by
  obtain ⟨hp0, hp1⟩ := piShort_bounds
  have hshort : piShort ≤ 4 * 2 ^ 120 := by decide +kernel
  obtain ⟨hlo, hhi⟩ := sinSum_bounds (k * piShort) (512 * 2 ^ 120) (by positivity) (by nlinarith) 10
  simp only [sineLiteralOk, Bool.and_eq_true, ratLt_iff, ratAdd_eq, Rat.mkRat_eq_div] at h
  obtain ⟨h1, h2⟩ := h
  have h1r : ((m : ℝ) - 1) / 2 ^ 100 < ((sinSum (k * piShort) (512 * 2 ^ 120) 20 : Rat) : ℝ) + -1 / 2 ^ 120 := by
    have : (((((m : Int) - 1 : Int) : Rat) / ((2 ^ 100 : Nat) : Rat) : Rat) : ℝ) <
        ((sinSum (k * piShort) (512 * 2 ^ 120) 20 + ((-1 : Int) : Rat) / ((2 ^ 120 : Nat) : Rat) : Rat) : ℝ) := by
      exact_mod_cast h1
    norm_num at this ⊢
    exact this
  have h2r : ((sinSum (k * piShort) (512 * 2 ^ 120) 21 : Rat) : ℝ) + 1 / 2 ^ 120 < ((m : ℝ) + 1) / 2 ^ 100 := by
    have : ((sinSum (k * piShort) (512 * 2 ^ 120) 21 + ((1 : Int) : Rat) / ((2 ^ 120 : Nat) : Rat) : Rat) : ℝ) <
        (((((m : Int) + 1 : Int) : Rat) / ((2 ^ 100 : Nat) : Rat) : Rat) : ℝ) := by
      exact_mod_cast h2
    norm_num at this ⊢
    exact this
  have hk' : (k : ℝ) ≤ 256 := by exact_mod_cast hk
  have hk0 : (0 : ℝ) ≤ k := by positivity
  have hd := Real.abs_sin_sub_sin_le (Real.pi * k / 512) (((k * piShort : Nat) : ℝ) / ((512 * 2 ^ 120 : Nat) : ℝ))
  have hx : |Real.pi * k / 512 - ((k * piShort : Nat) : ℝ) / ((512 * 2 ^ 120 : Nat) : ℝ)| ≤ 1 / 2 ^ 120 := by
    have e : Real.pi * k / 512 - ((k * piShort : Nat) : ℝ) / ((512 * 2 ^ 120 : Nat) : ℝ) =
        k / 512 * (Real.pi - (piShort : ℝ) / 2 ^ 120) := by
      rw [Nat.cast_mul, Nat.cast_mul, Nat.cast_pow, Nat.cast_ofNat, Nat.cast_ofNat]
      generalize (2 : ℝ) ^ 120 = T at *
      ring
    have hg : Real.pi - (piShort : ℝ) / 2 ^ 120 ≤ 1 / 2 ^ 120 := by
      have : ((piShort : ℝ) + 1) / 2 ^ 120 = (piShort : ℝ) / 2 ^ 120 + 1 / 2 ^ 120 := by ring
      linarith
    have hg0 : 0 ≤ Real.pi - (piShort : ℝ) / 2 ^ 120 := by linarith
    rw [e, abs_of_nonneg (by positivity)]
    have : (k : ℝ) / 512 ≤ 1 := by linarith
    nlinarith
  have hs := abs_le.mp (hd.trans hx)
  rw [abs_le]
  generalize Real.sin (Real.pi * k / 512) = y at *
  generalize Real.sin (((k * piShort : Nat) : ℝ) / ((512 * 2 ^ 120 : Nat) : ℝ)) = z at *
  norm_num at h1r h2r hlo hhi hs ⊢
  constructor <;> linarith

/-! ## All steps -/

/-- The literal with index `k`. -/
def sineLiteral (k : Nat) : Int := (sineQuarter.getD k 0 : Nat)

theorem sineLiteral_steps : ∀ k : Fin 256,
    (sineLiteral (k + 1) * 2 ^ 100 - (sineLiteral k * sineLiteral 255 + sineLiteral (256 - k) * sineLiteral 1)).natAbs ≤
        4 * 2 ^ 100 ∧
      (sineLiteral (255 - k) * 2 ^ 100 - (sineLiteral (256 - k) * sineLiteral 255 - sineLiteral k * sineLiteral 1)).natAbs ≤
        4 * 2 ^ 100 := by
  decide +kernel

theorem sineLiteral_first : sineLiteralOk 1 (sineQuarter.getD 1 0) = true := by decide +kernel

theorem sineLiteral_last : sineLiteralOk 255 (sineQuarter.getD 255 0) = true := by decide +kernel

/-- The error after one step of the addition theorem, in units of the literals. -/
theorem addition_step {S m n c s m' x y cx sx e : ℝ} (hS : 0 < S) (hc0 : 0 ≤ c) (hs0 : 0 ≤ s) (hcs : c + s ≤ 101 / 100 * S)
    (hx : |m - S * x| ≤ e) (hy : |n - S * y| ≤ e) (hcx : |c - S * cx| ≤ 1) (hsx : |s - S * sx| ≤ 1) (hx1 : |x| ≤ 1)
    (hy1 : |y| ≤ 1) (h : |m' * S - (m * c + n * s)| ≤ 4 * S) : |m' - S * (x * cx + y * sx)| ≤ 101 / 100 * e + 7 := by
  have he : 0 ≤ e := (abs_nonneg _).trans hx
  have h1 : |(m - S * x) * c| ≤ e * c := by rw [abs_mul, abs_of_nonneg hc0]; exact mul_le_mul_of_nonneg_right hx hc0
  have h2 : |(n - S * y) * s| ≤ e * s := by rw [abs_mul, abs_of_nonneg hs0]; exact mul_le_mul_of_nonneg_right hy hs0
  have h3 : |S * x * (c - S * cx)| ≤ S := by
    rw [abs_mul, abs_mul, abs_of_pos hS]
    have : |x| * |c - S * cx| ≤ 1 := mul_le_one₀ hx1 (abs_nonneg _) hcx
    nlinarith
  have h4 : |S * y * (s - S * sx)| ≤ S := by
    rw [abs_mul, abs_mul, abs_of_pos hS]
    have : |y| * |s - S * sx| ≤ 1 := mul_le_one₀ hy1 (abs_nonneg _) hsx
    nlinarith
  have h5 : e * c + e * s ≤ 101 / 100 * e * S := by nlinarith
  have key : |(m' - S * (x * cx + y * sx)) * S| ≤ (101 / 100 * e + 7) * S := by
    have e1 : (m' - S * (x * cx + y * sx)) * S =
        (m' * S - (m * c + n * s)) + (m - S * x) * c + (n - S * y) * s + S * x * (c - S * cx) + S * y * (s - S * sx) := by
      ring
    rw [e1]
    rw [abs_le] at *
    constructor <;> linarith [h.1, h.2, h1.1, h1.2, h2.1, h2.2, h3.1, h3.2, h4.1, h4.2]
  rw [abs_mul, abs_of_pos hS] at key
  exact le_of_mul_le_mul_right key hS

/-- The sine and the cosine of each step, with the error that the addition theorem lets grow. -/
theorem sineLiteral_both (k : Nat) (hk : k ≤ 256) :
    |(sineLiteral k : ℝ) - 2 ^ 100 * Real.sin (Real.pi * k / 512)| ≤ 700 * ((101 / 100) ^ k - 1) ∧
      |(sineLiteral (256 - k) : ℝ) - 2 ^ 100 * Real.cos (Real.pi * k / 512)| ≤ 700 * ((101 / 100) ^ k - 1) := by
  have h1 := sineLiteral_near (k := 1) (by omega) sineLiteral_first
  have h255 := sineLiteral_near (k := 255) (by omega) sineLiteral_last
  have hcos : Real.sin (Real.pi * (255 : Nat) / 512) = Real.cos (Real.pi * (1 : Nat) / 512) := by
    rw [← Real.sin_pi_div_two_sub]
    congr 1
    push_cast
    ring
  rw [hcos] at h255
  have hc : 0 ≤ (sineLiteral 255 : ℝ) := by exact_mod_cast (by decide +kernel : 0 ≤ sineLiteral 255)
  have hs : 0 ≤ (sineLiteral 1 : ℝ) := by exact_mod_cast (by decide +kernel : 0 ≤ sineLiteral 1)
  have hcs : (sineLiteral 255 : ℝ) + sineLiteral 1 ≤ 101 / 100 * 2 ^ 100 := by
    have : sineLiteral 255 * 100 + sineLiteral 1 * 100 ≤ 101 * 2 ^ 100 := by decide +kernel
    have : (sineLiteral 255 : ℝ) * 100 + sineLiteral 1 * 100 ≤ 101 * 2 ^ 100 := by exact_mod_cast this
    linarith
  induction k with
  | zero =>
    have h0 : sineLiteral 0 = 0 := by decide +kernel
    have h256 : sineLiteral (256 - 0) = 2 ^ 100 := by decide +kernel
    rw [h0, h256]
    norm_num
  | succ k ih =>
    obtain ⟨ihs, ihc⟩ := ih (by omega)
    obtain ⟨st, ct⟩ := sineLiteral_steps ⟨k, by omega⟩
    have toReal : ∀ z b : Int, z.natAbs ≤ b.toNat → 0 ≤ b → |(z : ℝ)| ≤ b := by
      intro z b hz hb
      have : |z| ≤ b := by rw [Int.abs_eq_natAbs]; omega
      rw [← Int.cast_abs]
      exact_mod_cast this
    have st' := toReal _ (4 * 2 ^ 100) (by exact st) (by norm_num)
    have ct' := toReal _ (4 * 2 ^ 100) (by exact ct) (by norm_num)
    simp only [Int.cast_sub, Int.cast_add, Int.cast_mul, Int.cast_pow, Int.cast_ofNat] at st' ct'
    have hS : (0 : ℝ) < 2 ^ 100 := by positivity
    have e1 : Real.pi * ((k + 1 : Nat) : ℝ) / 512 = Real.pi * k / 512 + Real.pi * (1 : Nat) / 512 := by push_cast; ring
    have ee : 700 * ((101 / 100 : ℝ) ^ (k + 1) - 1) = 101 / 100 * (700 * ((101 / 100) ^ k - 1)) + 7 := by ring
    have hsin := addition_step hS hc hs hcs ihs ihc h255 h1 (Real.abs_sin_le_one _) (Real.abs_cos_le_one _) st'
    have ihs' : |-(sineLiteral k : ℝ) - 2 ^ 100 * -Real.sin (Real.pi * k / 512)| ≤ 700 * ((101 / 100) ^ k - 1) := by
      rw [show -(sineLiteral k : ℝ) - 2 ^ 100 * -Real.sin (Real.pi * k / 512) =
        -((sineLiteral k : ℝ) - 2 ^ 100 * Real.sin (Real.pi * k / 512)) by ring, abs_neg]
      exact ihs
    rw [sub_eq_add_neg _ ((sineLiteral k : ℝ) * _), ← neg_mul] at ct'
    have hcosk := addition_step hS hc hs hcs ihc ihs' h255 h1 (Real.abs_cos_le_one _)
      (by rw [abs_neg]; exact Real.abs_sin_le_one _) ct'
    rw [e1, ee, Real.sin_add, Real.cos_add, show 256 - (k + 1) = 255 - k by omega]
    refine ⟨hsin, ?_⟩
    rw [neg_mul, ← sub_eq_add_neg] at hcosk
    exact hcosk

/-- Every literal is the sine at its position to 86 bits: no literal is off by `2^14` units of `2^-100`. -/
theorem sineLiteral_near_all (k : Nat) (hk : k ≤ 256) :
    |(sineLiteral k : ℝ) - 2 ^ 100 * Real.sin (Real.pi * k / 512)| ≤ 2 ^ 14 := by
  refine (sineLiteral_both k hk).1.trans ?_
  have h1 : (101 / 100 : ℝ) ^ k ≤ (101 / 100) ^ 256 := pow_le_pow_right₀ (by norm_num) hk
  have h2 : (101 / 100 : ℝ) ^ 256 ≤ 20 := by norm_num
  linarith

end Sys2Proof
end

