-- ==== Sys2Proof/Laws/Values.lean ====
section
/-! SUPPORT. The primitives give finite values of NUM from finite values of NUM. -/

namespace Sys2Proof.Machine

open Sys2Proof Sys2Proof.Safety

variable {fmt : NumFormat}

theorem good_zero : Good fmt (.fin 0) := ⟨isOf_zero fmt, rfl⟩

theorem good_zeroDelay : GoodDly fmt zeroDelay := ⟨good_zero, good_zero, good_zero, good_zero⟩

/-! ## The ping-pong pairs -/

theorem two_get {α : Type} (p : α → Prop) (t : Two α) (i : Fin 2) (h0 : p t.zero) (h1 : p t.one) : p (t.get i) := by
  unfold Two.get
  split <;> assumption

theorem two_set {α : Type} (p : α → Prop) (t : Two α) (i : Fin 2) (a : α) (h0 : p t.zero) (h1 : p t.one) (h : p a) :
    p (t.set i a).zero ∧ p (t.set i a).one := by
  unfold Two.set
  split <;> exact ⟨by assumption, by assumption⟩

/-! ## Table, oscillator and filter -/

theorem interp_isOf {wt : List Value} {x v : Value} (hw : ∀ v ∈ wt, isOf fmt v = true) (hx : isOf fmt x = true)
    (h : interp fmt wt x = .ok v) : isOf fmt v = true := by
  have mem : ∀ i v, memRead wt i = .ok v → isOf fmt v = true := fun i v hv =>
    hw v (List.mem_of_getElem? (memRead_ok.mp hv).2)
  have sl : ∀ a b f, isOf fmt a = true → isOf fmt b = true → isOf fmt f = true → isOf fmt (slope fmt a b f) = true :=
    fun a b f ha hb hf => isOf_add ha (isOf_mul hf (isOf_sub hb ha))
  rcases interp_ok h with ⟨_, rfl⟩ | ⟨_, _, a, b, ha, hb, rfl⟩ | ⟨_, _, a, b, ha, hb, rfl⟩
  · exact isOf_zero _
  · exact sl _ _ _ (mem _ _ ha) (mem _ _ hb) (isOf_sub hx (isOf_toNum _ _))
  · exact sl _ _ _ (mem _ _ ha) (mem _ _ hb) (isOf_sub hx (isOf_toNum _ _))

/-- The oscillator's values of NUM are good. -/
def GoodOsc (fmt : NumFormat) (o : Osc) : Prop :=
  Good fmt o.amp ∧ Good fmt o.off ∧ Good fmt o.phaseCfg ∧ Good fmt o.phaseSeen

theorem oscAdvance_good {wt : List Value} {o o' : Osc} {yp ys : Value} (h : oscAdvance fmt wt o = .ok (o', yp, ys))
    (ho : GoodOsc fmt o) : GoodOsc fmt o' := by
  obtain ⟨_, rfl, _⟩ := oscAdvance_ok.mp h
  refine ⟨ho.1, ho.2.1, ho.2.2.1, ?_⟩
  simp only [oscStepped, shiftedStep]
  split
  · exact ho.2.2.1
  · exact ho.2.2.2

theorem oscAdvance_isOf {wt : List Value} {o o' : Osc} {yp ys : Value} (hw : ∀ v ∈ wt, Good fmt v) (ho : GoodOsc fmt o)
    (h : oscAdvance fmt wt o = .ok (o', yp, ys)) : isOf fmt ys = true := by
  obtain ⟨_, rfl, hout, _⟩ := oscAdvance_ok.mp h
  cases he : o.en
  · rw [oscOutputs_disabled he] at hout
    cases hout
    exact isOf_zero _
  · obtain ⟨_, y, hy, rfl⟩ := (oscOutputs_enabled he).mp hout
    have hpos := isOf_div (isOf_toNum fmt (oscStepped o).accS) (isOf_toNum fmt (2 ^ (o.W - o.G) : Nat))
    exact isOf_add (isOf_mul (interp_isOf (fun v hv => (hw v hv).1) hpos hy) ho.1.1) ho.2.1.1

/-- The filter's values of NUM are good. -/
def GoodMaf (fmt : NumFormat) (m : Maf) : Prop :=
  (∀ v ∈ m.buf, Good fmt v) ∧ Good fmt m.sum ∧ Good fmt m.fc ∧ Good fmt m.fs

theorem mafUpdate_good {C : Nat} {m m' : Maf} {x y : Value} (h : mafUpdate fmt C m x = .ok (m', y)) (hx : Good fmt x)
    (hm : GoodMaf fmt m) : GoodMaf fmt m' := by
  obtain ⟨old, ho, _, hf, _, _, _, rfl⟩ := mafUpdate_ok.mp h
  have hold : Good fmt old := hm.1 _ (List.mem_of_getElem? (memRead_ok.mp ho).2)
  refine ⟨fun v hv => ?_, ⟨isOf_add (isOf_sub hm.2.1.1 hold.1) hx.1, hf⟩, hm.2.2.1, hm.2.2.2⟩
  rcases List.mem_or_eq_of_mem_set hv with h | rfl
  · exact hm.1 _ h
  · exact hx

/-! ## Controllers -/

theorem clamp_keeps {x lo hi : Value} (p : Value → Prop) (hx : p x) (hl : p lo) (hh : p hi) : p (clamp x lo hi) := by
  unfold clamp
  split
  · exact hl
  · split
    · exact hh
    · exact hx

theorem pidRun_good {P P' : Pid} {e v : Value} (h : pidRun fmt P e = .ok (P', v)) (he : isOf fmt e = true)
    (hp : GoodPid fmt P) : GoodPid fmt P' ∧ Good fmt v := by
  obtain ⟨hef, ⟨_, rfl, rfl⟩ | ⟨_, hi, hcv, hs, rfl, rfl⟩⟩ := pidRun_ok.mp h
  · exact ⟨hp, hp.2.2.2.2.2.2.2.2.2.2.2.2.2⟩
  obtain ⟨a1, a2, a3, a4, a5, a6, a7, a8, a9, c0, c1, d0, d1, cv⟩ := hp
  have hC : GoodCoef fmt P.activeCoef := two_get _ _ _ c0 c1
  have hD : GoodDly fmt P.activeDly := two_get _ _ _ d0 d1
  have hinc : isOf fmt (increment fmt P.activeCoef P.activeDly e) = true :=
    isOf_add (isOf_mul hC.2.1.1 he) (isOf_mul hD.2.2.2.1 hD.2.1.1)
  have hI : isOf fmt (nextIntegrator fmt P e) = true := by
    unfold nextIntegrator antiWindup
    split
    · exact isOf_add hD.1.1 hinc
    · split
      · exact isOf_add hD.1.1 hinc
      · exact hD.1.1
  have hR : isOf fmt (rawOutput fmt P (nextIntegrator fmt P e) e) = true :=
    isOf_mul a5.1 (isOf_add (isOf_add (isOf_mul hC.1.1 he) hI) (isOf_mul hC.2.2.1 (isOf_sub he hD.2.1.1)))
  have hcv' : Good fmt (pidRan fmt P e).cv := ⟨clamp_keeps (fun v => isOf fmt v = true) hR a6 a8, hcv⟩
  have hnew : GoodDly fmt (pidRan fmt P e).activeDly := by
    simp only [pidRan, Pid.activeDly, get_set] at hs hi ⊢
    exact ⟨⟨hI, hi⟩, ⟨he, hef⟩, ⟨isOf_sub hcv'.1 hR, hs⟩, hC.2.1⟩
  simp only [pidRan, Pid.activeDly, get_set] at hnew
  have hd := two_set (GoodDly fmt) P.dly P.ad _ d0 d1 hnew
  exact ⟨⟨a1, a2, a3, a4, a5, a6, a7, a8, a9, c0, c1, hd.1, hd.2, hcv'⟩, hcv'⟩

theorem pidEvent_good (ev : PidEvent) {P : Pid} (hp : GoodPid fmt P) : GoodPid fmt (pidEvent ev P) := by
  obtain ⟨a1, a2, a3, a4, a5, a6, a7, a8, a9, c0, c1, d0, d1, cv⟩ := hp
  have hd := two_set (GoodDly fmt) P.dly (shadow P.ad) zeroDelay d0 d1 good_zeroDelay
  unfold pidEvent
  split <;> first
    | exact ⟨a1, a2, a3, a4, a5, a6, a7, a8, a9, c0, c1, d0, d1, cv⟩
    | exact ⟨a1, a2, a3, a4, a5, a6, a7, a8, a9, c0, c1, hd.1, hd.2, cv⟩

theorem coefs_good {p i d Ts : Value} (hp : Good fmt p) (hi : isOf fmt i = true) (hd : isOf fmt d = true)
    (ht : isOf fmt Ts = true) (h : (coefs fmt p i d Ts).finite = true) : GoodCoef fmt (coefs fmt p i d Ts) := by
  simp [CoefSet.finite] at h
  exact ⟨hp, ⟨isOf_div (isOf_mul hi ht) (isOf_toNum _ _), h.1⟩, ⟨isOf_div hd ht, h.2⟩⟩

theorem recomputed_good {P : Pid} {p i d Ts : Value} (hP : GoodPid fmt P) (hp : Good fmt p) (hi : Good fmt i)
    (hd : Good fmt d) (ht : Good fmt Ts) (h : (coefs fmt p i d Ts).finite = true) :
    GoodPid fmt { recomputed fmt P p i d Ts with p := p, i := i, d := d, Ts := Ts } := by
  obtain ⟨a1, a2, a3, a4, a5, a6, a7, a8, a9, c0, c1, d0, d1, cv⟩ := hP
  have hc := two_set (GoodCoef fmt) P.coef (shadow P.ac) _ c0 c1 (coefs_good hp hi.1 hd.1 ht.1 h)
  exact ⟨ht, hp, hi, hd, a5, a6, a7, a8, a9, hc.1, hc.2, d0, d1, cv⟩

theorem pidAtReset_good {r : Config.PidRecord} (hw : r.wellFormed fmt = true) (h : pidRecordFinite r = true)
    (hc : (coefs fmt r.p r.i r.d r.Ts).finite = true) : GoodPid fmt (pidAtReset fmt r) := by
  simp [Config.PidRecord.wellFormed] at hw
  simp [pidRecordFinite] at h
  obtain ⟨w1, w2, w3, w4, w5, w6, w7⟩ := hw
  obtain ⟨⟨⟨f1, f2, f3, f4, f5⟩, f6⟩, f7⟩ := h
  have hcv : Good fmt (clamp (.fin 0) r.min r.max) := by
    refine ⟨clamp_keeps (fun v => isOf fmt v = true) (isOf_zero _) w6 w7, ?_⟩
    unfold clamp
    split
    · next h =>
      rcases f6 with f6 | f6
      · exact f6
      · rw [f6] at h; simp [Value.lt] at h
    · split
      · next h =>
        rcases f7 with f7 | f7
        · exact f7
        · rw [f7] at h; simp [Value.lt] at h
      · rfl
  have hco := coefs_good ⟨w2, f2⟩ w3 w4 w1 hc
  exact ⟨⟨w1, f1⟩, ⟨w2, f2⟩, ⟨w3, f3⟩, ⟨w4, f4⟩, ⟨w5, f5⟩, w6, f6, w7, f7, hco, hco, good_zeroDelay, good_zeroDelay, hcv⟩

end Sys2Proof.Machine
end

