-- ==== Sys2Proof/Machine/Agents.lean ====
section
/-! DEFINITION. What the agents do around the port (spec/60_exceptions.md R318, R319; spec/30_encoding.md R110): the tick agent's use
of one sample, and the pseudo-instructions, each two commands. -/

namespace Sys2Proof.Machine

open Sys2Proof

/-- The port event by which an agent issues an instruction. -/
def issueBy (a : Agent) (i : Instr) : PortEvent := .command a i.word i.operands

/-- The tick agent's command for the sample `e` it has read: exactly one CL_STEP per tick (R318, R319). -/
def tickCommand (e : Value) : PortEvent := issueBy .tick (.clStep e)

/-- What the tick agent writes to the actuator after its CL_STEP, `res1` to the fast channel and `res0` to the slow one (R318). None if
the command was answered HALTED. -/
def actuatorWrites (a : Answer) : Option (Value × Value) :=
  match a.num1, a.num0 with
  | some fast, some slow => some (fast, slow)
  | _, _ => none

/-- The pseudo-instruction `PID_RESTART s`: `PID_DISABLE s` then `PID_ENABLE s` (R110). -/
def pidRestart (sel : Sel) : List Instr := [.pidDisable sel, .pidEnable sel]

/-- The pseudo-instruction `PID_START_ALL`: `PID_ENABLE fast` then `PID_ENABLE slow` (R110). -/
def pidStartAll : List Instr := [.pidEnable .fast, .pidEnable .slow]

end Sys2Proof.Machine
end

