-- ==== Sys2Proof/Machine/Assembler.lean ====
section
/-! DEFINITION. The assembler syntax (spec/30_encoding.md R109, R110): one line of text to the commands it stands for. -/

namespace Sys2Proof.Asm

open Sys2Proof Sys2Proof.Machine

/-! ## Tokens -/

/-- A token of a line: a run of characters other than blanks and commas, or a comma. -/
inductive Token where
  | text (cs : List Char)
  | comma
  deriving DecidableEq, Repr

/-- Put the characters read so far, in reverse, before the tokens that follow. -/
def flush (acc : List Char) (rest : List Token) : List Token :=
  match acc with
  | [] => rest
  | _ => .text acc.reverse :: rest

/-- The tokens of a line; a semicolon begins the comment. -/
def tokens (acc : List Char) (cs : List Char) : List Token :=
  match cs with
  | [] => flush acc []
  | c :: cs =>
    if c = ';' then flush acc []
    else if c = ',' then flush acc (.comma :: tokens [] cs)
    else if c = ' ' ∨ c = '\t' then flush acc (tokens [] cs)
    else tokens (c :: acc) cs

/-! ## Numbers -/

def digit (c : Char) : Option Nat :=
  if '0'.toNat ≤ c.toNat ∧ c.toNat ≤ '9'.toNat then some (c.toNat - '0'.toNat) else none

/-- The digits at the head of a text: their value, how many there are, and what follows. -/
def digits (value count : Nat) (cs : List Char) : Nat × Nat × List Char :=
  match cs with
  | [] => (value, count, [])
  | c :: cs =>
    match digit c with
    | some d => digits (10 * value + d) (count + 1) cs
    | none => (value, count, c :: cs)

/-- A sign at the head of a text: is it a minus, and what follows. -/
def signOf (cs : List Char) : Bool × List Char :=
  match cs with
  | '+' :: cs => (false, cs)
  | '-' :: cs => (true, cs)
  | cs => (false, cs)

/-- The exponent part: absent, or `e` or `E`, a sign and at least one digit up to the end. -/
def exponentOf (cs : List Char) : Option Int :=
  match cs with
  | [] => some 0
  | c :: cs =>
    if c = 'e' ∨ c = 'E' then
      let (neg, cs) := signOf cs
      match digits 0 0 cs with
      | (v, n, []) => if n = 0 then none else some (if neg then -(v : Int) else v)
      | _ => none
    else none

/-- `mantissa * 10^exponent`. -/
def decimal (mantissa : Nat) (e : Int) : Rat :=
  mkRat (mantissa * 10 ^ e.toNat : Nat) (10 ^ (-e).toNat)

/-- The fraction part: absent, or a point and at least one digit. The mantissa with the fraction's digits, how many of these there are,
and what follows. -/
def fractionOf (value : Nat) (cs : List Char) : Option (Nat × Nat × List Char) :=
  match cs with
  | '.' :: cs =>
    match digits value 0 cs with
    | (_, 0, _) => none
    | (v, n, rest) => some (v, n, rest)
  | cs => some (value, 0, cs)

/-- An unsigned decimal number (R109). -/
def unsignedOf (cs : List Char) : Option Rat :=
  match digits 0 0 cs with
  | (_, 0, _) => none
  | (v, _, rest) =>
    match fractionOf v rest with
    | none => none
    | some (m, k, rest) =>
      match exponentOf rest with
      | none => none
      | some e => some (decimal m (e - k))

/-- A number: the decimal value rounded to the nearest NUM value, ties to even (R109). `inf` and `-inf` are numbers of the IEEE formats
only; a minus before a zero gives `-0` (log 12). -/
def numberOf (fmt : NumFormat) (cs : List Char) : Option Value :=
  if cs = ['i', 'n', 'f'] then (if fmt = .exact then none else some (.inf false))
  else if cs = ['-', 'i', 'n', 'f'] then (if fmt = .exact then none else some (.inf true))
  else
    let (neg, cs) := signOf cs
    match unsignedOf cs with
    | none => none
    | some q => some (rnd fmt neg (.rat (if neg then -q else q)))

/-- One number or more, separated by commas. -/
def numbers (fmt : NumFormat) (ts : List Token) : Option (List Value) :=
  match ts with
  | [.text cs] => (numberOf fmt cs).map (fun v => [v])
  | .text cs :: .comma :: ts =>
    match numberOf fmt cs, numbers fmt ts with
    | some v, some vs => some (v :: vs)
    | _, _ => none
  | _ => none

/-- The operands of a line: absent, or a comma that may stand before them and the numbers. -/
def operandsOf (fmt : NumFormat) (ts : List Token) : Option (List Value) :=
  match ts with
  | [] => some []
  | .comma :: ts => numbers fmt ts
  | ts => numbers fmt ts

/-! ## Lines -/

/-- A letter in lower case. -/
def lower (c : Char) : Char :=
  if 'A'.toNat ≤ c.toNat ∧ c.toNat ≤ 'Z'.toNat then Char.ofNat (c.toNat + 32) else c

def lowerAll (cs : List Char) : List Char := cs.map lower

/-- The mnemonics of the opcode map (R105), in lower case: mnemonics are case-insensitive (R109). -/
def mnemonics : List (String × Opcode) :=
  [("nop", .nop), ("wt_interp", .wtInterp), ("osc_advance", .oscAdvance), ("osc_set_enable", .oscSetEnable),
   ("osc_set_phase", .oscSetPhase), ("maf_update", .mafUpdate), ("maf_set_cutoff", .mafSetCutoff),
   ("lia_demod", .liaDemod), ("pid_run", .pidRun), ("pid_enable", .pidEnable), ("pid_disable", .pidDisable),
   ("pid_hold", .pidHold), ("pid_reset", .pidReset), ("pid_is_limited", .pidIsLimited), ("pid_set_p", .pidSetP),
   ("pid_set_i", .pidSetI), ("pid_set_d", .pidSetD), ("pid_set_gains", .pidSetGains), ("pid_set_ts", .pidSetTs),
   ("cl_step", .clStep)]

def opcodeOf (cs : List Char) : Option Opcode :=
  (mnemonics.find? (fun m => m.1.toList == lowerAll cs)).map (fun m => m.2)

/-- The selector `fast` or `slow`. -/
def selectorOf (ts : List Token) : Option (Sel × List Token) :=
  match ts with
  | .text cs :: ts =>
    if cs = ['f', 'a', 's', 't'] then some (.fast, ts)
    else if cs = ['s', 'l', 'o', 'w'] then some (.slow, ts)
    else none
  | _ => none

/-- The bit `B` that a line's selector gives, by format: `fast` or `slow` in format S, `on` or `off` in format E, none in format P, each
required there (R109). -/
def selectorBit (f : Format) (ts : List Token) : Option (Bool × List Token) :=
  match f with
  | .plain => some (false, ts)
  | .select => (selectorOf ts).map (fun r => (r.1.bit, r.2))
  | .enable =>
    match ts with
    | .text cs :: ts =>
      if cs = ['o', 'n'] then some (true, ts)
      else if cs = ['o', 'f', 'f'] then some (false, ts)
      else none
    | _ => none

/-- The format of a row. -/
def formatOf (op : Opcode) : Option Format :=
  (opcodeTable.find? (fun r => r.op == op)).map (fun r => r.format)

/-- A command after its mnemonic. -/
def commandOf (fmt : NumFormat) (op : Opcode) (ts : List Token) : Option Instr := do
  let f ← formatOf op
  let (b, ts) ← selectorBit f ts
  let ops ← operandsOf fmt ts
  assemble op b ops

/-- The commands that one line stands for (R109), a pseudo-instruction two of them (R110), an empty line or a comment none; nothing for a
line that is not of the syntax. The names of the pseudo-instructions are accepted in any letter case, as the mnemonics of R105 are: the
spec gives that for the mnemonics only (DESIGN CHOICE, log 12). -/
def assembleLine (fmt : NumFormat) (line : String) : Option (List Instr) :=
  match tokens [] line.toList with
  | [] => some []
  | .text m :: ts =>
    match opcodeOf m with
    | some op => (commandOf fmt op ts).map (fun i => [i])
    | none =>
      if lowerAll m = "pid_restart".toList then
        match selectorOf ts with
        | some (sel, []) => some (pidRestart sel)
        | _ => none
      else if lowerAll m = "pid_start_all".toList ∧ ts = [] then some pidStartAll
      else none
  | _ => none

end Sys2Proof.Asm
end

