-- ==== Sys2Proof/Tests/Slice0.lean ====
section
/-! SUPPORT. The model's own tests: expected values from spec/95_test_vectors.md (the vector named at each test) and from the encoding of
spec/30_encoding.md, written out bit by bit; and for every statement with hypotheses a state and operands that meet them. -/

namespace Sys2Proof.Tests

set_option Elab.async false

open Sys2Proof Sys2Proof.Machine Sys2Proof.Claims

/-! ## Helpers -/

abbrev b64 : NumFormat := .ieee .binary64

/-- The binary64 value that the decimal `n / 10^k` reads as. -/
def dec (n : Int) (k : Nat) : Value := rnd b64 false (.rat (mkRat n (10 ^ k)))

/-- The answer of an outcome that is a next state. -/
def answerOf (o : StepOutcome) : Option Answer :=
  match o with
  | .next s => s.answer
  | _ => none

/-- STATUS of an outcome that is a next state. -/
def statusOf (o : StepOutcome) : Option (BitVec 32) :=
  match o with
  | .next s => some s.status
  | _ => none

/-- A field of an outcome that is a next state. -/
def fieldOf {α : Type} (f : State → α) (o : StepOutcome) : Option α :=
  match o with
  | .next s => some (f s)
  | _ => none

/-- A controller in state Running with the given raw gains, gain and limits, right after reset (Ts = 1). -/
def running (p i d K lo hi : Rat) (aw : AntiWindup) : Pid :=
  { pidAtReset b64 ⟨.fin 1, .fin p, .fin i, .fin d, .fin K, .fin lo, .fin hi, aw⟩ with fsm := .running, frozen := false }

/-- The reset state of CFG1 with that fast controller. -/
def withFast (P : Pid) : State := { State.reset with pidFast := P }

/-- The filter of V-MAF-3 after four updates: `BUF = [1,2,3,4,0,0,0,0]`, `cur = 0`, `sum = 10`, window 4. -/
def filter4 : Maf :=
  ⟨[.fin 1, .fin 2, .fin 3, .fin 4, .fin 0, .fin 0, .fin 0, .fin 0], 0, .fin 10, 4, .fin 250, .fin 1000⟩

def withFilter (m : Maf) : State := { State.reset with maf := m }

/-! ## Well-formedness: for each operand position, an ill-formed term that the check refuses -/

theorem test_wf_op0 : (Instr.pidSetGains .fast (.fin (1 / 3)) (.fin 0) (.fin 0)).wellFormed b64 = false := by decide +kernel
theorem test_wf_op1 : (Instr.pidSetGains .fast (.fin 0) (.fin (1 / 3)) (.fin 0)).wellFormed b64 = false := by decide +kernel
theorem test_wf_op2 : (Instr.pidSetGains .fast (.fin 0) (.fin 0) (.fin (1 / 3))).wellFormed b64 = false := by decide +kernel
theorem test_wf_exact_inf : (Instr.wtInterp (.inf false)).wellFormed .exact = false := by decide +kernel
theorem test_wf_exact_negZero : (Instr.wtInterp .negZero).wellFormed .exact = false := by decide +kernel
theorem test_wf_binary32 : (Instr.mafUpdate (.fin 16777217)).wellFormed (.ieee .binary32) = false := by decide +kernel
theorem test_wf_good : (Instr.pidSetGains .slow (.fin 1) .negZero .nan).wellFormed b64 = true := by decide +kernel
theorem test_wf_record : (Config.Record.wellFormed b64 { Config.cfg1 with oscFreq := .fin (1 / 3) }) = false := by decide +kernel
theorem test_wf_pid_record :
    (Config.Record.wellFormed b64 { Config.cfg1 with pidSlow := { Config.cfg1.pidSlow with d := .fin (1 / 10) } }) = false := by
  decide +kernel

/-- An entry that binary64 does not have, an irrational one, and an infinity under Exact. -/
theorem test_wf_table :
    Config.Params.wellFormed ⟨b64, 8, [.fin 0, .fin (1 / 3)], false⟩ = false ∧
    Config.Params.wellFormed ⟨b64, 8, [.surd cosineStep], false⟩ = false ∧
    Config.Params.wellFormed ⟨.exact, 8, [.inf true], false⟩ = false ∧
    Config.Params.wellFormed ⟨.exact, 8, [.surd cosineStep, .fin (1 / 3)], false⟩ = true := by decide +kernel
/-- A rational written with a root is no value of Exact. -/
theorem test_wf_reduced : (Instr.wtInterp (.surd (.ext (.rat 1) (.rat 0)))).wellFormed .exact = false := by decide +kernel

/-! ## Decoding (R102 to R105): RSV, B and OPC written out -/

theorem test_decode_nop : decode 0b0000000_0_00000000#16 [] = .ok .nop := by rfl
theorem test_decode_wtInterp (x : Value) : decode 0b0000000_0_00000001#16 [x] = .ok (.wtInterp x) := by rfl
theorem test_decode_oscAdvance : decode 0b0000000_0_00010000#16 [] = .ok .oscAdvance := by rfl
theorem test_decode_oscSetEnable_on : decode 0b0000000_1_00010001#16 [] = .ok (.oscSetEnable true) := by rfl
theorem test_decode_oscSetEnable_off : decode 0b0000000_0_00010001#16 [] = .ok (.oscSetEnable false) := by rfl
theorem test_decode_oscSetPhase (x : Value) : decode 0b0000000_0_00010010#16 [x] = .ok (.oscSetPhase x) := by rfl
theorem test_decode_mafUpdate (x : Value) : decode 0b0000000_0_00100000#16 [x] = .ok (.mafUpdate x) := by rfl
theorem test_decode_mafSetCutoff (x : Value) : decode 0b0000000_0_00100001#16 [x] = .ok (.mafSetCutoff x) := by rfl
theorem test_decode_liaDemod (x : Value) : decode 0b0000000_0_00110000#16 [x] = .ok (.liaDemod x) := by rfl
theorem test_decode_pidRun_fast (x : Value) : decode 0b0000000_0_01000000#16 [x] = .ok (.pidRun .fast x) := by rfl
theorem test_decode_pidRun_slow (x : Value) : decode 0b0000000_1_01000000#16 [x] = .ok (.pidRun .slow x) := by rfl
theorem test_decode_pidEnable : decode 0b0000000_1_01000001#16 [] = .ok (.pidEnable .slow) := by rfl
theorem test_decode_pidDisable : decode 0b0000000_0_01000010#16 [] = .ok (.pidDisable .fast) := by rfl
theorem test_decode_pidHold : decode 0b0000000_1_01000011#16 [] = .ok (.pidHold .slow) := by rfl
theorem test_decode_pidReset : decode 0b0000000_0_01000100#16 [] = .ok (.pidReset .fast) := by rfl
theorem test_decode_pidIsLimited : decode 0b0000000_1_01000101#16 [] = .ok (.pidIsLimited .slow) := by rfl
theorem test_decode_pidSetP (x : Value) : decode 0b0000000_0_01001000#16 [x] = .ok (.pidSetP .fast x) := by rfl
theorem test_decode_pidSetI (x : Value) : decode 0b0000000_1_01001001#16 [x] = .ok (.pidSetI .slow x) := by rfl
theorem test_decode_pidSetD (x : Value) : decode 0b0000000_0_01001010#16 [x] = .ok (.pidSetD .fast x) := by rfl
theorem test_decode_pidSetGains (x y z : Value) :
    decode 0b0000000_0_01001011#16 [x, y, z] = .ok (.pidSetGains .fast x y z) := by rfl
theorem test_decode_pidSetTs (x : Value) : decode 0b0000000_1_01001100#16 [x] = .ok (.pidSetTs .slow x) := by rfl
theorem test_decode_clStep (x : Value) : decode 0b0000000_0_01010000#16 [x] = .ok (.clStep x) := by rfl

/-- V-ENC-1, and the format-P opcodes with `B = 1`. -/
theorem test_illegal_words :
    decode 0x0002#16 [] = .error .reservedOpcode ∧ decode 0x0047#16 [] = .error .reservedOpcode ∧
    decode 0x004D#16 [] = .error .reservedOpcode ∧ decode 0x00FF#16 [] = .error .reservedOpcode ∧
    decode 0x0100#16 [] = .error .plainWithB ∧ decode 0x0150#16 [] = .error .plainWithB ∧
    decode 0x0200#16 [] = .error .reservedBits ∧ decode 0x8041#16 [] = .error .reservedBits ∧
    decode 0xFFFF#16 [] = .error .reservedBits := by decide

/-- V-ENC-1: 32 of the 65536 words decode; with `RSV = 0` there are 512 words, all others are illegal. -/
theorem test_legal_word_count :
    ((List.range 512).filter (fun n => match decodeWord (BitVec.ofNat 16 n) with | .ok _ => true | .error _ => false)).length
      = 32 := by decide +kernel

/-- V-ENC-2. -/
theorem test_operand_counts :
    decode 0x0040#16 [] = .error .operandCount ∧ decode 0x004B#16 [.fin 0, .fin 0] = .error .operandCount ∧
    decode 0x0010#16 [.fin 0] = .error .operandCount ∧ decode 0x0000#16 [.fin 0] = .error .operandCount := by decide

theorem test_decodeTableWord : decodeTableWord 16 0x014B = some (.pidSetGains .slow (.fin 0) (.fin 0) (.fin 0)) := by decide

/-! ## Numbers -/

/-- `0.1 + 0.2` in binary64. -/
theorem test_add_rounds : Value.add b64 (dec 1 1) (dec 2 1) = dec 30000000000000004 17 := by decide
theorem test_mul_overflows : Value.mul b64 (.fin (2 ^ 1000)) (.fin (2 ^ 1000)) = .inf false := by decide +kernel
theorem test_mul_underflows : Value.mul b64 (dec (-1) 200) (dec 1 200) = .negZero := by decide +kernel
/-- V-OSC-3: `round(1024 / (pi / 2)) = 652`; V-OSC-6: 58671, under Exact too. -/
theorem test_half_pi : roundOverHalfPi (.rat 1024) = 652 ∧ roundOverHalfPi (.rat (90 * 1024)) = 58671 := by decide +kernel
/-- A quotient far above the first bounds of pi: `2^510 / (pi / 2)`, computed with 250 decimal digits outside Lean. -/
theorem test_half_pi_huge : roundOverHalfPi (.rat (2 ^ 510)) =
    2133918908077077046301446583855515376410747433965051846735532180606012768573947603777991973499296538717960714935029449837294886841128294449839358574776609 := by
  rw [roundOverHalfPi_eq (n := 115) (by decide +kernel)]
  decide +kernel
/-- Exact sines: of a quarter of the period, and of 84.375 degrees, 0.9951847 to seven places. -/
theorem test_exact_sines :
    exactSine 256 = .rat 1 ∧ (ofSurd (exactSine 240)).lt (.fin (9951847 / 10000000)) = false ∧
    (ofSurd (exactSine 240)).lt (.fin (9951848 / 10000000)) = true := by decide +kernel
/-- `(1 + sqrt 2) * (1 - sqrt 2) = -1`, `1 / (1 + sqrt 2) = sqrt 2 - 1`, `floor (1 + sqrt 2) = 2`, and `round` of `-(1 + sqrt 2)`. -/
theorem test_surds :
    let z : Surd 1 := .ext (.rat 1) (.rat 1)
    z.mul (.ext (.rat 1) (.rat (-1))) = .rat (-1) ∧ Surd.div (.rat 1) z = .ext (.rat (-1)) (.rat 1) ∧ z.floor = 2 ∧
    z.neg.round = -2 := by decide +kernel
/-- V-OSC-9: half away from zero. -/
theorem test_round : roundHalfAway (5 / 2) = 3 ∧ roundHalfAway (7 / 2) = 4 ∧ roundHalfAway (-5 / 2) = -3 := by decide +kernel
/-- The table of spec/95: entries 1, 141, 616 and 1023. -/
theorem test_sine_table :
    sineEntry .binary64 (sineHalf.getD 1 0) = dec 6135884649154475 18 ∧
    sineEntry .binary64 (sineHalf.getD 141 0) = dec 7612023854842618 16 ∧
    sineEntry .binary64 (-(sineHalf.getD 104 0 : Nat)) = dec (-5956993044924334) 16 ∧
    sineEntry .binary64 (-(sineHalf.getD 511 0 : Nat)) = dec (-6135884649154475) 18 := by decide +kernel

/-! ## Single steps -/

/-- V-SYS-1. -/
theorem test_nop : answerOf (exec .nop State.reset) = ok0 ∧ fieldOf State.osc (exec .nop State.reset) = some State.reset.osc := by
  decide

/-- V-WT-2. -/
theorem test_wtInterp_inside : answerOf (exec (.wtInterp (.fin (9 / 4))) State.reset) = ok1 (dec 1380533619074115 17) := by
  decide +kernel
/-- V-WT-3: extrapolation past the end. -/
theorem test_wtInterp_past_end : answerOf (exec (.wtInterp (.fin 1500)) State.reset) = ok1 (dec 292068109299753 14) := by
  decide +kernel

/-- V-OSC-1, the fourth advance: `1024` folds to `1`. -/
theorem test_oscAdvance_folds :
    fieldOf (fun t => (t.osc.accP, t.osc.accS, t.answer))
      (exec .oscAdvance { State.reset with osc := { State.reset.osc with accP := 768, accS := 768 } }) =
    some (1, 1, ok2 (dec 6135884649154475 18) (dec 6135884649154475 18)) := by decide +kernel
/-- V-OSC-3, the advance after the phase change. -/
theorem test_oscAdvance_phase :
    fieldOf (fun t => (t.osc.accP, t.osc.accS, t.osc.phaseSeen, t.answer))
      (exec .oscAdvance { State.reset with osc := { State.reset.osc with phaseCfg := .fin 1, detune := 652 } }) =
    some (256, 908, .fin 1, ok2 (.fin 1) (dec (-6531728429537768) 16)) := by decide +kernel

/-- V-OSC-2: the fold of `-7` for `W = 4`. -/
theorem test_fold_negative : fold 4 (2 + (1 + -10)) = 8 ∧ fold 4 20 = 5 ∧ fold 4 15 = 15 := by decide

theorem test_oscSetEnable : fieldOf (fun t => t.osc.en) (exec (.oscSetEnable false) State.reset) = some false := by decide

/-- V-OSC-3 and V-OSC-7. -/
theorem test_oscSetPhase :
    fieldOf (fun t => (t.osc.phaseCfg, t.osc.detune)) (exec (.oscSetPhase (.fin 1)) State.reset) = some (.fin 1, 652) ∧
    fieldOf (fun t => t.osc.detune) (exec (.oscSetPhase (.fin (-1))) State.reset) = some (-652) := by decide +kernel
/-- V-OSC-11. -/
theorem test_oscSetPhase_nan : statusOf (exec (.oscSetPhase .nan) State.reset) = some 0x00120031#32 := by decide

/-- V-MAF-1, the second update. -/
theorem test_mafUpdate :
    fieldOf (fun t => (t.maf.buf, t.maf.cur, t.maf.sum, t.answer))
      (exec (.mafUpdate (.fin 4)) (withFilter
        ⟨[.fin 4, .fin 0, .fin 0, .fin 0, .fin 0, .fin 0, .fin 0, .fin 0], 1, .fin 4, 4, .fin 250, .fin 1000⟩)) =
    some ([.fin 4, .fin 4, .fin 0, .fin 0, .fin 0, .fin 0, .fin 0, .fin 0], 2, .fin 8, ok1 (.fin 2)) := by decide +kernel
/-- V-MAF-3: the first update after the window shrinks to 2. -/
theorem test_mafUpdate_shrunk :
    fieldOf (fun t => (t.maf.cur, t.maf.N, t.maf.sum, t.answer))
      (exec (.mafUpdate (.fin 10)) (withFilter { filter4 with fc := .fin 500 })) =
    some (1, 2, .fin 19, ok1 (dec 95 1)) := by decide +kernel

/-- V-MAF-6: 125 gives window 8, 2000 window 1. -/
theorem test_mafSetCutoff :
    fieldOf (fun t => t.maf.fc) (exec (.mafSetCutoff (.fin 125)) (withFilter filter4)) = some (.fin 125) ∧
    fieldOf (fun t => t.maf.fc) (exec (.mafSetCutoff (.fin 2000)) (withFilter filter4)) = some (.fin 2000) := by decide +kernel
theorem test_mafSetCutoff_refused :
    statusOf (exec (.mafSetCutoff (.fin 100)) (withFilter filter4)) = some 0x00210011#32 ∧
    statusOf (exec (.mafSetCutoff (.fin 2500)) (withFilter filter4)) = some 0x00210011#32 ∧
    statusOf (exec (.mafSetCutoff (.fin (-5))) (withFilter filter4)) = some 0x00210011#32 ∧
    statusOf (exec (.mafSetCutoff (.inf true)) (withFilter filter4)) = some 0x00210031#32 := by decide +kernel

/-- V-LIA-1. -/
theorem test_liaDemod :
    fieldOf (fun t => (t.osc.accS, t.maf.sum, t.answer))
      (exec (.liaDemod (.fin 2)) State.reset) = some (256, .fin 2, ok1 (dec 5 1)) := by decide +kernel
/-- V-LIA-5. -/
theorem test_liaDemod_inf :
    fieldOf (fun t => (t.status, t.osc.accP)) (exec (.liaDemod (.inf false)) State.reset) = some (0x00300031#32, 0) := by
  decide +kernel

/-- V-PID-1: the clamp. -/
theorem test_pidRun_clamps :
    fieldOf (fun t => (t.pidFast.activeDly.psat, t.answer))
      (exec (.pidRun .fast (.fin 20)) (withFast (running 1 0 0 1 (-10) 10 .none))) = some (.fin (-10), ok1 (.fin 10)) := by
  decide +kernel
/-- V-PID-3, run 3: the integrator is frozen at 3. -/
theorem test_pidRun_antiWindup :
    fieldOf (fun t => (t.pidFast.activeDly.integ, t.answer))
      (exec (.pidRun .fast (.fin 2)) (withFast
        { running 0 1 0 1 (-1) 1 .conditional with
          dly := ⟨zeroDelay, ⟨.fin 3, .fin 2, .fin (-2), dec 5 1⟩⟩, cv := .fin 1 })) =
    some (.fin 3, ok1 (.fin 1)) := by decide +kernel

theorem test_pidEnable :
    fieldOf (fun t => (t.pidSlow.fsm, t.pidSlow.frozen)) (exec (.pidEnable .slow) State.reset) = some (.running, false) := by
  decide +kernel

/-- V-PID-5: the output is kept, the history is not. -/
theorem test_pidDisable :
    fieldOf (fun t => (t.pidFast.fsm, t.pidFast.frozen, t.pidFast.cv, t.pidFast.activeDly))
      (exec (.pidDisable .fast) (withFast
        { running 1 1 0 1 (-100) 100 .none with dly := ⟨zeroDelay, ⟨.fin 1, .fin 2, .fin 0, dec 5 1⟩⟩, cv := .fin 3 })) =
    some (.idle, true, .fin 3, zeroDelay) := by decide +kernel

/-- V-PID-6 (c) and V-PID-12. -/
theorem test_pidHold :
    fieldOf (fun t => (t.pidFast.fsm, t.pidFast.frozen, t.pidFast.activeDly.integ))
      (exec (.pidHold .fast) (withFast
        { running 0 1 0 1 (-2000) 2000 .none with dly := ⟨zeroDelay, ⟨.fin 501, .fin 1000, .fin 0, dec 5 1⟩⟩ })) =
    some (.hold, true, .fin 501) ∧
    fieldOf (fun t => t.pidFast) (exec (.pidHold .fast) State.reset) = some State.reset.pidFast := by decide +kernel

/-- V-PID-6 (a): the state stays Running. -/
theorem test_pidReset :
    fieldOf (fun t => (t.pidFast.fsm, t.pidFast.activeDly))
      (exec (.pidReset .fast) (withFast
        { running 0 1 0 1 (-2000) 2000 .none with dly := ⟨zeroDelay, ⟨.fin 501, .fin 1000, .fin 0, dec 5 1⟩⟩ })) =
    some (.running, zeroDelay) := by decide +kernel

/-- V-PID-13. -/
theorem test_pidIsLimited :
    answerOf (exec (.pidIsLimited .fast) (withFast
      { running 0 1 0 1 (-1) 1 .conditional with dly := ⟨zeroDelay, ⟨.fin 3, .fin 2, .fin (-2), dec 5 1⟩⟩ })) =
      some ⟨.ok, some (.bool true), none⟩ ∧
    answerOf (exec (.pidIsLimited .slow) State.reset) = some ⟨.ok, some (.bool false), none⟩ := by decide +kernel

theorem test_pidSetP :
    fieldOf (fun t => (t.pidFast.p, t.pidFast.activeCoef)) (exec (.pidSetP .fast (.fin 3)) State.reset) =
    some (.fin 3, ⟨.fin 3, .fin 0, .fin 0⟩) := by decide +kernel
/-- V-PID-7: `i = 2` gives `i_coef = 1`. -/
theorem test_pidSetI :
    fieldOf (fun t => (t.pidFast.i, t.pidFast.activeCoef.ic)) (exec (.pidSetI .fast (.fin 2)) State.reset) =
    some (.fin 2, .fin 1) := by decide +kernel
/-- V-PID-11: an overflowing derivative coefficient. -/
theorem test_pidSetD_overflow :
    statusOf (exec (.pidSetD .fast (.fin 1)) (withFast { State.reset.pidFast with Ts := dec 1 310 })) = some 0x004A0031#32 := by
  decide +kernel
theorem test_pidSetD :
    fieldOf (fun t => (t.pidSlow.d, t.pidSlow.activeCoef.dc)) (exec (.pidSetD .slow (.fin 5)) State.reset) =
    some (.fin 5, .fin 5) := by decide +kernel
/-- V-PID-11. -/
theorem test_pidSetGains :
    fieldOf (fun t => (t.pidSlow.activeCoef, t.pidSlow.ac))
      (exec (.pidSetGains .slow (.fin 0) (.fin 1) (.fin 0)) State.reset) = some (⟨.fin 0, dec 5 1, .fin 0⟩, 1) := by
  decide +kernel
/-- V-PID-11. -/
theorem test_pidSetTs :
    fieldOf (fun t => (t.pidFast.activeCoef.ic, t.pidFast.activeCoef.dc))
      (exec (.pidSetTs .fast (.fin 2)) (withFast (running 0 1 1 1 (-1) 1 .none))) = some (.fin 1, dec 5 1) := by decide +kernel
theorem test_pidSetTs_refused :
    statusOf (exec (.pidSetTs .fast (.fin 0)) State.reset) = some 0x004C0011#32 ∧
    statusOf (exec (.pidSetTs .slow (.fin (-1))) State.reset) = some 0x014C0011#32 ∧
    statusOf (exec (.pidSetTs .fast .nan) State.reset) = some 0x004C0031#32 := by decide +kernel

/-- P1, command 6, from the state that commands 1 to 5 leave: the slow output 3 and the fast output 2. -/
theorem test_clStep :
    fieldOf (fun t => (t.loop.tick, t.loop.slowLast, t.osc.accP, t.answer))
      (exec (.clStep (.fin 2)) { State.reset with
        osc := { State.reset.osc with accP := 768, accS := 768 }
        maf := { State.reset.maf with
          buf := [.fin 1, .fin 0, .fin (-1), .fin 0, .fin 0, .fin 0, .fin 0, .fin 0], cur := 3, sum := .fin 0 }
        pidFast := { running 1 0 0 1 (-10) 10 .none with dly := ⟨zeroDelay, ⟨.fin 0, .fin 1, .fin 0, .fin 0⟩⟩, cv := .fin 1 }
        pidSlow := { running 0 1 0 1 (-100) 100 .conditional with
          dly := ⟨zeroDelay, ⟨dec 15 1, .fin 1, .fin 0, dec 5 1⟩⟩, cv := dec 15 1 }
        loop := ⟨0, 3, dec 15 1⟩ }) =
    some (1, .fin 3, 1, ok2 (.fin 3) (.fin 2)) := by decide +kernel
/-- V-CL-5: the whole command is undone. -/
theorem test_clStep_fault :
    fieldOf (fun t => (t.status, t.osc.accP, t.maf.cur, t.loop.tick, t.pidFast.cv))
      (exec (.clStep (.fin 1)) (withFast (running (10 ^ 300) 0 0 (10 ^ 300) (-1) 1 .none))) =
    some (0x00500031#32, 0, 0, 0, .fin 0) := by decide +kernel

/-! ## Steps of the port -/

/-- The pending events of a state replaced. -/
def pend (s : State) (es : List PortEvent) : State := { s with pending := es }

/-- `withFetchWord` puts the command next, with operands of zeros. -/
theorem test_withFetchWord :
    answerOf (step (State.reset.withFetchWord 16 0x0145)) = some ⟨.ok, some (.bool false), none⟩ ∧
    answerOf (step (State.reset.withFetchWord 16 0x0001)) = ok1 (.fin 0) := by decide +kernel

/-- V-EXC-1, V-EXC-2, V-EXC-3 and V-EXC-4. -/
theorem test_illegal_commands :
    statusOf (step (pend State.reset [.command .tick 0x0002#16 []])) = some 0x00020021#32 ∧
    statusOf (step (pend State.reset [.command .config 0x0150#16 [.nan]])) = some 0x01500021#32 ∧
    statusOf (step (pend State.reset [.command .config 0x0240#16 []])) = some 0x02400021#32 := by decide +kernel

/-- V-EXC-7 and V-EXC-8. -/
theorem test_overrun :
    statusOf (step (pend State.reset [.overrun])) = some 0x00000041#32 ∧
    statusOf (step (pend { State.reset with status := 0x00020021#32 } [.overrun])) = some 0x00020021#32 ∧
    answerOf (step (pend { State.reset with status := 0x00020021#32 } [.command .tick 0x0050#16 [.fin 1]])) = haltedAnswer := by
  decide +kernel

/-- V-RST-0: CFG1 passes and gives its reset state, also from a halted block (R344). -/
theorem test_reset_cfg1 :
    step (pend { State.reset with status := 0x00020021#32 } [.reset Config.cfg1]) = .next State.reset := by
  have h : firstFailedCheck State.reset.par Config.cfg1 = none := cfg1_passes
  have hw : Config.cfg1.wellFormed State.reset.par.num = true := cfg1_wellFormed
  have ht : State.reset.par.wellFormed = true := defaultParams_wellFormed
  simp only [step, pend, platformReset, hw, ht, applyReset, h]
  rfl
/-- A reset that would load a table with an entry outside NUM is refused. -/
theorem test_reset_bad_table :
    step (pend { State.reset with par := { defaultParams with sineTable := [.fin (1 / 3)] } } [.reset Config.cfg1]) =
      .refused .tableNotOfNum := by
  have h : Config.Params.wellFormed { defaultParams with sineTable := [.fin (1 / 3)] } = false := by decide +kernel
  simp only [step, pend, platformReset, h]
  rfl

/-- Parameters with a short table, so that only the checks after the first run: check 1 is tested by itself. -/
def failsAt (k : Nat) (c : Config.Record) : Bool :=
  !resetCheck defaultParams c k && (List.range (k - 2)).all (fun j => resetCheck defaultParams c (j + 2))

/-- V-RST-1. -/
theorem test_reset_check1 :
    firstFailedCheck { defaultParams with sineTable := defaultParams.sineTable.set 5 .nan } Config.cfg1 = some 1 := by
  decide +kernel

/-- V-RST-2 to V-RST-8. -/
theorem test_reset_checks_oscillator :
    failsAt 2 { Config.cfg1 with oscAmplitude := .nan } = true ∧ failsAt 3 { Config.cfg1 with oscG := 11 } = true ∧
    failsAt 4 { Config.cfg1 with oscW := 11, oscG := 11 } = true ∧ failsAt 5 { Config.cfg1 with oscClock := .fin 0 } = true ∧
    failsAt 6 { Config.cfg1 with oscFreq := dec 10236 1 } = true ∧ failsAt 6 { Config.cfg1 with oscFreq := .fin (-1) } = true ∧
    failsAt 7 { Config.cfg1 with oscPhase := dec (10 ^ 306) 0 } = true ∧
    failsAt 8 { Config.cfg1 with loopRate := .fin 0 } = true := by decide +kernel

/-- V-RST-9 to V-RST-16. -/
theorem test_reset_checks_rest :
    failsAt 9 { Config.cfg1 with mafCutoff := .fin 100 } = true ∧ failsAt 9 { Config.cfg1 with mafCutoff := .fin 3000 } = true ∧
    failsAt 10 { Config.cfg1 with pidFast := { Config.cfg1.pidFast with Ts := .fin 0 } } = true ∧
    failsAt 11 { Config.cfg1 with pidFast := { Config.cfg1.pidFast with min := .fin 2, max := .fin 1 } } = true ∧
    failsAt 12 { Config.cfg1 with pidFast := { Config.cfg1.pidFast with d := .fin 1, Ts := dec 1 310 } } = true ∧
    failsAt 13 { Config.cfg1 with pidSlow := { Config.cfg1.pidSlow with Ts := .fin (-1) } } = true ∧
    failsAt 14 { Config.cfg1 with pidSlow := { Config.cfg1.pidSlow with min := .fin 5, max := .fin (-5) } } = true ∧
    failsAt 15 { Config.cfg1 with pidSlow := { Config.cfg1.pidSlow with d := .fin 1, Ts := dec 1 310 } } = true ∧
    failsAt 16 { Config.cfg1 with slowRate := .fin 3000 } = true := by decide +kernel

/-! ## Assembler (R109, R110) -/

theorem test_assembler :
    Asm.assembleLine b64 "PID_RUN slow, 1.5" = some [.pidRun .slow (.fin (3 / 2))] ∧
    Asm.assembleLine b64 "osc_set_enable on ; comment" = some [.oscSetEnable true] ∧
    Asm.assembleLine b64 "PID_RESTART slow" = some [.pidDisable .slow, .pidEnable .slow] ∧
    Asm.assembleLine b64 "OSC_SET_ENABLE" = none := by decide +kernel

/-! ## Witnesses: for every statement with hypotheses, a state and operands that meet them

A witness for a statement about `exec i s = .next t` shows that `exec` answers such a next state. -/

/-- The outcome is a next state with the property. -/
def nextWith (p : State → Bool) (o : StepOutcome) : Bool :=
  match o with
  | .next t => p t
  | _ => false

theorem exists_next {p : State → Bool} {o : StepOutcome} (h : nextWith p o = true) : ∃ t, o = .next t ∧ p t = true := by
  unfold nextWith at h
  split at h
  · next t => exact ⟨t, rfl, h⟩
  · cases h

/-- A square wave. -/
def labTable : List Value := List.replicate 512 (.fin 1) ++ List.replicate 512 (.fin (-1))

/-- Exact arithmetic with the square wave as table. -/
def labPar : Config.Params := ⟨.exact, 8, labTable, false⟩

/-- The state after a reset with CFG1 under those parameters. -/
def lab : State := afterReset Config.cfg1 { State.reset with par := labPar }

/-- That state with both controllers running. -/
def labRun : State :=
  { lab with
    pidFast := { lab.pidFast with fsm := .running, frozen := false }
    pidSlow := { lab.pidSlow with fsm := .running, frozen := false } }

/-- A binary64 state with huge amplitude and offset (V-OSC-10). -/
def loud : State := { State.reset with osc := { State.reset.osc with amp := .fin (2 ^ 1023), off := .fin (2 ^ 1023) } }

/-- The block halted by an overrun. -/
def halt (s : State) : State := { s with status := 0x00000041#32 }

theorem witness_WellFormedTransactionsDecode :
    ¬ Malformed 0x014B#16 [.fin 0, .fin 0, .fin 0] ∧ ¬ Malformed 0x0000#16 [] ∧ ¬ Malformed 0x0050#16 [.fin 0] := by
  unfold Malformed ReservedOpcode PlainOpcode operandCount
  decide

/-- Every clause of R107 and R108, the reserved ranges at both ends. -/
theorem witness_MalformedCommandRaisesIllegalCommand :
    State.reset.halted = false ∧ Malformed 0x0200#16 [] ∧ Malformed 0x8000#16 [] ∧ Malformed 0x0150#16 [.fin 0] ∧ Malformed 0x0000#16 [.fin 0] ∧
    Malformed 0x004B#16 [.fin 0, .fin 0] := by
  refine ⟨rfl, ?_, ?_, ?_, ?_, ?_⟩ <;> unfold Malformed ReservedOpcode PlainOpcode operandCount <;> decide

theorem witness_reserved_opcodes :
    ∀ c ∈ [0x02, 0x0F, 0x13, 0x1F, 0x22, 0x2F, 0x31, 0x3F, 0x46, 0x47, 0x4D, 0x4F, 0x51, 0xFF],
      ReservedOpcode (CmdWord.opc (BitVec.ofNat 16 c)).toNat := by
  unfold ReservedOpcode
  decide

theorem witness_StepRunsTheDecodedInstruction :
    (pend lab [.command .tick 0x0140#16 [.fin 1]]).pending = .command .tick 0x0140#16 [.fin 1] :: [] ∧
    decode 0x0140#16 [.fin 1] = .ok (.pidRun .slow (.fin 1)) ∧ (Instr.pidRun .slow (.fin 1)).wellFormed lab.par.num = true := by
  exact ⟨rfl, rfl, rfl⟩

theorem witness_HaltedBlockAnswersHalted :
    (pend (halt lab) [.command .config 0xFFFF#16 []]).pending = .command .config 0xFFFF#16 [] :: [] ∧
    (halt lab).halted = true := by
  exact ⟨rfl, rfl⟩

theorem witness_OverrunHaltsTheBlock :
    (pend lab [.overrun]).pending = .overrun :: [] ∧ lab.halted = false ∧ (halt lab).halted = true := by
  exact ⟨rfl, rfl, rfl⟩

theorem witness_FaultsArePrecise :
    lab.halted = false ∧ ∃ t, exec (.mafSetCutoff (.fin 0)) lab = .next t ∧ t.halted = true :=
  ⟨rfl, exists_next (by decide +kernel)⟩

theorem witness_StepKeepsStatusLegal :
    Safety.StatusLegal lab ∧ ∃ t, step (pend lab [.overrun]) = .next t ∧ t.status = statusWord .deadlineOverrun 0 :=
  ⟨.inl rfl, _, rfl, rfl⟩

theorem lab_passes : firstFailedCheck labPar Config.cfg1 = none := by decide +kernel

theorem lab_wellFormed : Config.cfg1.wellFormed labPar.num = true := by decide +kernel

theorem lab_table : labPar.wellFormed = true := by decide +kernel

/-- Under Exact and in an IEEE format. -/
theorem witness_ResetGivesTheTabledValues :
    (pend lab [.reset Config.cfg1]).pending = .reset Config.cfg1 :: [] ∧ lab.par.wellFormed = true ∧
    Config.cfg1.wellFormed lab.par.num = true ∧ firstFailedCheck lab.par Config.cfg1 = none ∧
    State.reset.par.wellFormed = true ∧ Config.cfg1.wellFormed State.reset.par.num = true ∧
    firstFailedCheck State.reset.par Config.cfg1 = none :=
  ⟨rfl, lab_table, lab_wellFormed, lab_passes, defaultParams_wellFormed, cfg1_wellFormed, cfg1_passes⟩

/-- CFG1 with a slow rate that only check 16 refuses (V-RST-16). -/
def cfgSlow : Config.Record := { Config.cfg1 with slowRate := .fin 3000 }

theorem cfg1_checks : ∀ k, 1 ≤ k → k ≤ 16 → ResetCheckHolds labPar Config.cfg1 k := by
  intro k h1 h2
  interval_cases k <;> first | exact trivial | (simp only [ResetCheckHolds]; decide +kernel)

theorem cfgSlow_checks : ∀ k, 1 ≤ k → k < 16 → ResetCheckHolds labPar cfgSlow k := by
  intro k h1 h2
  interval_cases k <;> first | exact trivial | (simp only [ResetCheckHolds]; decide +kernel)

/-- A failing check, the last one, and no failing check. -/
theorem witness_ResetReportsTheFirstFailedCheck :
    (pend lab [.reset cfgSlow]).pending = .reset cfgSlow :: [] ∧ lab.par.wellFormed = true ∧
    cfgSlow.wellFormed lab.par.num = true ∧ ¬ ResetCheckHolds lab.par cfgSlow 16 ∧
    (∀ k, 1 ≤ k → k < 16 → ResetCheckHolds lab.par cfgSlow k) ∧ Config.cfg1.wellFormed lab.par.num = true ∧
    ∀ k, 1 ≤ k → k ≤ 16 → ResetCheckHolds lab.par Config.cfg1 k := by
  refine ⟨rfl, lab_table, by decide +kernel, ?_, cfgSlow_checks, lab_wellFormed, cfg1_checks⟩
  simp only [ResetCheckHolds]
  decide +kernel

/-- The first and the last check. -/
theorem witness_FailedResetHaltsWithTheCheckNumber :
    labPar.wellFormed = true ∧ Config.Params.wellFormed { labPar with sineTable := [] } = true ∧
    Config.cfg1.wellFormed labPar.num = true ∧ firstFailedCheck { labPar with sineTable := [] } Config.cfg1 = some 1 ∧
    Config.Record.wellFormed labPar.num { Config.cfg1 with slowRate := .fin 3000 } = true ∧
    firstFailedCheck labPar { Config.cfg1 with slowRate := .fin 3000 } = some 16 := by decide +kernel

/-- A table whose first two entries differ by more than binary64 holds. -/
def steep : State := { State.reset with wt := [.fin (2 ^ 1023), .fin (-(2 ^ 1023))] }

theorem witness_WtInterpReturnsTheInterpolation :
    lab.halted = false ∧ Value.isFinite .nan = false ∧
    InterpIs .exact lab.wt (.fin (-1)) (.fin 0) ∧ InterpIs .exact lab.wt (.fin 0) (.fin 1) ∧
    InterpIs .exact lab.wt (.fin (mkRat 1023 2)) (.fin 0) ∧ InterpIs .exact lab.wt (.fin 1023) (.fin (-1)) ∧
    steep.halted = false ∧ InterpIs b64 steep.wt (.fin (mkRat 1 2)) (.inf true) := by
  refine ⟨rfl, rfl, .inl ?_, .inr (.inl ?_), .inr (.inl ?_), .inr (.inr ?_), rfl, .inr (.inl ?_)⟩
  · decide
  · exact ⟨by decide, by decide, by decide, .fin 1, .fin 1, by decide +kernel, by decide +kernel, by decide +kernel⟩
  · exact ⟨by decide, by decide, by decide, .fin 1, .fin (-1), by decide +kernel, by decide +kernel, by decide +kernel⟩
  · exact ⟨by decide, by decide, .fin (-1), .fin 1, by decide +kernel, by decide +kernel, by decide +kernel⟩
  · exact ⟨by decide, by decide, by decide, .fin (2 ^ 1023), .fin (-(2 ^ 1023)), by decide +kernel, by decide +kernel,
      by decide +kernel⟩

theorem witness_InterpolationStaysInTheTable : labTable.length = 1024 ∧ Value.isFinite (.fin 1023) = true := by decide +kernel

theorem witness_InterpolationMeetsTheTable :
    labTable[0]? = some (.fin 1) ∧ labTable[1]? = some (.fin 1) ∧ labTable[1023]? = some (.fin (-1)) ∧
    (Value.sub .exact (.fin 1) (.fin (-1))).isFinite = true ∧ isOf .exact (.fin 1) = true ∧
    (Value.fin (-1)).lt (.fin 0) = true := by decide +kernel

/-- Each clause at its boundary, for `W = 1` and for `W = 64`. -/
theorem witness_FoldIsTheLoop :
    (1 : Int) = (2 ^ 1 : Nat) - 1 ∧ fold 1 2 = 1 ∧ fold 1 (-1) = 0 ∧ fold 1 0 = 0 ∧ fold 1 1 = 1 ∧
    fold 64 (2 ^ 64) = 1 ∧ fold 64 (2 ^ 64 - 1) = 2 ^ 64 - 1 ∧ fold 64 (-1) = 2 ^ 64 - 2 := by decide +kernel

theorem lab_outputs : OutputsAre .exact lab.wt lab.osc (.fin 1) (.fin 1) := by
  have h : InterpIs .exact lab.wt (position .exact lab.osc 256) (.fin 1) :=
    .inr (.inl ⟨by decide +kernel, by decide +kernel, by decide +kernel, .fin 1, .fin 1, by decide +kernel, by decide +kernel,
      by decide +kernel⟩)
  have hp : nextAccP lab.osc = 256 := by decide +kernel
  have hs : nextAccS lab.osc = 256 := by decide +kernel
  refine .inr ⟨rfl, ?_, .fin 1, ?_, by decide +kernel⟩
  · rw [hp]; exact h
  · rw [hs]; exact h

/-- Enabled, disabled, and with an output that overflows. -/
theorem witness_OscAdvanceStepsAndReturns :
    lab.halted = false ∧ 1 ≤ lab.osc.G ∧ lab.osc.G ≤ lab.osc.W ∧ OutputsAre .exact lab.wt lab.osc (.fin 1) (.fin 1) ∧
    OutputsAre .exact lab.wt { lab.osc with en := false } (.fin 0) (.fin 0) ∧
    OutputsAre b64 labTable loud.osc (.fin 1) (.inf false) := by
  have h : InterpIs b64 labTable (position b64 loud.osc 256) (.fin 1) :=
    .inr (.inl ⟨by decide +kernel, by decide +kernel, by decide +kernel, .fin 1, .fin 1, by decide +kernel, by decide +kernel,
      by decide +kernel⟩)
  have hp : nextAccP loud.osc = 256 := by decide +kernel
  have hs : nextAccS loud.osc = 256 := by decide +kernel
  refine ⟨rfl, by decide, by decide, lab_outputs, .inl ⟨rfl, rfl, rfl⟩, .inr ⟨rfl, ?_, .fin 1, ?_, by decide +kernel⟩⟩
  · rw [hp]; exact h
  · rw [hs]; exact h

theorem witness_PhaseContinuity :
    (∃ t, exec .oscAdvance lab = .next t ∧ !t.halted = true) ∧
    (∃ t, exec .oscAdvance { lab with osc := { lab.osc with en := false } } = .next t ∧ !t.halted = true) :=
  ⟨exists_next (by decide +kernel), exists_next (by decide +kernel)⟩

theorem witness_DetuningStepAppliesOncePerChange :
    ¬ PhaseChanged lab.osc ∧ PhaseChanged { lab.osc with phaseCfg := .fin 1, detune := 652 } ∧
    (∃ t, exec .oscAdvance { lab with osc := { lab.osc with phaseCfg := .fin 1, detune := 652 } } = .next t ∧
      !t.halted = true) :=
  ⟨by unfold PhaseChanged; decide, by unfold PhaseChanged; decide, exists_next (by decide +kernel)⟩

theorem witness_OscSetEnableSetsTheFlag : lab.halted = false := rfl

/-- A finite quotient, a quotient that overflows (V-RST-7's value), and a NaN. -/
theorem witness_OscSetPhaseComputesTheStep :
    State.reset.halted = false ∧ State.reset.par.num = .ieee .binary64 ∧
    (∀ phi ∈ [Value.fin 1, Value.negZero, Value.fin (-90)], (Value.div b64
      (Value.mul b64 (Value.sub b64 phi State.reset.osc.phaseSeen) (toNum b64 (2 ^ State.reset.osc.W : Nat)))
      (Value.div b64 (piIeee .binary64) (toNum b64 2))).isFinite = true) ∧
    (Value.div b64
      (Value.mul b64 (Value.sub b64 (.fin (2 ^ 1020)) State.reset.osc.phaseSeen) (toNum b64 (2 ^ State.reset.osc.W : Nat)))
      (Value.div b64 (piIeee .binary64) (toNum b64 2))).isFinite = false := by decide +kernel

/-- A rational offset, a huge one, and an irrational one. -/
theorem witness_ExactDetuningStepIsNearest :
    lab.halted = false ∧ lab.par.num = .exact ∧ isOf .exact lab.osc.phaseSeen = true ∧ isOf .exact (.fin 1) = true ∧
    isOf .exact (.fin (2 ^ 500)) = true ∧ isOf .exact (.surd cosineStep) = true := by decide +kernel

/-- The windows 1, 4 and `C`, an update that completes, one that overflows. -/
theorem witness_MafUpdateReturnsTheAverage :
    lab.halted = false ∧ lab.maf.buf[lab.maf.cur]? = some (.fin 0) ∧ WindowIs lab 4 ∧
    WindowIs (withFilter { filter4 with fc := .fin 1000 }) 1 ∧ WindowIs (withFilter { filter4 with fc := .fin 125 }) 8 ∧
    (nextSum lab (.fin 0) (.fin 5)).isFinite = true ∧ (average lab (.fin 0) (.fin 5) 4).isFinite = true ∧
    (nextSum { State.reset with maf := { State.reset.maf with sum := .fin (2 ^ 1023) } } (.fin 0) (.fin (2 ^ 1023))).isFinite
      = false := by
  unfold WindowIs
  decide +kernel

/-- Each clause, the windows 1 and `C = 8` among them. -/
theorem witness_MafSetCutoffChecksTheWindow :
    lab.halted = false ∧ Value.isFinite (.inf true) = false ∧
    (Value.div .exact lab.maf.fs (.fin 1200)).round = 1 ∧ (Value.div .exact lab.maf.fs (.fin 150)).round = 8 ∧
    (Value.div .exact lab.maf.fs (.fin 100)).round = 12 ∧ (Value.div .exact lab.maf.fs (.fin 3000)).round = 0 ∧
    (Value.fin 0).lt (.fin 0) = false ∧ (Value.fin 0).lt (.fin 150) = true := by decide +kernel

theorem lab_sum : Safety.SumIsSumOfBuffer lab := by
  have hb : lab.maf.buf = List.replicate 8 (.fin 0) := rfl
  have hs : lab.maf.sum = .fin 0 := rfl
  refine .inr ⟨by decide +kernel, by decide +kernel, ?_⟩
  rw [hb, hs]
  simp

theorem witness_StepKeepsRunningSum :
    lab.par.num = .exact ∧ Safety.SumIsSumOfBuffer (pend lab [.command .config 0x0020#16 [.fin 7]]) ∧
    ∃ t, step (pend lab [.command .config 0x0020#16 [.fin 7]]) = .next t ∧ (t.maf.sum == .fin 7) = true :=
  ⟨rfl, lab_sum, exists_next (by decide +kernel)⟩

/-- `N = 4`. -/
theorem witness_ConstantInputConverges :
    lab.par.num = .exact ∧ firstFailedCheck lab.par Config.cfg1 = none ∧ Config.cfg1.wellFormed .exact = true ∧
    (afterReset Config.cfg1 lab).maf.N = 4 ∧ isOf .exact (.fin 5) = true ∧ isOf .exact (.surd cosineStep) = true :=
  ⟨rfl, lab_passes, lab_wellFormed, by decide +kernel, rfl, by decide +kernel⟩

theorem lab_meets : DemodMeets lab (.fin 1) (.fin 1) (.fin 0) 4 := by
  refine ⟨by decide, by decide, lab_outputs, by decide +kernel, ?_⟩
  unfold WindowIs
  decide +kernel

/-- A demodulation that completes, one of a NaN, and one of an output that overflows (V-OSC-10). -/
theorem witness_LiaDemodReturnsTheFilteredProduct :
    lab.halted = false ∧ DemodMeets lab (.fin 1) (.fin 1) (.fin 0) 4 ∧ DemodFinite lab (.fin 2) (.fin 1) (.fin 1) (.fin 0) 4 ∧
    ¬ DemodFinite lab .nan (.fin 1) (.fin 1) (.fin 0) 4 ∧ ¬ DemodFinite loud (.fin 2) (.fin 1) (.inf false) (.fin 0) 4 := by
  refine ⟨rfl, lab_meets, ?_, ?_, ?_⟩ <;> unfold DemodFinite <;> decide +kernel

/-- A controller whose output is finite and one whose raw output overflows (V-CL-5). -/
theorem witness_PidRunComputesTheControlValue :
    labRun.halted = false ∧ (labRun.pid .fast).frozen = false ∧ RunFinite .exact (labRun.pid .fast) (.fin 3) ∧
    ¬ RunFinite b64 (running (10 ^ 300) 0 0 (10 ^ 300) (-1) 1 .none) (.fin 1) := by
  unfold RunFinite
  decide +kernel

theorem witness_FrozenPidRunReturnsTheStoredOutput :
    lab.halted = false ∧ (lab.pid .slow).frozen = true ∧ Value.isFinite (.fin 9) = true ∧ Value.isFinite .nan = false := by
  decide

/-- Errors below, inside and above the limits, and an irrational one. -/
theorem witness_ProportionalIdentityLaw :
    labRun.halted = false ∧ labRun.par.num = .exact ∧ (labRun.pid .fast).frozen = false ∧
    (labRun.pid .fast).activeCoef = ⟨.fin 1, .fin 0, .fin 0⟩ ∧ (labRun.pid .fast).activeDly = zeroDelay ∧
    (labRun.pid .fast).K = .fin 1 ∧ (labRun.pid .fast).min = .fin (-10) ∧ (labRun.pid .fast).max = .fin 10 ∧
    (∀ x ∈ [Value.fin (-11), .fin (-10), .fin 10, .fin 11, .surd cosineStep], isOf .exact x = true) ∧
    (Value.fin (-10)).le (.fin 10) = true := by decide +kernel

/-- V-PID-3 before run 3, under Exact. -/
def wound : State :=
  { labRun with pidSlow := { labRun.pidSlow with
      min := .fin (-1), max := .fin 1, cv := .fin 1, dly := ⟨zeroDelay, ⟨.fin 3, .fin 2, .fin (-2), .fin (mkRat 1 2)⟩⟩ } }

theorem witness_ConditionalAntiWindupFreezesTheIntegrator :
    wound.halted = false ∧ (wound.pid .slow).frozen = false ∧ (wound.pid .slow).aw = .conditional ∧
    (wound.pid .slow).activeDly.psat.eq (.fin 0) = false ∧
    (Value.mul .exact (wound.pid .slow).activeDly.integ
      (Value.add .exact (Value.mul .exact (wound.pid .slow).activeCoef.ic (.fin 2))
        (Value.mul .exact (wound.pid .slow).activeDly.pic (wound.pid .slow).activeDly.perr))).le (.fin 0) = false ∧
    ∃ t, exec (.pidRun .slow (.fin 2)) wound = .next t ∧ !t.halted = true :=
  ⟨by decide, by decide +kernel, by decide +kernel, by decide +kernel, by decide +kernel, exists_next (by decide +kernel)⟩

/-- The three states of the state machine. -/
def labHold : State := { labRun with pidFast := { labRun.pidFast with fsm := .hold, frozen := true } }

theorem witness_PidEnableStartsTheController :
    lab.halted = false ∧ (lab.pid .fast).fsm = .idle ∧ (labRun.pid .fast).fsm = .running ∧ labHold.halted = false ∧
    (labHold.pid .fast).fsm = .hold := by decide

theorem witness_PidDisableStopsAndResets : labRun.halted = false ∧ (labRun.pid .fast).fsm = .running := by decide

theorem witness_PidHoldFreezes : labRun.halted = false ∧ (labRun.pid .slow).fsm = .running := by decide

theorem witness_PidResetZeroesTheHistory :
    labRun.halted = false ∧ (labRun.pid .slow).fsm = .running ∧ (labHold.pid .fast).fsm ≠ .running := by decide

theorem witness_StateDependentResetLaw :
    wound.halted = false ∧ (wound.pid .slow).fsm = .running ∧
    (∃ t, exec (.pidDisable .slow) wound = .next t ∧
      nextWith (fun u => !u.halted) (exec (.pidEnable .slow) t) = true) ∧
    (∃ t, exec (.pidHold .slow) wound = .next t ∧ nextWith (fun u => !u.halted) (exec (.pidEnable .slow) t) = true) :=
  ⟨by decide, by decide,
    exists_next (p := fun t => nextWith (fun u => !u.halted) (exec (.pidEnable .slow) t)) (by decide +kernel),
    exists_next (p := fun t => nextWith (fun u => !u.halted) (exec (.pidEnable .slow) t)) (by decide +kernel)⟩

theorem witness_PidIsLimitedReadsTheSaturation : wound.halted = false := by decide

/-- Every clause: finite coefficients. -/
theorem witness_GainSettersSwapTheCoefficients :
    lab.halted = false ∧ (coefSet .exact (.fin 3) (lab.pid .fast).i (lab.pid .fast).d (lab.pid .fast).Ts).ic.isFinite = true ∧
    (coefSet .exact (.fin 3) (lab.pid .fast).i (lab.pid .fast).d (lab.pid .fast).Ts).dc.isFinite = true ∧
    (coefSet .exact (.fin 1) (.fin 2) (.fin 3) (lab.pid .fast).Ts).ic.isFinite = true ∧
    (coefSet .exact (.fin 1) (.fin 2) (.fin 3) (lab.pid .fast).Ts).dc.isFinite = true := by decide +kernel

/-- An operand that is not finite, and a coefficient that overflows (V-PID-11). -/
theorem witness_GainSettersRefuseNonFiniteValues :
    State.reset.halted = false ∧ Value.isFinite .nan = false ∧
    (coefSet b64 (.fin 0) (.fin 0) (.fin 1) (dec 1 310)).dc.isFinite = false ∧
    (coefSet b64 (.fin 0) (.fin (2 ^ 1000)) (.fin 1) (.fin (2 ^ 1000))).ic.isFinite = false := by decide +kernel

theorem witness_PidSetTsChecksTheInterval :
    lab.halted = false ∧ Value.isFinite .nan = false ∧ (Value.fin 0).lt (.fin 0) = false ∧ (Value.fin 0).lt .negZero = false ∧
    (Value.fin 0).lt (.fin 2) = true ∧ (coefSet .exact (.fin 1) (.fin 1) (.fin 1) (.fin 2)).ic.isFinite = true ∧
    (coefSet .exact (.fin 1) (.fin 1) (.fin 1) (.fin 2)).dc.isFinite = true ∧
    (coefSet b64 (.fin 0) (.fin 0) (.fin 1) (dec 1 310)).dc.isFinite = false := by decide +kernel

theorem witness_SetGainsEqualsTheThreeSetters :
    ∃ s1, exec (.pidSetP .fast (.fin 2)) lab = .next s1 ∧ nextWith (fun s2 => nextWith (fun s3 => !s3.halted)
      (exec (.pidSetD .fast (.fin 4)) s2)) (exec (.pidSetI .fast (.fin 3)) s1) = true :=
  exists_next (p := fun s1 => nextWith (fun s2 => nextWith (fun s3 => !s3.halted)
      (exec (.pidSetD .fast (.fin 4)) s2)) (exec (.pidSetI .fast (.fin 3)) s1)) (by decide +kernel)

theorem labRun_meets : DemodMeets labRun (.fin 1) (.fin 1) (.fin 0) 4 := lab_meets

theorem labRun_finite : DemodFinite labRun (.fin 2) (.fin 1) (.fin 1) (.fin 0) 4 := by
  unfold DemodFinite
  decide +kernel

theorem labRun_nan : ¬ DemodFinite labRun .nan (.fin 1) (.fin 1) (.fin 0) 4 := by
  unfold DemodFinite
  decide +kernel

/-- A controller whose raw output overflows (V-CL-5). -/
theorem bad_run_fails : RunFails b64 (running (10 ^ 300) 0 0 (10 ^ 300) (-1) 1 .none) (.fin 1) := by
  unfold RunFails RunFinite
  decide +kernel

/-- Both controllers running, the fast one frozen, a tick that runs the slow one, an operand and a run that are not finite. -/
theorem witness_ClStepRunsBothControllers :
    labRun.halted = false ∧ DemodMeets labRun (.fin 1) (.fin 1) (.fin 0) 4 ∧ labRun.loop.tick + 1 < labRun.loop.countlim ∧
    DemodFinite labRun (.fin 2) (.fin 1) (.fin 1) (.fin 0) 4 ∧
    RunIs .exact labRun.pidFast (.fin 2) (ran .exact labRun.pidFast (.fin 2)) (.fin 2) ∧
    RunIs .exact labRun.pidSlow (.fin 2) (ran .exact labRun.pidSlow (.fin 2)) (.fin 1) ∧
    RunIs .exact lab.pidFast (.fin 2) lab.pidFast (.fin 0) ∧
    ¬ DemodFinite labRun .nan (.fin 1) (.fin 1) (.fin 0) 4 ∧
    RunFails b64 (running (10 ^ 300) 0 0 (10 ^ 300) (-1) 1 .none) (.fin 1) := by
  refine ⟨rfl, labRun_meets, by decide +kernel, labRun_finite, .inr ⟨rfl, ?_, rfl, by decide +kernel⟩,
    .inr ⟨rfl, ?_, rfl, by decide +kernel⟩, .inl ⟨rfl, rfl, by decide +kernel⟩, labRun_nan, bad_run_fails⟩ <;>
  · unfold RunFinite
    decide +kernel

/-- The last tick of the schedule, `tick + 1 = countlim`. -/
theorem witness_ClStepCarriesTheSlowOutput :
    DemodMeets { labRun with loop := { labRun.loop with tick := 2 } } (.fin 1) (.fin 1) (.fin 0) 4 ∧
    ({ labRun.loop with tick := 2 } : Loop).countlim ≤ ({ labRun.loop with tick := 2 } : Loop).tick + 1 ∧
    DemodFinite labRun (.fin 2) (.fin 1) (.fin 1) (.fin 0) 4 ∧
    RunIs .exact labRun.pidFast (.fin 2) (ran .exact labRun.pidFast (.fin 2)) (.fin 2) ∧
    ¬ DemodFinite labRun .nan (.fin 1) (.fin 1) (.fin 0) 4 := by
  refine ⟨lab_meets, by decide +kernel, labRun_finite, .inr ⟨rfl, ?_, rfl, by decide +kernel⟩, labRun_nan⟩
  unfold RunFinite
  decide +kernel

theorem witness_ClStepContainsTheLockInAndTheFastRun :
    labRun.halted = false ∧ ∃ t, exec (.clStep (.fin 2)) labRun = .next t ∧ !t.halted = true :=
  ⟨rfl, exists_next (by decide +kernel)⟩

/-- Three ticks, `countlim = 3`. -/
theorem witness_TickSchedule :
    labRun.loop.tick = 0 ∧ 1 ≤ labRun.loop.countlim ∧
    (∃ t, core.run 3 (pend labRun [tickOf (.fin 1), tickOf (.fin 1), tickOf (.fin 2)]) = .next t ∧ !t.halted = true) :=
  ⟨rfl, by decide +kernel, exists_next (o := core.run 3 (pend labRun [tickOf (.fin 1), tickOf (.fin 1), tickOf (.fin 2)]))
    (by decide +kernel)⟩

theorem witness_NopDoesNothing : lab.halted = false := rfl

/-- The frame statements: a command that completes and one that faults. -/
theorem witness_CommandsTouchOnlyTheirComponents :
    (∃ t, exec (.clStep (.fin 2)) labRun = .next t ∧ !t.halted = true) ∧
    (∃ t, exec (.pidSetTs .slow (.fin 0)) labRun = .next t ∧ t.halted = true) :=
  ⟨exists_next (by decide +kernel), exists_next (by decide +kernel)⟩

theorem witness_ConstructionRegistersNeverChange :
    (∃ t, exec (.pidSetGains .fast (.fin 1) (.fin 2) (.fin 3)) labRun = .next t ∧ !t.halted = true) ∧
    (∀ c rest, (pend labRun [.overrun]).pending ≠ .reset c :: rest) ∧
    ∃ t, step (pend labRun [.overrun]) = .next t ∧ t.halted = true :=
  ⟨exists_next (by decide +kernel), fun c rest h => by simp [pend] at h, exists_next (by decide +kernel)⟩

theorem witness_RuntimeRegistersChangeByTheirSettersOnly :
    ∃ t, exec (.liaDemod (.fin 2)) labRun = .next t ∧ !t.halted = true := exists_next (by decide +kernel)

theorem witness_OnlyRunsChangeTheOutput : ∃ t, exec (.pidDisable .fast) labRun = .next t ∧ !t.halted = true :=
  exists_next (by decide +kernel)

theorem witness_BufferChangesAtTheCursorOnly :
    (∃ t, exec (.mafUpdate (.fin 2)) labRun = .next t ∧ !t.halted = true) ∧ (3 : Int) ≠ labRun.maf.cur :=
  ⟨exists_next (by decide +kernel), by decide +kernel⟩

theorem lab_inRange : Safety.BlockInRange lab := by
  unfold Safety.BlockInRange Safety.OscInRange Safety.MafInRange Safety.PidInRange Safety.LoopInRange
  decide +kernel

theorem witness_StepKeepsInvariant :
    Safety.Inv (pend lab [.command .tick 0x0050#16 [.fin 2]]) ∧
    (∃ t, step (pend lab [.command .tick 0x0050#16 [.fin 2]]) = .next t ∧ !t.halted = true) ∧
    Safety.BlockInRange lab ∧ ∃ t, exec (.mafSetCutoff (.fin 0)) lab = .next t ∧ t.halted = true :=
  ⟨.inr lab_inRange, exists_next (by decide +kernel), lab_inRange, exists_next (by decide +kernel)⟩

theorem witness_StepNeverDepartsFromTheRules : Safety.Inv lab ∧ lab.halted = false := ⟨.inr lab_inRange, rfl⟩

theorem lab_valuesGood : Safety.ValuesGood lab := by
  have hp : Safety.GoodPid .exact lab.pidFast ∧ Safety.GoodPid .exact lab.pidSlow := by
    constructor <;> refine ⟨?_, ?_, ?_, ?_, ?_, ?_, ?_, ?_, ?_, ?_, ?_, ?_, ?_, ?_⟩ <;>
      (try simp only [Safety.GoodCoef, Safety.GoodDly, Safety.Good]) <;> decide +kernel
  refine ⟨?_, ?_, ?_, hp.1, hp.2, ?_⟩ <;> simp only [Safety.Good] <;> decide +kernel

theorem witness_StepKeepsValuesFinite :
    Safety.ValuesInv (pend lab [.command .tick 0x0050#16 [.fin 2]]) ∧
    ∃ t, step (pend lab [.command .tick 0x0050#16 [.fin 2]]) = .next t ∧ !t.halted = true :=
  ⟨⟨fun v hv => (lab_valuesGood.1 v hv).1, .inr lab_valuesGood⟩, exists_next (by decide +kernel)⟩

theorem witness_ExactCommandsComplete :
    lab.par.num = .exact ∧ lab.halted = false ∧ Safety.BlockInRange lab ∧ Safety.ValuesGood lab ∧
    (Instr.clStep (.fin 2)).wellFormed .exact = true ∧ (Instr.mafSetCutoff (.fin 0)).wellFormed .exact = true ∧
    (Instr.pidSetTs .slow (.fin 0)).wellFormed .exact = true :=
  ⟨rfl, rfl, lab_inRange, lab_valuesGood, rfl, rfl, rfl⟩

/-- Ties on both sides of zero. -/
theorem witness_RoundIsHalfAwayFromZero :
    (Value.fin (1 / 2)).isFinite = true ∧ |(Value.fin (1 / 2)).real - (Value.fin (1 / 2)).round| = 1 / 2 ∧
    |(Value.fin (-3 / 2)).real - (Value.fin (-3 / 2)).round| = 1 / 2 := by
  have h1 : (Value.fin (1 / 2)).round = 1 := by decide +kernel
  have h2 : (Value.fin (-3 / 2)).round = -2 := by decide +kernel
  rw [h1, h2]
  refine ⟨rfl, ?_, ?_⟩ <;> norm_num

theorem witness_DefaultTableRoundsTheSine : FormatValue .binary64 (1 / 2) ∧ 1023 < 1024 :=
  ⟨⟨1, -1, by norm_num, by norm_num [FloatFormat.precision], by decide, by decide⟩, by decide⟩

/-- A tie between two values, the even one of which is the result (2^24 + 1 in binary32); the bound itself, and just below it. -/
theorem witness_RoundingIsToNearest :
    |(16777217 : Rat)| < overflowBound .binary32 ∧ FormatValue .binary32 16777216 ∧ FormatValue .binary32 16777218 ∧
    |(16777217 : Rat) - 16777216| = |(16777217 : Rat) - 16777218| ∧ EvenFormatValue .binary32 16777216 ∧
    roundIeee .binary32 false 16777217 = .fin 16777216 ∧
    roundIeee .binary32 false (overflowBound .binary32) = .inf false ∧
    roundIeee .binary32 false (overflowBound .binary32 - 1) = .fin ((2 ^ 24 - 1) * 2 ^ 104) ∧
    roundIeee .binary32 false (-1 / 2 ^ 150) = .negZero := by
  have hb : overflowBound .binary32 = (2 ^ 25 - 1) * 2 ^ 103 := by
    norm_num [overflowBound, FloatFormat.precision, FloatFormat.emax]
  rw [hb]
  refine ⟨by norm_num, ⟨1, 24, by norm_num, by norm_num [FloatFormat.precision], by decide, by decide⟩,
    ⟨8388609, 1, by norm_num, by norm_num [FloatFormat.precision], by decide, by decide⟩, by norm_num,
    ⟨8388608, 1, by norm_num, by decide, by norm_num [FloatFormat.precision], by decide, .inr ⟨by decide, by
      norm_num [FloatFormat.precision]⟩⟩, by decide +kernel, by decide +kernel, by decide +kernel, by decide +kernel⟩

end Sys2Proof.Tests
end

section
/-! PROOFS. The integers of R18: `round` breaks ties away from zero, and `floor` is the greatest integer not above. -/

namespace Sys2Proof

/-- Of two integers that are as near, `round` gives the one farther from zero (R18). -/
theorem Surd.round_tie_away {n : Nat} (x : Surd n) (h : |x.real - x.round| = 1 / 2) : |x.real| < |(x.round : ℝ)| := by
  rw [Surd.round_eq] at h ⊢
  split at h
  · next hx =>
    have hlt := Int.lt_floor_add_one (-x.real + 1 / 2)
    rw [if_pos hx]
    push_cast at h ⊢
    have htie : x.real + ⌊-x.real + 1 / 2⌋ = 1 / 2 := by
      rcases eq_or_eq_neg_of_abs_eq h with h | h <;> linarith
    rw [abs_neg, abs_of_neg hx]
    exact lt_of_lt_of_le (by linarith) (le_abs_self _)
  · next hx =>
    have hlt := Int.lt_floor_add_one (x.real + 1 / 2)
    rw [if_neg hx]
    have htie : x.real - ⌊x.real + 1 / 2⌋ = -(1 / 2) := by
      rcases eq_or_eq_neg_of_abs_eq h with h | h <;> linarith
    rw [abs_of_nonneg (not_lt.mp hx)]
    exact lt_of_lt_of_le (by linarith) (le_abs_self _)

/-- Settles O59, by the floors that `round` and `floor` are on the real number of the value. -/
theorem roundIsHalfAwayFromZero : Obligations.RoundIsHalfAwayFromZero := by
  intro x _
  refine ⟨round_near x, Surd.round_tie_away x.exact, ?_⟩
  rw [floor_eq]
  exact ⟨Int.floor_le x.real, Int.lt_floor_add_one x.real⟩

end Sys2Proof
end

section
/-! PROOFS. Rounding to an IEEE format is to nearest, ties to even (R8, R17), as the statements define the format. -/

namespace Sys2Proof

open Claims

variable {f : FloatFormat} {q r : Rat} {k : Int} {m : Nat}

/-! ## Values of a format from their significand and exponent -/

theorem two_pow_precision (f : FloatFormat) :
    2 ^ f.precision = 2 * 2 ^ (f.precision - 1) ∧ 2 ^ (f.precision - 1) % 2 = 0 ∧ 0 < f.precision := by
  cases f <;> decide

theorem leastExp_le_greatestExp (f : FloatFormat) :
    f.emin - ((f.precision : Int) - 1) ≤ f.emax - ((f.precision : Int) - 1) := by
  cases f <;> decide

/-- A significand that rounding carried to `2^precision` is half as large at the next exponent. -/
theorem exists_significand {j : Int} (hk : k ≤ f.emax - (f.precision - 1)) (hj : |j| ≤ 2 ^ f.precision)
    (ho : |j| = 2 ^ f.precision → k < f.emax - (f.precision - 1)) :
    ∃ j' k' : Int, (j : Rat) * 2 ^ k = j' * 2 ^ k' ∧ |j'| < 2 ^ f.precision ∧ k' ≤ f.emax - (f.precision - 1) ∧
      (j' = j ∧ k' = k ∨ k < k' ∧ |j'| = 2 ^ (f.precision - 1)) := by
  rcases hj.lt_or_eq with hj | hj
  · exact ⟨j, k, rfl, hj, hk, .inl ⟨rfl, rfl⟩⟩
  · obtain ⟨hp, -, -⟩ := two_pow_precision f
    have hp' : (2 : Int) ^ f.precision = 2 * 2 ^ (f.precision - 1) := by exact_mod_cast hp
    have hpos : (0 : Int) < 2 ^ (f.precision - 1) := by positivity
    obtain ⟨j', rfl⟩ : (2 : Int) ∣ j := (dvd_abs 2 j).mp ⟨_, hj.trans hp'⟩
    rw [abs_mul, abs_two] at hj
    refine ⟨j', k + 1, ?_, by omega, ho (by rw [abs_mul, abs_two, hj]), .inr ⟨by omega, by omega⟩⟩
    rw [zpow_add_one₀ two_ne_zero]
    push_cast
    ring

theorem formatValue_mul {j : Int} (hl : f.emin - (f.precision - 1) ≤ k) (hk : k ≤ f.emax - (f.precision - 1))
    (hj : |j| ≤ 2 ^ f.precision) (ho : |j| = 2 ^ f.precision → k < f.emax - (f.precision - 1)) :
    FormatValue f (j * 2 ^ k) := by
  obtain ⟨j', k', he, hj', hk', hcase⟩ := exists_significand hk hj ho
  exact ⟨j', k', he, hj', by omega, hk'⟩

theorem evenFormatValue_mul {j : Int} (hl : f.emin - (f.precision - 1) ≤ k) (hk : k ≤ f.emax - (f.precision - 1))
    (hj : |j| ≤ 2 ^ f.precision) (ho : |j| = 2 ^ f.precision → k < f.emax - (f.precision - 1)) (he : j % 2 = 0)
    (hn : k = f.emin - (f.precision - 1) ∨ 2 ^ (f.precision - 1) ≤ |j|) : EvenFormatValue f (j * 2 ^ k) := by
  obtain ⟨j', k', heq, hj', hk', ⟨rfl, rfl⟩ | ⟨hlt, habs⟩⟩ := exists_significand hk hj ho
  · refine ⟨j', k', heq, he, hj', hk', ?_⟩
    exact hl.eq_or_lt.imp Eq.symm fun hlt => ⟨hlt, hn.resolve_left hlt.ne'⟩
  · have heven : (2 : Int) ∣ |j'| := by
      rw [habs]
      exact_mod_cast Nat.dvd_of_mod_eq_zero (two_pow_precision f).2.1
    exact ⟨j', k', heq, Int.emod_eq_zero_of_dvd ((dvd_abs 2 j').mp heven), hj', hk', .inr ⟨by omega, habs.ge⟩⟩

theorem formatValue_zero (f : FloatFormat) : FormatValue f 0 :=
  ⟨0, f.emin - (f.precision - 1), by simp, by simp, le_refl _, leastExp_le_greatestExp f⟩

/-- A value of the format lies below the overflow bound, by half a last place at least. -/
theorem Claims.FormatValue.abs_lt_overflowBound (h : FormatValue f r) : |r| < overflowBound f := by
  obtain ⟨j, k, rfl, hj, -, hk⟩ := h
  have hj' : |(j : Rat)| ≤ 2 ^ f.precision - 1 := by exact_mod_cast Int.le_sub_one_of_lt hj
  have hp : (1 : Rat) ≤ 2 ^ f.precision := one_le_pow₀ one_le_two
  have hG := two_zpow_pos (f.emax - (f.precision - 1))
  rw [abs_mul, abs_of_pos (two_zpow_pos k), overflowBound]
  calc |(j : Rat)| * 2 ^ k ≤ (2 ^ f.precision - 1) * 2 ^ (f.emax - (f.precision - 1)) :=
        mul_le_mul hj' (zpow_le_zpow_right₀ one_le_two hk) (two_zpow_pos k).le (by linarith)
    _ < _ := mul_lt_mul_of_pos_right (by linarith) hG

/-! ## The multiple of the last place that rounding chooses -/

/-- `m * 2^k` is the multiple nearest to `|q|` of the last place `2^k` that the format has there, the even one of two; the greatest
exponent is left out of account. -/
structure NearestMultiple (f : FloatFormat) (q : Rat) (k : Int) (m : Nat) : Prop where
  least : f.emin - (f.precision - 1) ≤ k
  normal : k = f.emin - (f.precision - 1) ∨ 2 ^ (f.precision - 1) ≤ |q| / 2 ^ k
  below : |q| / 2 ^ k < 2 ^ f.precision
  near : |(|q| / 2 ^ k - m)| ≤ 1 / 2
  tie_even : |(|q| / 2 ^ k - m)| = 1 / 2 → m % 2 = 0

/-- The natural number with a sign. -/
def withSign (negative : Bool) (m : Nat) : Int := if negative then -(m : Int) else m

@[simp] theorem withSign_zero (s : Bool) : withSign s 0 = 0 := by cases s <;> rfl

@[simp] theorem abs_withSign (s : Bool) (m : Nat) : |withSign s m| = m := by cases s <;> simp [withSign]

theorem withSign_even (s : Bool) (h : m % 2 = 0) : withSign s m % 2 = 0 := by cases s <;> simp [withSign] <;> omega

/-- What rounding a nonzero number does. -/
theorem roundIeee_eq_multiple (f : FloatFormat) (neg : Bool) (hq : q ≠ 0) :
    ∃ (k : Int) (m : Nat), NearestMultiple f q k m ∧ roundIeee f neg q =
      (if m = 0 then (if q < 0 then .negZero else .fin 0)
      else if f.emax < (Nat.log2 m : Int) + k then .inf (decide (q < 0))
      else .fin (withSign (decide (q < 0)) m * 2 ^ k)) := by
  obtain ⟨e, m, hle, hlt, hnear, htie, hround⟩ := roundIeee_nonzero f neg hq
  have hp := (two_pow_precision f).2.2
  have hpos := two_zpow_pos (ulpExp f e)
  refine ⟨ulpExp f e, m, ⟨?_, ?_, ?_, hnear, htie⟩, ?_⟩
  · unfold ulpExp; omega
  · rcases le_total e f.emin with he | he
    · left; unfold ulpExp; omega
    · right
      rw [le_div_iff₀ hpos, ← zpow_natCast, ← zpow_add₀ two_ne_zero,
        show ((f.precision - 1 : Nat) : Int) + ulpExp f e = e by unfold ulpExp; omega]
      exact hle
  · rw [div_lt_iff₀ hpos, ← zpow_natCast, ← zpow_add₀ two_ne_zero]
    exact hlt.trans_le (zpow_le_zpow_right₀ one_le_two (by unfold ulpExp; omega))
  · simp only [scale2_eq, decide_eq_true_eq] at hround
    simpa only [withSign, decide_eq_true_eq] using hround

namespace NearestMultiple

variable (h : NearestMultiple f q k m)
include h

theorem le_two_pow : m ≤ 2 ^ f.precision := by
  have h1 := (abs_le.mp h.near).1
  have h2 : (m : Rat) < 2 ^ f.precision + 1 := by linarith [h.below]
  exact Nat.lt_succ_iff.mp (by exact_mod_cast h2)

theorem normal_significand : k = f.emin - (f.precision - 1) ∨ 2 ^ (f.precision - 1) ≤ m := by
  refine h.normal.imp_right fun hn => ?_
  have h1 := (abs_le.mp h.near).2
  have h2 : (2 : Rat) ^ (f.precision - 1) < m + 1 := by linarith
  exact Nat.lt_succ_iff.mp (by exact_mod_cast h2)

/-- Below the overflow bound the exponent is one of the format's, also after a carry. -/
theorem inRange (hq : |q| < overflowBound f) :
    k ≤ f.emax - (f.precision - 1) ∧ (m = 2 ^ f.precision → k < f.emax - (f.precision - 1)) := by
  have hpos := two_zpow_pos k
  have hp : (2 : Rat) ^ f.precision = 2 * 2 ^ (f.precision - 1) := by exact_mod_cast (two_pow_precision f).1
  rw [overflowBound] at hq
  constructor
  · by_contra hk
    have hstep : (2 : Rat) ^ (f.emax - ((f.precision : Int) - 1)) * 2 ≤ 2 ^ k := by
      rw [← zpow_add_one₀ two_ne_zero]
      exact zpow_le_zpow_right₀ one_le_two (by omega)
    rcases h.normal with hl | hn
    · have := leastExp_le_greatestExp f
      omega
    · rw [le_div_iff₀ hpos] at hn
      have h1 := mul_le_mul_of_nonneg_left hstep (show (0 : Rat) ≤ 2 ^ (f.precision - 1) by positivity)
      have hG := two_zpow_pos (f.emax - (f.precision - 1))
      rw [hp] at hq
      linarith
  · rintro rfl
    by_contra hk
    have h1 := (abs_le.mp h.near).1
    rw [← div_lt_iff₀ (two_zpow_pos _)] at hq
    have h2 : |q| / 2 ^ k ≤ |q| / 2 ^ (f.emax - ((f.precision : Int) - 1)) :=
      div_le_div_of_nonneg_left (abs_nonneg q) (two_zpow_pos _) (zpow_le_zpow_right₀ one_le_two (by omega))
    push_cast at h1
    linarith

theorem log2_le (hq : |q| < overflowBound f) (hm : m ≠ 0) : (Nat.log2 m : Int) + k ≤ f.emax := by
  obtain ⟨hk, ho⟩ := h.inRange hq
  rcases h.le_two_pow.lt_or_eq with hlt | rfl
  · have := (Nat.log2_lt hm).mpr hlt
    omega
  · have := ho rfl
    rw [Nat.log2_two_pow]
    omega

/-- From the overflow bound on, the rounded significand has too great a leading exponent: the tie at the bound is carried. -/
theorem overflow (hq : overflowBound f ≤ |q|) : m ≠ 0 ∧ f.emax < (Nat.log2 m : Int) + k := by
  have hpos := two_zpow_pos k
  obtain ⟨hp, heven, hp0⟩ := two_pow_precision f
  have hpr : (2 : Rat) ^ f.precision = 2 * 2 ^ (f.precision - 1) := by exact_mod_cast hp
  have hp1 : (1 : Rat) ≤ 2 ^ (f.precision - 1) := one_le_pow₀ one_le_two
  have hmpos : 0 < 2 ^ (f.precision - 1) := by positivity
  rw [overflowBound] at hq
  have hk : f.emax - (f.precision - 1) ≤ k := by
    by_contra hk
    have hstep : (2 : Rat) ^ k * 2 ≤ 2 ^ (f.emax - ((f.precision : Int) - 1)) := by
      rw [← zpow_add_one₀ two_ne_zero]
      exact zpow_le_zpow_right₀ one_le_two (by omega)
    have hb := h.below
    rw [div_lt_iff₀ hpos] at hb
    have h1 := mul_le_mul_of_nonneg_left hstep (show (0 : Rat) ≤ 2 ^ f.precision - 1 / 2 by linarith)
    nlinarith
  rcases hk.lt_or_eq with hk | rfl
  · have hm : 2 ^ (f.precision - 1) ≤ m := h.normal_significand.resolve_left (by have := leastExp_le_greatestExp f; omega)
    have hm0 : m ≠ 0 := by omega
    have := (Nat.le_log2 hm0).mpr hm
    exact ⟨hm0, by omega⟩
  · have hm : 2 ^ f.precision ≤ m := by
      by_contra hlt
      have hle : (m : Rat) ≤ 2 ^ f.precision - 1 := by
        rw [le_sub_iff_add_le]
        exact_mod_cast Nat.lt_of_not_le hlt
      rw [← le_div_iff₀ hpos] at hq
      have hnear := (abs_le.mp h.near).2
      have hmeq : (m : Rat) + 1 = 2 ^ f.precision := by
        have h2 : (2 : Rat) ^ f.precision < m + 2 := by linarith
        have h3 : 2 ^ f.precision < m + 2 := by exact_mod_cast h2
        exact_mod_cast (by omega : m + 1 = 2 ^ f.precision)
      have hmod := h.tie_even (by rw [abs_of_nonneg (by linarith)]; linarith)
      have : m + 1 = 2 ^ f.precision := by exact_mod_cast hmeq
      omega
    have hm0 : m ≠ 0 := by omega
    have := (Nat.le_log2 hm0).mpr hm
    exact ⟨hm0, by omega⟩

end NearestMultiple

/-! ## No value of the format is nearer -/

/-- No integer is nearer to `t` than one within a half, and only at a half is another as near. -/
theorem nearest_int {t : Rat} {a : Int} (h : |t - a| ≤ 1 / 2) (j : Int) :
    |t - a| ≤ |t - j| ∧ (|t - a| = |t - j| → j = a ∨ |t - a| = 1 / 2) := by
  rcases eq_or_ne j a with rfl | hne
  · exact ⟨le_refl _, fun _ => .inl rfl⟩
  · have h1 : (1 : Rat) ≤ |(a : Rat) - j| := by exact_mod_cast Int.one_le_abs (sub_ne_zero.mpr hne.symm)
    have h2 : |(a : Rat) - j| ≤ |t - a| + |t - j| := by
      rw [abs_sub_comm t a]
      exact abs_sub_le _ _ _
    exact ⟨by linarith, fun he => .inr (by linarith)⟩

theorem abs_sub_eq_scaled (q r : Rat) (k : Int) : |q - r| = |q / 2 ^ k - r / 2 ^ k| * 2 ^ k := by
  have hpos := two_zpow_pos k
  rw [← sub_div, abs_div, abs_of_pos hpos, div_mul_cancel₀ _ hpos.ne']

/-- A value of the format is a multiple of a coarser last place than its own, or it is below the binade of that last place. -/
theorem Claims.FormatValue.multiple_or_small (h : FormatValue f r) (hk : f.emin - (f.precision - 1) ≤ k) :
    (∃ j : Int, r / 2 ^ k = j) ∨ f.emin - (f.precision - 1) < k ∧ |r / 2 ^ k| < 2 ^ (f.precision - 1) := by
  obtain ⟨j, k', rfl, hj, hl, -⟩ := h
  have hpos := two_zpow_pos k
  rw [mul_div_assoc, ← zpow_sub₀ two_ne_zero]
  rcases le_or_gt k k' with hkk | hkk
  · obtain ⟨n, hn⟩ := Int.eq_ofNat_of_zero_le (Int.sub_nonneg.mpr hkk)
    exact .inl ⟨j * 2 ^ n, by rw [hn]; push_cast; simp⟩
  · refine .inr ⟨by omega, ?_⟩
    have hj' : |(j : Rat)| < 2 ^ f.precision := by exact_mod_cast hj
    have hp : (2 : Rat) ^ f.precision = 2 * 2 ^ (f.precision - 1) := by exact_mod_cast (two_pow_precision f).1
    have hhalf : (2 : Rat) ^ (k' - k) ≤ 1 / 2 := by
      calc (2 : Rat) ^ (k' - k) ≤ 2 ^ (-1 : Int) := zpow_le_zpow_right₀ one_le_two (by omega)
        _ = 1 / 2 := by norm_num
    rw [abs_mul, abs_of_pos (two_zpow_pos _)]
    nlinarith [abs_nonneg (j : Rat)]

/-- The distance to the signed multiple, without the sign. -/
theorem abs_sub_withSign (q : Rat) (k : Int) (m : Nat) :
    |q / 2 ^ k - withSign (decide (q < 0)) m| = |(|q| / 2 ^ k - m)| := by
  rcases lt_or_ge q 0 with hq | hq
  · rw [decide_eq_true hq, withSign, if_pos rfl, abs_of_neg hq, ← abs_neg]
    push_cast
    ring_nf
  · rw [decide_eq_false hq.not_gt, withSign, if_neg Bool.false_ne_true, abs_of_nonneg hq]
    push_cast
    rfl

namespace NearestMultiple

variable (h : NearestMultiple f q k m)
include h

/-- No value of the format is nearer than the chosen multiple, and none is as near unless the choice was a tie. -/
theorem nearest (hr : FormatValue f r) :
    |q - withSign (decide (q < 0)) m * 2 ^ k| ≤ |q - r| ∧
      (|q - withSign (decide (q < 0)) m * 2 ^ k| = |q - r| → r = withSign (decide (q < 0)) m * 2 ^ k ∨ m % 2 = 0) := by
  have hpos := two_zpow_pos k
  rw [abs_sub_eq_scaled q r k, abs_sub_eq_scaled q _ k, mul_div_cancel_right₀ _ hpos.ne']
  have hnear : |q / 2 ^ k - withSign (decide (q < 0)) m| ≤ 1 / 2 := (abs_sub_withSign q k m).trans_le h.near
  rcases hr.multiple_or_small h.least with ⟨j, hj⟩ | ⟨hl, hsmall⟩
  · obtain ⟨hle, heq⟩ := nearest_int hnear j
    rw [hj]
    refine ⟨mul_le_mul_of_nonneg_right hle hpos.le, fun he => ?_⟩
    rcases heq (mul_right_cancel₀ hpos.ne' he) with hjm | hhalf
    · exact .inl (by rw [← hjm, ← hj, div_mul_cancel₀ _ hpos.ne'])
    · exact .inr (h.tie_even ((abs_sub_withSign q k m).symm.trans hhalf))
  · have hlow := h.normal.resolve_left hl.ne'
    have hedge := (nearest_int (a := m) (by exact_mod_cast h.near) (2 ^ (f.precision - 1))).1
    push_cast at hedge
    rw [abs_of_nonneg (sub_nonneg.mpr hlow)] at hedge
    have htri := abs_sub_abs_le_abs_sub (q / 2 ^ k) (r / 2 ^ k)
    rw [abs_div, abs_of_pos hpos] at htri
    have hlt : |q / 2 ^ k - withSign (decide (q < 0)) m| < |q / 2 ^ k - r / 2 ^ k| := by
      rw [abs_sub_withSign]
      linarith
    have hlt' := mul_lt_mul_of_pos_right hlt hpos
    exact ⟨hlt'.le, fun he => absurd he hlt'.ne⟩

theorem formatValue (hq : |q| < overflowBound f) (s : Bool) : FormatValue f (withSign s m * 2 ^ k) := by
  obtain ⟨hk, ho⟩ := h.inRange hq
  refine formatValue_mul h.least hk ?_ fun he => ho ?_
  · rw [abs_withSign]; exact_mod_cast h.le_two_pow
  · rw [abs_withSign] at he; exact_mod_cast he

theorem evenFormatValue (hq : |q| < overflowBound f) (s : Bool) (hm : m % 2 = 0) :
    EvenFormatValue f (withSign s m * 2 ^ k) := by
  obtain ⟨hk, ho⟩ := h.inRange hq
  refine evenFormatValue_mul h.least hk ?_ (fun he => ho ?_) (withSign_even s hm) (h.normal_significand.imp_right fun hn => ?_)
  · rw [abs_withSign]; exact_mod_cast h.le_two_pow
  · rw [abs_withSign] at he; exact_mod_cast he
  · rw [abs_withSign]; exact_mod_cast hn

end NearestMultiple

/-! ## The statement -/

/-- Below the overflow bound the result is the nearest value of the format, the even one of two. -/
theorem roundIeee_nearest (f : FloatFormat) (neg : Bool) (hq : |q| < overflowBound f) :
    ∃ r : Rat, FormatValue f r ∧
      (∀ r' : Rat, FormatValue f r' → |q - r| ≤ |q - r'| ∧ (|q - r| = |q - r'| → r' = r ∨ EvenFormatValue f r)) ∧
      roundIeee f neg q = (if r = 0 ∧ (q < 0 ∨ q = 0 ∧ neg = true) then .negZero else .fin r) := by
  rcases eq_or_ne q 0 with rfl | hq0
  · refine ⟨0, formatValue_zero f, fun r' _ => ⟨by simp, fun he => .inl (by simpa using he.symm)⟩, ?_⟩
    simp [roundIeee_zero]
  · obtain ⟨k, m, h, hround⟩ := roundIeee_eq_multiple f neg hq0
    refine ⟨withSign (decide (q < 0)) m * 2 ^ k, h.formatValue hq _, fun r' hr' => ?_, ?_⟩
    · obtain ⟨hle, heq⟩ := h.nearest hr'
      exact ⟨hle, fun he => (heq he).imp_right (h.evenFormatValue hq _)⟩
    · rw [hround]
      rcases eq_or_ne m 0 with rfl | hm
      · simp [hq0]
      · have hr : (withSign (decide (q < 0)) m : Rat) * 2 ^ k ≠ 0 := by
          refine mul_ne_zero ?_ (two_zpow_pos k).ne'
          rw [Int.cast_ne_zero, ← abs_pos, abs_withSign]
          omega
        rw [if_neg hm, if_neg (h.log2_le hq hm).not_gt, if_neg fun hc => hr hc.1]

/-- At or above the bound the result is an infinity. -/
theorem roundIeee_overflow (f : FloatFormat) (neg : Bool) (hq : overflowBound f ≤ |q|) :
    roundIeee f neg q = .inf (decide (q < 0)) := by
  have hq0 : q ≠ 0 := by
    rintro rfl
    have := (formatValue_zero f).abs_lt_overflowBound
    linarith
  obtain ⟨k, m, h, hround⟩ := roundIeee_eq_multiple f neg hq0
  obtain ⟨hm, ho⟩ := h.overflow hq
  rw [hround, if_neg hm, if_pos ho]

/-- A finite result is a value of the format that no other is nearer than. -/
theorem roundIeee_fin_nearest {neg : Bool} (h : roundIeee f neg q = .fin r) :
    FormatValue f r ∧ ∀ r' : Rat, FormatValue f r' → |q - r| ≤ |q - r'| := by
  rcases lt_or_ge |q| (overflowBound f) with hq | hq
  · obtain ⟨r₀, hr₀, hnear, hround⟩ := roundIeee_nearest f neg hq
    rw [h] at hround
    split at hround <;> cases hround
    exact ⟨hr₀, fun r' hr' => (hnear r' hr').1⟩
  · rw [roundIeee_overflow f neg hq] at h
    cases h

/-- The finite values that rounding to the format leaves as they are, are the format's. -/
theorem isOf_ieee_fin_iff (f : FloatFormat) (r : Rat) : isOf (.ieee f) (.fin r) = true ↔ FormatValue f r := by
  rw [isOf, decide_eq_true_iff]
  refine ⟨fun hfix => (roundIeee_fin_nearest hfix).1, fun hr => ?_⟩
  obtain ⟨r', -, hnear, hround⟩ := roundIeee_nearest f false hr.abs_lt_overflowBound
  have heq : r - r' = 0 := abs_nonpos_iff.mp (by simpa only [sub_self, abs_zero] using (hnear r hr).1)
  obtain rfl := sub_eq_zero.mp heq
  rw [hround, if_neg]
  rintro ⟨rfl, hneg⟩
  simp at hneg

/-- Settles O58: the result is the nearest multiple of the number's last place, and no finer value of the format is nearer. -/
theorem roundingIsToNearest : Obligations.RoundingIsToNearest := fun f =>
  ⟨isOf_ieee_fin_iff f, fun neg _ => ⟨roundIeee_nearest f neg, roundIeee_overflow f neg⟩⟩

end Sys2Proof
end

section
/-! PROOFS. The default SINE_TABLE of R10: in an IEEE format each entry is a nearest value to the real sine, since every number
within the error of its literal rounds to the entry. -/

namespace Sys2Proof

open Claims

variable {f : FloatFormat} {q r : Rat} {m : Int} {y : ℝ} {k : Nat}

/-! ## Nearest values -/

/-- A value of the format that no other is nearer to a real number than. -/
def IsNearest (f : FloatFormat) (y : ℝ) (r : Rat) : Prop :=
  FormatValue f r ∧ ∀ r' : Rat, FormatValue f r' → |(r : ℝ) - y| ≤ |(r' : ℝ) - y|

theorem Claims.FormatValue.neg (h : FormatValue f r) : FormatValue f (-r) := by
  obtain ⟨j, e, rfl, hj, he⟩ := h
  exact ⟨-j, e, by push_cast; ring, by rwa [abs_neg], he⟩

theorem IsNearest.neg (h : IsNearest f y r) : IsNearest f (-y) (-r) := by
  obtain ⟨hr, hnear⟩ := h
  have hswap : ∀ a b : ℝ, |a - -b| = |(-a) - b| := fun a b => by rw [← abs_neg]; congr 1; ring
  refine ⟨hr.neg, fun r' hr' => ?_⟩
  rw [hswap, hswap, Rat.cast_neg, neg_neg]
  exact_mod_cast hnear (-r') hr'.neg

theorem isNearest_zero (f : FloatFormat) : IsNearest f 0 0 := ⟨formatValue_zero f, fun r' _ => by simp⟩

/-- What is as near as another number to both ends of an interval is so to every point of it. -/
theorem abs_sub_le_between {a b s t : ℝ} (hay : a ≤ y) (hyb : y ≤ b) (ha : |s - a| ≤ |t - a|) (hb : |s - b| ≤ |t - b|) :
    |s - y| ≤ |t - y| := by
  rw [← sq_le_sq] at ha hb ⊢
  rcases le_total s t with hst | hst
  · nlinarith [mul_nonneg (sub_nonneg.mpr hst) (sub_nonneg.mpr hyb)]
  · nlinarith [mul_nonneg (sub_nonneg.mpr hst) (sub_nonneg.mpr hay)]

theorem IsNearest.between {a b : ℝ} (ha : IsNearest f a r) (hb : IsNearest f b r) (hay : a ≤ y) (hyb : y ≤ b) :
    IsNearest f y r :=
  ⟨ha.1, fun r' hr' => abs_sub_le_between hay hyb (ha.2 r' hr') (hb.2 r' hr')⟩

/-- A finite result of rounding is nearest to the number rounded, as a real number. -/
theorem isNearest_of_roundIeee {neg : Bool} (h : roundIeee f neg q = .fin r) : IsNearest f q r := by
  obtain ⟨hr, hnear⟩ := roundIeee_fin_nearest h
  refine ⟨hr, fun r' hr' => ?_⟩
  rw [abs_sub_comm, abs_sub_comm (r' : ℝ)]
  exact_mod_cast hnear r' hr'

/-- Rounding is symmetric where the result is not zero. -/
theorem roundIeee_neg {neg : Bool} (h : roundIeee f neg q = .fin r) (hr : r ≠ 0) : roundIeee f neg (-q) = .fin (-r) := by
  unfold roundIeee at h ⊢
  dsimp only at h ⊢
  rw [Rat.num_neg_eq_neg_num, Rat.den_neg_eq_den, Int.natAbs_neg]
  split at h
  · split at h <;> cases h
    exact absurd rfl hr
  · next hnum =>
    have hsign : decide (-q.num < 0) = !decide (q.num < 0) := by
      rw [← decide_not, decide_eq_decide]
      omega
    rw [if_neg (neg_ne_zero.mpr hnum), hsign]
    generalize divRoundEven _ _ = n at h ⊢
    split at h
    · split at h <;> cases h
      exact absurd rfl hr
    · next hn =>
      split at h <;> cases h
      next ho =>
      rw [if_neg hn, if_neg ho, scale2_eq, scale2_eq]
      cases decide (q.num < 0) <;> simp

/-! ## The entries of the literals -/

theorem sineEntry_eq (f : FloatFormat) (m : Int) : sineEntry f m = roundIeee f false (m / 2 ^ 100) := by
  rw [show (m / 2 ^ 100 : Rat) = mkRat m (2 ^ 100) by rw [Rat.mkRat_eq_div]; norm_num]
  rfl

theorem isNearest_of_sineEntry (h : sineEntry f m = .fin r) : IsNearest f (m / 2 ^ 100) r := by
  rw [sineEntry_eq] at h
  exact_mod_cast isNearest_of_roundIeee h

theorem sineEntry_neg (h : sineEntry f m = .fin r) (hr : r ≠ 0) : sineEntry f (-m) = .fin (-r) := by
  rw [sineEntry_eq] at h ⊢
  rw [Int.cast_neg, neg_div, roundIeee_neg h hr]

theorem sineEntry_zero (f : FloatFormat) : sineEntry f 0 = .fin 0 := by simp [sineEntry_eq, roundIeee_zero]

/-- Is the entry a number other than zero, to which the two numbers at the literal's error bound round too? -/
def entryStable (f : FloatFormat) (m : Int) : Bool :=
  match sineEntry f m with
  | .fin r => decide (r ≠ 0) && decide (sineEntry f (m - 2 ^ 14) = .fin r) && decide (sineEntry f (m + 2 ^ 14) = .fin r)
  | _ => false

theorem exists_of_entryStable (h : entryStable f m = true) :
    ∃ r, r ≠ 0 ∧ sineEntry f m = .fin r ∧ sineEntry f (m - 2 ^ 14) = .fin r ∧ sineEntry f (m + 2 ^ 14) = .fin r := by
  unfold entryStable at h
  split at h
  · next r hr =>
    simp only [Bool.and_eq_true, decide_eq_true_eq] at h
    obtain ⟨⟨h0, hbelow⟩, habove⟩ := h
    exact ⟨r, h0, hr, hbelow, habove⟩
  · cases h

/-- A stable entry is nearest to every number within the literal's error, and its literal's negation has the negated entry. -/
theorem isNearest_of_entryStable (hs : entryStable f m = true) (hy : |(m : ℝ) - 2 ^ 100 * y| ≤ 2 ^ 14) :
    ∃ r, sineEntry f m = .fin r ∧ sineEntry f (-m) = .fin (-r) ∧ IsNearest f y r := by
  obtain ⟨r, h0, hr, hbelow, habove⟩ := exists_of_entryStable hs
  obtain ⟨hlo, hhi⟩ := abs_le.mp hy
  refine ⟨r, hr, sineEntry_neg hr h0, (isNearest_of_sineEntry hbelow).between (isNearest_of_sineEntry habove) ?_ ?_⟩
  · rw [div_le_iff₀ (by positivity)]
    push_cast
    linarith
  · rw [le_div_iff₀ (by positivity)]
    push_cast
    linarith

/-- Every entry of the first quarter but the first, zero, is stable. -/
theorem sineQuarter_tail_stable (f : FloatFormat) : ∀ n ∈ sineQuarter.tail, entryStable f (n : Nat) = true := by
  cases f <;> decide +kernel

theorem sineQuarter_length : sineQuarter.length = 257 := by decide +kernel

theorem sineQuarter_getElem (hk : k ≤ 256) : sineQuarter[k]? = some (sineQuarter.getD k 0) := by
  rw [List.getD_eq_getElem?_getD, List.getElem?_eq_getElem (by rw [sineQuarter_length]; omega), Option.getD_some]

/-- The entries of a literal of the first quarter and of its negation. -/
theorem sineLiteral_entry (f : FloatFormat) (hk : k ≤ 256) :
    ∃ r, sineEntry f (sineLiteral k) = .fin r ∧ sineEntry f (-sineLiteral k) = .fin (-r) ∧
      IsNearest f (Real.sin (Real.pi * k / 512)) r := by
  cases k with
  | zero =>
    have h0 : sineLiteral 0 = 0 := by decide +kernel
    rw [h0, neg_zero]
    refine ⟨0, sineEntry_zero f, sineEntry_zero f, ?_⟩
    simpa using isNearest_zero f
  | succ j =>
    have hmem : sineQuarter.getD (j + 1) 0 ∈ sineQuarter.tail := by
      refine List.mem_of_getElem? (i := j) ?_
      rw [List.getElem?_tail, sineQuarter_getElem hk]
    exact isNearest_of_entryStable (sineQuarter_tail_stable f _ hmem) (sineLiteral_near_all (j + 1) hk)

/-! ## The table -/

/-- The position in the first quarter with the same sine, for a position in the first half of the period. -/
def quarterIndex (k : Nat) : Nat := min k (512 - k)

theorem quarterIndex_le (k : Nat) : quarterIndex k ≤ 256 := by unfold quarterIndex; omega

theorem sin_quarterIndex (hk : k < 512) : Real.sin (Real.pi * quarterIndex k / 512) = Real.sin (Real.pi * k / 512) := by
  unfold quarterIndex
  rcases le_total k (512 - k) with h | h
  · rw [min_eq_left h]
  · rw [min_eq_right h, ← Real.sin_pi_sub, Nat.cast_sub hk.le]
    congr 1
    push_cast
    ring

theorem sineHalf_length : sineHalf.length = 512 := by decide +kernel

/-- The second quarter of the list mirrors the first. -/
theorem sineHalf_getElem (hk : k < 512) : sineHalf[k]? = some (sineQuarter.getD (quarterIndex k) 0) := by
  have hlen : (sineQuarter.take 256).length = 256 := by rw [List.length_take, sineQuarter_length]; rfl
  rw [sineHalf, ← sineQuarter_getElem (quarterIndex_le k), quarterIndex]
  rcases lt_or_ge k 256 with h | h
  · rw [List.getElem?_append_left (by omega), List.getElem?_take_of_lt h, min_eq_left (by omega)]
  · rw [List.getElem?_append_right (by omega), hlen, List.getElem?_take_of_lt (by omega),
      List.getElem?_reverse (by rw [sineQuarter_length]; omega), sineQuarter_length, min_eq_right (by omega),
      show 257 - 1 - (k - 256) = 512 - k by omega]

theorem bind_pure_cast (l : List Nat) : (do let a ← l; pure (a : Int)) = l.map fun n : Nat => (n : Int) := by
  induction l with
  | nil => rfl
  | cons n l ih => simpa using ih

theorem ieeeSineTable_eq (f : FloatFormat) : ieeeSineTable f =
    (sineHalf.map fun n : Nat => sineEntry f n) ++ sineHalf.map fun n : Nat => sineEntry f (-n) := by
  rw [ieeeSineTable, bind_pure_cast, List.map_map, List.map_map]
  rfl

theorem ieeeSineTable_length (f : FloatFormat) : (ieeeSineTable f).length = 1024 := by
  rw [ieeeSineTable_eq, List.length_append, List.length_map, List.length_map, sineHalf_length]

theorem ieeeSineTable_firstHalf (f : FloatFormat) (hk : k < 512) :
    (ieeeSineTable f)[k]? = some (sineEntry f (sineLiteral (quarterIndex k))) := by
  rw [ieeeSineTable_eq, List.getElem?_append_left (by rwa [List.length_map, sineHalf_length]), List.getElem?_map,
    sineHalf_getElem hk]
  rfl

theorem ieeeSineTable_secondHalf (f : FloatFormat) (hk : k < 512) :
    (ieeeSineTable f)[512 + k]? = some (sineEntry f (-sineLiteral (quarterIndex k))) := by
  rw [ieeeSineTable_eq, List.getElem?_append_right (by rw [List.length_map, sineHalf_length]; omega), List.getElem?_map,
    List.length_map, sineHalf_length, Nat.add_sub_cancel_left, sineHalf_getElem hk]
  rfl

/-- Every entry of the default table of an IEEE format is nearest to the real sine. -/
theorem ieeeSineTable_entry (f : FloatFormat) (hk : k < 1024) :
    ∃ r, (ieeeSineTable f)[k]? = some (.fin r) ∧ IsNearest f (Real.sin (2 * Real.pi * k / 1024)) r := by
  rcases lt_or_ge k 512 with h | h
  · obtain ⟨r, hr, -, hnear⟩ := sineLiteral_entry f (quarterIndex_le k)
    rw [ieeeSineTable_firstHalf f h, hr, show 2 * Real.pi * k / 1024 = Real.pi * k / 512 by ring, ← sin_quarterIndex h]
    exact ⟨r, rfl, hnear⟩
  · obtain ⟨j, rfl⟩ := Nat.exists_eq_add_of_le h
    have hj : j < 512 := by omega
    obtain ⟨r, -, hr, hnear⟩ := sineLiteral_entry f (quarterIndex_le j)
    have hshift : 2 * Real.pi * ((512 + j : Nat) : ℝ) / 1024 = Real.pi * j / 512 + Real.pi := by push_cast; ring
    rw [ieeeSineTable_secondHalf f hj, hr, hshift, Real.sin_add_pi, ← sin_quarterIndex hj]
    exact ⟨-r, rfl, hnear.neg⟩

/-- Settles O60: the exact table by the addition theorem of the cosine, an IEEE table by its stable literals. -/
theorem defaultTableRoundsTheSine : Obligations.DefaultTableRoundsTheSine := by
  intro fmt
  cases fmt with
  | exact => exact ⟨exactTable_length, exactTable_entry⟩
  | ieee f =>
    refine ⟨ieeeSineTable_length f, fun k hk => ?_⟩
    obtain ⟨r, hget, hnear⟩ := ieeeSineTable_entry f hk
    exact ⟨.fin r, hget, (isOf_ieee_fin_iff f r).mpr hnear.1, r, rfl, hnear⟩

end Sys2Proof
end

section
/-! PROOFS. What a command can do to each component, said once: the invariants and the frames of the state are read off it. -/

namespace Sys2Proof.Machine

open Sys2Proof

/-- What the command `i` can do to an oscillator that it does not leave alone (R161 to R168). -/
inductive OscStep (fmt : NumFormat) (wt : List Value) (o : Osc) : Instr → Osc → Prop
  | advance {i : Instr} {o' : Osc} {yp ys : Value} (hi : i.opcode ∈ [.oscAdvance, .liaDemod, .clStep])
      (h : oscAdvance fmt wt o = .ok (o', yp, ys)) : OscStep fmt wt o i o'
  | enable (en : Bool) : OscStep fmt wt o (.oscSetEnable en) { o with en := en }
  | phase {phi : Value} {step : Int} (hf : phi.isFinite = true) (hd : detuneOf fmt phi o.phaseSeen o.W = some step) :
      OscStep fmt wt o (.oscSetPhase phi) { o with phaseCfg := phi, detune := step }

/-- What the command `i` can do to a filter that it does not leave alone (R190 to R193, R211). -/
inductive MafStep (par : Config.Params) (wt : List Value) (o : Osc) (m : Maf) : Instr → Maf → Prop
  | update {x y : Value} {m' : Maf} (hx : x.isFinite = true) (h : mafUpdate par.num par.capacity m x = .ok (m', y)) :
      MafStep par wt o m (.mafUpdate x) m'
  | demod {i : Instr} {e yp ys y : Value} {o' : Osc} {m' : Maf} (hi : i = .liaDemod e ∨ i = .clStep e)
      (ho : oscAdvance par.num wt o = .ok (o', yp, ys)) (hp : (Value.mul par.num e ys).isFinite = true)
      (h : mafUpdate par.num par.capacity m (Value.mul par.num e ys) = .ok (m', y)) : MafStep par wt o m i m'
  | cutoff {fc : Value} (hf : fc.isFinite = true) (hp : positive fc = true)
      (hr : roundsWithin (Value.div par.num m.fs fc) 1 par.capacity = true) :
      MafStep par wt o m (.mafSetCutoff fc) { m with fc := fc }

/-- The gains and the sampling interval that a setter gives the controller `sel`: its operands, and the old values where it has none
(R240 to R244). -/
inductive SetsGains (sel : Sel) (P : Pid) : Instr → Value → Value → Value → Value → Prop
  | p {p : Value} (hp : p.isFinite = true) : SetsGains sel P (.pidSetP sel p) p P.i P.d P.Ts
  | i {x : Value} (hx : x.isFinite = true) : SetsGains sel P (.pidSetI sel x) P.p x P.d P.Ts
  | d {d : Value} (hd : d.isFinite = true) : SetsGains sel P (.pidSetD sel d) P.p P.i d P.Ts
  | gains {p x d : Value} (hp : p.isFinite = true) (hx : x.isFinite = true) (hd : d.isFinite = true) :
      SetsGains sel P (.pidSetGains sel p x d) p x d P.Ts
  | ts {ts : Value} (hf : ts.isFinite = true) (ht : positive ts = true) : SetsGains sel P (.pidSetTs sel ts) P.p P.i P.d ts

/-- What the command `i` can do to a controller that it does not leave alone (R224, R228, R238). -/
inductive PidStep (fmt : NumFormat) (sel : Sel) (P : Pid) : Instr → Pid → Prop
  | run {i : Instr} {e v : Value} {P' : Pid} (hi : i = .pidRun sel e ∨ i = .clStep e) (h : pidRun fmt P e = .ok (P', v)) :
      PidStep fmt sel P i P'
  | enable : PidStep fmt sel P (.pidEnable sel) (pidEvent .enable P)
  | disable : PidStep fmt sel P (.pidDisable sel) (pidEvent .disable P)
  | hold : PidStep fmt sel P (.pidHold sel) (pidEvent .hold P)
  | reset : PidStep fmt sel P (.pidReset sel) (pidEvent .reset P)
  | gains {i : Instr} {p x d ts : Value} (hi : SetsGains sel P i p x d ts) (hc : (coefs fmt p x d ts).finite = true) :
      PidStep fmt sel P i { recomputed fmt P p x d ts with p := p, i := x, d := d, Ts := ts }

/-- What a CL_STEP can do to the loop (R271). -/
inductive LoopStep (s : State) : Instr → Loop → Prop
  | ran {e slow : Value} {ps : Pid} (ht : s.loop.tick + 1 < s.loop.countlim)
      (h : pidRun s.par.num s.pidSlow e = .ok (ps, slow)) :
      LoopStep s (.clStep e)
        { s.loop with tick := tickAfterRun s.par.doubleIncrement (s.loop.tick + 1), slowLast := slow }
  | skipped {e : Value} (ht : s.loop.countlim ≤ s.loop.tick + 1) : LoopStep s (.clStep e) { s.loop with tick := 0 }

/-- What the command `i` can do to the block: nothing outside the four components and the answer, and to each of these nothing or a step
of its own. -/
structure CommandStep (i : Instr) (s t : State) : Prop where
  par : t.par = s.par
  wt : t.wt = s.wt
  pending : t.pending = s.pending
  free : t.free = s.free
  osc : t.osc = s.osc ∨ OscStep s.par.num s.wt s.osc i t.osc
  maf : t.maf = s.maf ∨ MafStep s.par s.wt s.osc s.maf i t.maf
  pid : ∀ sel, t.pid sel = s.pid sel ∨ PidStep s.par.num sel (s.pid sel) i (t.pid sel)
  loop : t.loop = s.loop ∨ LoopStep s i t.loop

namespace CommandStep

variable {i : Instr} {s : State}

theorem refl (i : Instr) (s : State) : CommandStep i s s :=
  ⟨rfl, rfl, rfl, rfl, .inl rfl, .inl rfl, fun _ => .inl rfl, .inl rfl⟩

theorem of_osc {o : Osc} (h : OscStep s.par.num s.wt s.osc i o) : CommandStep i s { s with osc := o } :=
  { refl i s with osc := .inr h }

theorem of_maf {m : Maf} (h : MafStep s.par s.wt s.osc s.maf i m) : CommandStep i s { s with maf := m } :=
  { refl i s with maf := .inr h }

theorem of_pid {sel : Sel} {P : Pid} (h : PidStep s.par.num sel (s.pid sel) i P) : CommandStep i s (s.setPid sel P) where
  par := setPid_par s sel P
  wt := setPid_wt s sel P
  pending := setPid_pending s sel P
  free := setPid_free s sel P
  osc := .inl (setPid_osc s sel P)
  maf := .inl (setPid_maf s sel P)
  pid sel' := by
    by_cases hs : sel' = sel
    · subst hs
      rw [pid_setPid]
      exact .inr h
    · exact .inl (pid_setPid_ne s sel sel' P hs)
  loop := .inl (setPid_loop s sel P)

/-- A demodulation advances the oscillator and feeds the filter (R211). -/
theorem of_liaDemod {e y : Value} {o : Osc} {m : Maf} (hi : i = .liaDemod e ∨ i = .clStep e)
    (h : liaDemod s.par s.wt s.osc s.maf e = .ok (o, m, y)) :
    OscStep s.par.num s.wt s.osc i o ∧ MafStep s.par s.wt s.osc s.maf i m := by
  obtain ⟨-, yp, ys, ho, hp, hm⟩ := liaDemod_ok.mp h
  exact ⟨.advance (by rcases hi with rfl | rfl <;> simp [Instr.opcode]) ho, .demod hi ho hp hm⟩

end CommandStep

/-- A command that completes. -/
theorem Effect.commandStep {i : Instr} {s : State} {d : Done} (h : Effect i s d) : CommandStep i s d.state := by
  cases i with
  | nop => cases h; exact .refl _ s
  | wtInterp x => obtain ⟨-, v, -, -, rfl⟩ := h; exact .refl _ s
  | oscAdvance => obtain ⟨o, yp, ys, ho, rfl⟩ := h; exact .of_osc (.advance (by decide) ho)
  | oscSetEnable en => cases h; exact .of_osc (.enable en)
  | oscSetPhase phi => obtain ⟨hf, step, hd, rfl⟩ := h; exact .of_osc (.phase hf hd)
  | mafUpdate x => obtain ⟨hx, m, y, hm, rfl⟩ := h; exact .of_maf (.update hx hm)
  | mafSetCutoff fc => obtain ⟨hf, hp, hr, rfl⟩ := h; exact .of_maf (.cutoff hf hp hr)
  | liaDemod e =>
    obtain ⟨o, m, y, hl, rfl⟩ := h
    obtain ⟨ho, hm⟩ := CommandStep.of_liaDemod (.inl rfl) hl
    exact { CommandStep.refl _ s with osc := .inr ho, maf := .inr hm }
  | pidRun sel e => obtain ⟨P, v, hp, rfl⟩ := h; exact .of_pid (.run (.inl rfl) hp)
  | pidEnable sel => cases h; exact .of_pid .enable
  | pidDisable sel => cases h; exact .of_pid .disable
  | pidHold sel => cases h; exact .of_pid .hold
  | pidReset sel => cases h; exact .of_pid .reset
  | pidIsLimited sel => cases h; exact .refl _ s
  | pidSetP sel p => obtain ⟨hp, hc, rfl⟩ := h; exact .of_pid (.gains (.p hp) hc)
  | pidSetI sel x => obtain ⟨hx, hc, rfl⟩ := h; exact .of_pid (.gains (.i hx) hc)
  | pidSetD sel x => obtain ⟨hx, hc, rfl⟩ := h; exact .of_pid (.gains (.d hx) hc)
  | pidSetGains sel p x d => obtain ⟨⟨hp, hx, hd⟩, hc, rfl⟩ := h; exact .of_pid (.gains (.gains hp hx hd) hc)
  | pidSetTs sel ts => obtain ⟨hf, ht, hc, rfl⟩ := h; exact .of_pid (.gains (.ts hf ht) hc)
  | clStep e =>
    obtain ⟨o, m, y, pf, fast, hl, hf, ⟨ht, ps, slow, hs, rfl⟩ | ⟨ht, rfl⟩⟩ := h
    all_goals obtain ⟨ho, hm⟩ := CommandStep.of_liaDemod (i := .clStep e) (.inr rfl) hl
    · exact ⟨rfl, rfl, rfl, rfl, .inr ho, .inr hm, fun
        | .fast => .inr (.run (.inr rfl) hf)
        | .slow => .inr (.run (.inr rfl) hs), .inr (.ran ht hs)⟩
    · exact ⟨rfl, rfl, rfl, rfl, .inr ho, .inr hm, fun
        | .fast => .inr (.run (.inr rfl) hf)
        | .slow => .inl rfl, .inr (.skipped ht)⟩

/-- Whether a command completes, faults or meets a halted block, it does no more than its steps: a command that does not complete
changes STATUS and the answer only (R303, R312). -/
theorem exec_commandStep {i : Instr} {s t : State} (h : exec i s = .next t) : CommandStep i s t := by
  rcases exec_next h with ⟨-, rfl⟩ | ⟨-, d, hd, rfl⟩ | ⟨-, c, -, rfl⟩
  · exact { CommandStep.refl i s with }
  · exact { hd.commandStep with }
  · exact { CommandStep.refl i s with }

theorem step_par {s t : State} (h : step s = .next t) : t.par = s.par := by
  rcases step_next h with ⟨-, rfl⟩ | ⟨rest, -, rfl⟩ | ⟨c, rest, -, -, -, rfl⟩ | ⟨a, w, ops, rest, e, -, -, rfl⟩ |
    ⟨a, w, ops, rest, i, -, -, -, he⟩
  · rfl
  · unfold deadlineOverrun
    split <;> rfl
  · unfold applyReset
    split <;> rfl
  · split <;> rfl
  · exact (exec_commandStep he).par

/-- The invariants that say the block is halted or `B` holds: a step keeps one when `B` does not speak of the port, a reset that
passes leaves it, and every command with operands of NUM keeps it. -/
theorem step_keeps_halted_or {B : State → Prop} {s t : State}
    (port : ∀ (s : State) pending answer, B s → B { s with pending := pending, answer := answer })
    (reset : ∀ (c : Config.Record) (s : State), firstFailedCheck s.par c = none → s.par.wellFormed = true →
      c.wellFormed s.par.num = true → B (afterReset c s))
    (command : ∀ {i : Instr} {s t : State}, i.wellFormed s.par.num = true → exec i s = .next t → B s → B t)
    (hs : s.halted = true ∨ B s) (h : step s = .next t) : t.halted = true ∨ B t := by
  rcases step_next h with ⟨-, rfl⟩ | ⟨rest, -, rfl⟩ | ⟨c, rest, -, ht, hc, rfl⟩ | ⟨a, w, ops, rest, e, -, -, rfl⟩ |
    ⟨a, w, ops, rest, i, -, -, hw, he⟩
  · exact hs.imp_right (port s _ _)
  · unfold deadlineOverrun
    split
    · next hh => exact .inl hh
    · exact .inl (faultEntry_halted _ _ _)
  · unfold applyReset
    split
    · next hn => exact .inr (reset c _ hn ht hc)
    · exact .inl (statusWord_bit0 _ _)
  · split
    · next hh => exact .inl hh
    · exact .inl (raiseBy_halted _ _ _)
  · by_cases hh : s.halted = true
    · have hr : State.halted { s with pending := rest } = true := hh
      rw [exec_halted hr] at he
      cases he
      exact .inl hh
    · exact .inr (command (s := { s with pending := rest }) (hw.resolve_left hh) he (port s rest _ (hs.resolve_left hh)))

end Sys2Proof.Machine
end

section
/-! PROOFS. The invariants of the state: the ranges (R41, R45, R51, R52, R56), the finite values (R34, R305), the running sum under
Exact (R191), STATUS (R66). -/

namespace Sys2Proof.Machine

open Sys2Proof Sys2Proof.Safety

/-! ## Ranges -/

theorem OscStep.inRange {fmt : NumFormat} {wt : List Value} {o o' : Osc} {i : Instr} (h : OscStep fmt wt o i o')
    (ho : OscInRange o) : OscInRange o' := by
  cases h with
  | advance _ h => exact oscAdvance_range h ho
  | enable en => exact ho
  | phase _ _ => exact ho

theorem MafStep.inRange {par : Config.Params} {wt : List Value} {o : Osc} {m m' : Maf} {i : Instr}
    (h : MafStep par wt o m i m') (hm : MafInRange par.num par.capacity m) : MafInRange par.num par.capacity m' := by
  cases h with
  | update _ h => exact mafUpdate_range h hm
  | demod _ _ _ h => exact mafUpdate_range h hm
  | cutoff _ hp hr =>
    obtain ⟨hlen, hcur, hN, hNC, hfs, -, -⟩ := hm
    exact ⟨hlen, hcur, hN, hNC, hfs, hp, hr⟩

/-- The sampling interval stays positive (R244). -/
theorem SetsGains.ts_positive {sel : Sel} {P : Pid} {i : Instr} {p x d ts : Value} (h : SetsGains sel P i p x d ts)
    (hP : positive P.Ts = true) : positive ts = true := by
  cases h with
  | ts _ ht => exact ht
  | _ => exact hP

theorem PidStep.inRange {fmt : NumFormat} {sel : Sel} {P P' : Pid} {i : Instr} (h : PidStep fmt sel P i P')
    (hP : PidInRange P) : PidInRange P' := by
  cases h with
  | run _ h => exact pidRun_range h hP
  | gains hi _ =>
    obtain ⟨hfrozen, hlim, hlo, hhi, hTs⟩ := hP
    exact ⟨hfrozen, hlim, hlo, hhi, hi.ts_positive hTs⟩
  | enable | disable | hold | reset => exact pidEvent_range _ hP

theorem LoopStep.inRange {s : State} {i : Instr} {l : Loop} (h : LoopStep s i l) (hs : LoopInRange s.loop) :
    LoopInRange l := by
  cases h with
  | ran ht _ => exact ⟨hs.1, by simp only [tickAfterRun]; split <;> omega⟩
  | skipped _ => exact ⟨hs.1, Nat.zero_le _⟩

theorem exec_keeps_blockInRange {i : Instr} {s t : State} (h : exec i s = .next t) (hs : BlockInRange s) :
    BlockInRange t := by
  have hc := exec_commandStep h
  have hpid : ∀ sel, PidInRange (t.pid sel) := fun sel =>
    (hc.pid sel).elim (fun he => he ▸ blockInRange_pid hs sel) fun hp => hp.inRange (blockInRange_pid hs sel)
  obtain ⟨hwt, hlen, hosc, hmaf, -, -, hloop⟩ := hs
  refine ⟨by rw [hc.wt, hc.par, hwt], by rw [hc.wt, hlen], ?_, ?_, hpid .fast, hpid .slow, ?_⟩
  · exact hc.osc.elim (fun he => he ▸ hosc) fun ho => ho.inRange hosc
  · rw [hc.par]
    exact hc.maf.elim (fun he => he ▸ hmaf) fun hm => hm.inRange hmaf
  · exact hc.loop.elim (fun he => he ▸ hloop) fun hl => hl.inRange hloop

/-- What a passed check 6, 9 or 16 says of the rounded quotient. -/
theorem roundsWithin_iff {q : Value} {lo hi : Int} :
    roundsWithin q lo hi = true ↔ q.isFinite = true ∧ lo ≤ q.round ∧ q.round ≤ hi := by
  simp [roundsWithin, and_assoc]

section
variable {c : Config.Record} {s : State} (h : firstFailedCheck s.par c = none)
include h

theorem afterReset_oscInRange : OscInRange (afterReset c s).osc := by
  have check := firstFailedCheck_none h
  have h3 := check 3 (by decide)
  have h4 := check 4 (by decide)
  have h6 := check 6 (by decide)
  simp only [resetCheck, Bool.and_eq_true, decide_eq_true_eq] at h3 h4
  obtain ⟨-, hlo, hhi⟩ := roundsWithin_iff.mp h6
  have hM : (0 : Int) ≤ (2 ^ c.oscW : Nat) - 1 := by omega
  exact ⟨h3.1.1, h3.1.2, h3.2, h4, hlo, hhi, le_refl _, hM, le_refl _, hM⟩

/-- The window length of reset is in `1..C` (R46, check 9). -/
theorem reset_window :
    positive c.mafCutoff = true ∧ (Value.div s.par.num c.loopRate c.mafCutoff).isFinite = true ∧
      1 ≤ (Value.div s.par.num c.loopRate c.mafCutoff).round ∧
      (Value.div s.par.num c.loopRate c.mafCutoff).round ≤ s.par.capacity := by
  have h9 := firstFailedCheck_none h 9 (by decide)
  simpa only [resetCheck, Bool.and_eq_true, roundsWithin_iff] using h9

theorem afterReset_mafInRange : MafInRange s.par.num s.par.capacity (afterReset c s).maf := by
  obtain ⟨hfc, hfin, hlo, hhi⟩ := reset_window h
  refine ⟨by simp [afterReset, mafAtReset], ?_, ?_, ?_, firstFailedCheck_none h 8 (by decide), hfc,
    roundsWithin_iff.mpr ⟨hfin, hlo, hhi⟩⟩ <;>
    simp only [afterReset, mafAtReset] <;> omega

/-- `countlim` of reset is at least 1 (R57, check 16). -/
theorem reset_countlim : 1 ≤ (Value.div s.par.num c.loopRate c.slowRate).round := by
  have h16 := firstFailedCheck_none h 16 (by decide)
  simp only [resetCheck, Bool.and_eq_true, decide_eq_true_eq] at h16
  exact h16.2

theorem reset_table : s.par.sineTable.length = Config.L ∧ ∀ v ∈ s.par.sineTable, v.isFinite = true := by
  have h1 := firstFailedCheck_none h 1 (by decide)
  simpa only [resetCheck, Bool.and_eq_true, decide_eq_true_eq, List.all_eq_true] using h1

theorem afterReset_blockInRange : BlockInRange (afterReset c s) := by
  have check := firstFailedCheck_none h
  have hlim := reset_countlim h
  exact ⟨rfl, (reset_table h).1, afterReset_oscInRange h, afterReset_mafInRange h,
    pidAtReset_range _ _ (check 11 (by decide)) (check 10 (by decide)),
    pidAtReset_range _ _ (check 14 (by decide)) (check 13 (by decide)),
    by simp only [LoopInRange, afterReset, loopAtReset]; omega⟩

end

/-- Settles O54: a command takes each component through steps that keep its range, and a reset that passes its checks starts in range. -/
theorem stepKeepsInvariant : Obligations.StepKeepsInvariant :=
  ⟨fun _ _ => step_keeps_halted_or (fun _ _ _ hs => hs) (fun _ _ h _ _ => afterReset_blockInRange h)
    (fun _ h hs => exec_keeps_blockInRange h hs), fun _ _ _ hs h => exec_keeps_blockInRange h hs⟩

/-! ## Finite values -/

theorem isOf_operand {fmt : NumFormat} {i : Instr} {x : Value} (hw : i.wellFormed fmt = true) (hx : x ∈ i.operands) :
    isOf fmt x = true :=
  List.all_eq_true.mp hw x hx

theorem OscStep.good {fmt : NumFormat} {wt : List Value} {o o' : Osc} {i : Instr} (h : OscStep fmt wt o i o')
    (hw : i.wellFormed fmt = true) (ho : GoodOsc fmt o) : GoodOsc fmt o' := by
  cases h with
  | advance _ h => exact oscAdvance_good h ho
  | enable en => exact ho
  | phase hf _ =>
    obtain ⟨hamp, hoff, -, hseen⟩ := ho
    exact ⟨hamp, hoff, ⟨isOf_operand hw (List.mem_singleton_self _), hf⟩, hseen⟩

theorem MafStep.good {par : Config.Params} {wt : List Value} {o : Osc} {m m' : Maf} {i : Instr}
    (h : MafStep par wt o m i m') (hw : i.wellFormed par.num = true) (hwt : ∀ v ∈ wt, Good par.num v)
    (ho : GoodOsc par.num o) (hm : GoodMaf par.num m) : GoodMaf par.num m' := by
  cases h with
  | update hx h => exact mafUpdate_good h ⟨isOf_operand hw (List.mem_singleton_self _), hx⟩ hm
  | demod hi hadv hp h =>
    have he := isOf_operand hw (by rcases hi with rfl | rfl <;> exact List.mem_singleton_self _)
    exact mafUpdate_good h ⟨isOf_mul he (oscAdvance_isOf hwt ho hadv), hp⟩ hm
  | cutoff hf _ _ =>
    obtain ⟨hbuf, hsum, -, hfs⟩ := hm
    exact ⟨hbuf, hsum, ⟨isOf_operand hw (List.mem_singleton_self _), hf⟩, hfs⟩

theorem SetsGains.good {fmt : NumFormat} {sel : Sel} {P : Pid} {i : Instr} {p x d ts : Value}
    (h : SetsGains sel P i p x d ts) (hw : i.wellFormed fmt = true) (hP : GoodPid fmt P) :
    Good fmt p ∧ Good fmt x ∧ Good fmt d ∧ Good fmt ts := by
  obtain ⟨hTs, hp, hi, hd, -⟩ := hP
  cases h with
  | p hf => exact ⟨⟨isOf_operand hw (List.mem_singleton_self _), hf⟩, hi, hd, hTs⟩
  | i hf => exact ⟨hp, ⟨isOf_operand hw (List.mem_singleton_self _), hf⟩, hd, hTs⟩
  | d hf => exact ⟨hp, hi, ⟨isOf_operand hw (List.mem_singleton_self _), hf⟩, hTs⟩
  | gains hpf hxf hdf =>
    have hops : ∀ y ∈ [p, x, d], isOf fmt y = true := fun y hy => isOf_operand hw hy
    exact ⟨⟨hops p (by simp), hpf⟩, ⟨hops x (by simp), hxf⟩, ⟨hops d (by simp), hdf⟩, hTs⟩
  | ts hf _ => exact ⟨hp, hi, hd, ⟨isOf_operand hw (List.mem_singleton_self _), hf⟩⟩

theorem PidStep.good {fmt : NumFormat} {sel : Sel} {P P' : Pid} {i : Instr} (h : PidStep fmt sel P i P')
    (hw : i.wellFormed fmt = true) (hP : GoodPid fmt P) : GoodPid fmt P' := by
  cases h with
  | run hi h =>
    have he := isOf_operand hw (by rcases hi with rfl | rfl <;> exact List.mem_singleton_self _)
    exact (pidRun_good h he hP).1
  | gains hi hc =>
    obtain ⟨hp, hx, hd, hts⟩ := hi.good hw hP
    exact recomputed_good hP hp hx hd hts hc
  | enable | disable | hold | reset => exact pidEvent_good _ hP

theorem LoopStep.good {s : State} {i : Instr} {l : Loop} (h : LoopStep s i l) (hw : i.wellFormed s.par.num = true)
    (hP : GoodPid s.par.num s.pidSlow) (hs : Good s.par.num s.loop.slowLast) : Good s.par.num l.slowLast := by
  cases h with
  | ran _ h => exact (pidRun_good h (isOf_operand hw (List.mem_singleton_self _)) hP).2
  | skipped _ => exact hs

theorem valuesGood_pid {s : State} (h : ValuesGood s) (sel : Sel) : GoodPid s.par.num (s.pid sel) := by
  obtain ⟨-, -, -, hf, hs, -⟩ := h
  cases sel
  · exact hf
  · exact hs

theorem exec_keeps_valuesGood {i : Instr} {s t : State} (hw : i.wellFormed s.par.num = true) (h : exec i s = .next t)
    (hs : ValuesGood s) : ValuesGood t := by
  have hc := exec_commandStep h
  have hpid : ∀ sel, GoodPid s.par.num (t.pid sel) := fun sel =>
    (hc.pid sel).elim (fun he => he ▸ valuesGood_pid hs sel) fun hp => hp.good hw (valuesGood_pid hs sel)
  obtain ⟨hwt, hosc, hmaf, -, hslow, hloop⟩ := hs
  unfold ValuesGood
  rw [hc.par, hc.wt]
  refine ⟨hwt, ?_, ?_, hpid .fast, hpid .slow, ?_⟩
  · exact hc.osc.elim (fun he => he ▸ hosc) fun ho => ho.good hw hosc
  · exact hc.maf.elim (fun he => he ▸ hmaf) fun hm => hm.good hw hwt hosc hmaf
  · exact hc.loop.elim (fun he => he ▸ hloop) fun hl => hl.good hw hslow hloop

theorem afterReset_valuesGood {c : Config.Record} {s : State} (h : firstFailedCheck s.par c = none)
    (ht : s.par.wellFormed = true) (hw : c.wellFormed s.par.num = true) : ValuesGood (afterReset c s) := by
  have check := firstFailedCheck_none h
  have hfin := check 2 (by decide)
  simp only [resetCheck, recordFinite, List.all_cons, List.all_nil, Bool.and_true, Bool.and_eq_true] at hfin
  simp only [Config.Record.wellFormed, List.all_cons, List.all_nil, Bool.and_true, Bool.and_eq_true] at hw
  obtain ⟨⟨⟨famp, foff, -, fphase, -, frate, fcut, -⟩, ffast⟩, fslow⟩ := hfin
  obtain ⟨⟨⟨wamp, woff, -, wphase, -, wrate, wcut, -⟩, wfast⟩, wslow⟩ := hw
  have hfast := pidAtReset_good wfast ffast (check 12 (by decide))
  have hslow := pidAtReset_good wslow fslow (check 15 (by decide))
  refine ⟨fun v hv => ⟨List.all_eq_true.mp ht v hv, (reset_table h).2 v hv⟩,
    ⟨⟨wamp, famp⟩, ⟨woff, foff⟩, ⟨wphase, fphase⟩, good_zero⟩,
    ⟨fun v hv => List.eq_of_mem_replicate hv ▸ good_zero, good_zero, ⟨wcut, fcut⟩, ⟨wrate, frate⟩⟩, hfast, hslow, ?_⟩
  obtain ⟨-, -, -, -, -, -, -, -, -, -, -, -, -, hcv⟩ := hslow
  exact hcv

/-- Settles O56: each component's steps give finite values of NUM from finite values of NUM. -/
theorem stepKeepsValuesFinite : Obligations.StepKeepsValuesFinite := by
  rintro s t ⟨htab, hs⟩ h
  refine ⟨by rwa [step_par h], ?_⟩
  exact step_keeps_halted_or (fun _ _ _ hs => hs) (fun _ _ hn ht hw => afterReset_valuesGood hn ht hw)
    (fun hw h hs => exec_keeps_valuesGood hw h hs) hs h

/-- Settles O14: the reset state is the state after a reset with CFG1, whose checks pass. -/
theorem resetStateIsInRange : Obligations.ResetStateIsInRange :=
  have h : firstFailedCheck State.reset.par Config.cfg1 = none := cfg1_passes
  ⟨afterReset_blockInRange h, rfl, afterReset_valuesGood h defaultParams_wellFormed cfg1_wellFormed,
    defaultParams_wellFormed⟩

/-! ## The running sum under Exact -/

/-- Replacing an entry changes the sum by the difference of the entries. -/
theorem sum_map_set {l : List Value} {k : Nat} {old : Value} (h : l[k]? = some old) (x : Value) (f : Value → ℝ) :
    ((l.set k x).map f).sum = (l.map f).sum - f old + f x := by
  obtain ⟨hk, rfl⟩ := List.getElem?_eq_some_iff.mp h
  rw [List.map_set, List.sum_set', dif_pos (by simpa using hk), List.getElem_map]
  ring

/-- The filter's part of the invariant. -/
def MafSum (m : Maf) : Prop :=
  (∀ v ∈ m.buf, isOf .exact v = true) ∧ isOf .exact m.sum = true ∧ m.sum.real = (m.buf.map Value.real).sum

theorem mafUpdate_keeps_sum {C : Nat} {m m' : Maf} {x y : Value} (h : mafUpdate .exact C m x = .ok (m', y))
    (hx : isOf .exact x = true) (hm : MafSum m) : MafSum m' := by
  obtain ⟨old, hold, -, -, -, -, -, rfl⟩ := mafUpdate_ok.mp h
  obtain ⟨hbuf, hsum, heq⟩ := hm
  have hget : m.buf[m.cur]? = some old := (memRead_ok.mp hold).2
  have ho := hbuf old (List.mem_of_getElem? hget)
  have hsub := isOf_sub hsum ho
  refine ⟨fun v hv => ?_, isOf_add hsub hx, ?_⟩
  · exact (List.mem_or_eq_of_mem_set hv).elim (hbuf v) fun he => he ▸ hx
  · rw [real_add_exact hsub hx, real_sub_exact hsum ho, heq, sum_map_set hget]

/-- A finite product under Exact is a value of Exact, whatever its factors are: the product of two exact numbers is reduced. -/
theorem isOf_mul_exact_of_finite {x y : Value} (h : (Value.mul .exact x y).isFinite = true) :
    isOf .exact (Value.mul .exact x y) = true := by
  unfold Value.mul at h ⊢
  split at h
  · cases h
  · cases h
  · cases h
  · split at h <;> cases h
  · split at h <;> cases h
  · exact isOf_exact_ofSurd (Surd.reduced_mul _ _)

theorem MafStep.keeps_sum {par : Config.Params} {wt : List Value} {o : Osc} {m m' : Maf} {i : Instr}
    (h : MafStep par wt o m i m') (hn : par.num = .exact) (hw : i.wellFormed .exact = true) (hm : MafSum m) : MafSum m' := by
  cases h with
  | update _ h =>
    rw [hn] at h
    exact mafUpdate_keeps_sum h (isOf_operand hw (List.mem_singleton_self _)) hm
  | demod _ _ hp h =>
    rw [hn] at h hp
    exact mafUpdate_keeps_sum h (isOf_mul_exact_of_finite hp) hm
  | cutoff _ _ _ => exact hm

theorem exec_keeps_sum {i : Instr} {s t : State} (hn : s.par.num = .exact) (hw : i.wellFormed s.par.num = true)
    (h : exec i s = .next t) (hm : MafSum s.maf) : MafSum t.maf := by
  rw [hn] at hw
  exact (exec_commandStep h).maf.elim (fun he => he ▸ hm) fun hst => hst.keeps_sum hn hw hm

theorem afterReset_sum (c : Config.Record) (s : State) : MafSum (afterReset c s).maf := by
  refine ⟨fun v hv => List.eq_of_mem_replicate hv ▸ isOf_zero _, isOf_zero _, ?_⟩
  simp [afterReset, mafAtReset]

/-- Settles O27: a filter update changes the sum as it changes the one entry, and reset clears both. -/
theorem stepKeepsRunningSum : Obligations.StepKeepsRunningSum := by
  intro s t hn hs h
  have ht : t.par.num = .exact := by rw [step_par h, hn]
  have key := step_keeps_halted_or (B := fun s => s.par.num = .exact → MafSum s.maf) (fun _ _ _ hs => hs)
    (fun c s _ _ _ _ => afterReset_sum c s)
    (fun hw h hs hn =>
      have hn := (exec_commandStep h).par ▸ hn
      exec_keeps_sum hn hw h (hs hn))
    (hs.imp_right fun hm _ => hm) h
  exact key.imp_right fun hm => hm ht

/-! ## STATUS -/

theorem statusLegal_statusWord {s : State} {c : Cause} {info : BitVec 16} (hc : c ≠ .none)
    (h : s.status = statusWord c info) : StatusLegal s :=
  .inr ⟨c, info, hc, h⟩

theorem exec_keeps_statusLegal {i : Instr} {s t : State} (hs : StatusLegal s) (h : exec i s = .next t) :
    StatusLegal t := by
  rcases exec_next h with ⟨-, rfl⟩ | ⟨-, d, hd, rfl⟩ | ⟨-, c, hc, rfl⟩
  · exact hs
  · unfold StatusLegal
    rwa [answerOk_status, (effect_frame hd).2.1]
  · exact statusLegal_statusWord (by rcases hc with rfl | rfl <;> decide) (raiseBy_status _ _ _)

/-- Settles O10: a step leaves STATUS alone, clears it by a reset, or writes the word of a raised cause. -/
theorem stepKeepsStatusLegal : Obligations.StepKeepsStatusLegal := by
  intro s t hs h
  rcases step_next h with ⟨-, rfl⟩ | ⟨rest, -, rfl⟩ | ⟨c, rest, -, -, -, rfl⟩ | ⟨a, w, ops, rest, e, -, -, rfl⟩ |
    ⟨a, w, ops, rest, i, -, -, -, he⟩
  · exact hs
  · unfold deadlineOverrun
    split
    · exact hs
    · exact statusLegal_statusWord (c := .deadlineOverrun) (by decide) rfl
  · unfold applyReset
    split
    · exact .inl rfl
    · exact statusLegal_statusWord (c := .configError) (by decide) rfl
  · split
    · exact hs
    · exact statusLegal_statusWord (c := .illegalCommand) (by decide) rfl
  · exact exec_keeps_statusLegal (s := { s with pending := rest }) hs he

theorem statusWord_bits_1_3 (c : Cause) (info : BitVec 16) : (statusWord c info).extractLsb' 1 3 = 0 := by
  rw [statusWord, BitVec.extractLsb'_append_eq_of_le (by decide), BitVec.extractLsb'_append_eq_right]
  rfl

@[simp] theorem statusWord_cause (c : Cause) (info : BitVec 16) : (statusWord c info).extractLsb' 4 4 = c.code := by
  rw [statusWord, BitVec.extractLsb'_append_eq_of_le (by decide), BitVec.extractLsb'_append_eq_of_le (by decide),
    BitVec.extractLsb'_append_eq_right]

theorem statusWord_bits_8_15 (c : Cause) (info : BitVec 16) : (statusWord c info).extractLsb' 8 8 = 0 := by
  rw [statusWord, BitVec.extractLsb'_append_eq_of_le (by decide), BitVec.extractLsb'_append_eq_of_le (by decide),
    BitVec.extractLsb'_append_eq_of_le (by decide), BitVec.extractLsb'_append_eq_right]
  rfl

@[simp] theorem statusWord_info (c : Cause) (info : BitVec 16) : (statusWord c info).extractLsb' 16 16 = info := by
  rw [statusWord, BitVec.extractLsb'_append_eq_of_le (by decide), BitVec.extractLsb'_append_eq_of_le (by decide),
    BitVec.extractLsb'_append_eq_of_le (by decide), BitVec.extractLsb'_append_eq_left]

/-- Settles O9: each field is cut out of the concatenation that R66 lays out. -/
theorem statusLayout : Obligations.StatusLayout := by
  intro c info
  refine ⟨statusWord_bit0 c info, statusWord_bits_1_3 c info, ?_, statusWord_bits_8_15 c info, statusWord_info c info⟩
  rw [statusWord_cause]
  cases c <;> rfl

end Sys2Proof.Machine
end

section
/-! PROOFS. What a reset whose checks pass leaves (R70, R342), and the frames of a command: the components it leaves alone and the
registers that only their setters write (R34, R60). -/

namespace Sys2Proof.Machine

open Sys2Proof Sys2Proof.Claims

/-! ## Reset -/

/-- The step that takes a reset whose checks pass. -/
theorem step_reset {s : State} {c : Config.Record} {rest : List PortEvent} (hp : s.pending = .reset c :: rest)
    (ht : s.par.wellFormed = true) (hc : c.wellFormed s.par.num = true) (h : firstFailedCheck s.par c = none) :
    step s = .next (afterReset c { s with pending := rest }) := by
  simp [step, hp, platformReset, ht, hc, applyReset, h]

/-- The step that `detuneOf` gives is that of R168. -/
theorem detuneIs_of_detuneOf {fmt : NumFormat} {phi seen : Value} {W : Nat} {n : Int} (hphi : isOf fmt phi = true)
    (hseen : isOf fmt seen = true) (h : detuneOf fmt phi seen W = some n) : DetuneIs fmt phi seen W n := by
  cases fmt with
  | exact =>
    simp only [detuneOf, Option.some.injEq] at h
    subst h
    have hx : (Value.mul .exact (Value.sub .exact phi seen) (toNum .exact (2 ^ W : Nat))).real =
        (phi.real - seen.real) * 2 ^ W := by
      rw [real_mul_exact (isOf_sub hphi hseen) (isOf_toNum _ _), real_sub_exact hphi hseen]
      simp
    rw [DetuneIs, ← hx, abs_sub_comm]
    exact roundOverHalfPi_near _
  | ieee f =>
    simp only [detuneOf] at h
    split at h
    · exact (Option.some.inj h).symm
    · cases h

theorem oscAtReset_detune {par : Config.Params} {c : Config.Record} (h : firstFailedCheck par c = none)
    (hc : c.wellFormed par.num = true) :
    DetuneIs par.num c.oscPhase (.fin 0) c.oscW (oscAtReset par.num c).detune := by
  have h7 : (detuneOf par.num c.oscPhase (.fin 0) c.oscW).isSome = true := firstFailedCheck_none h 7 (by decide)
  obtain ⟨n, hn⟩ := Option.isSome_iff_exists.mp h7
  have hphase : isOf par.num c.oscPhase = true := by
    simp only [Config.Record.wellFormed, List.all_cons, Bool.and_eq_true] at hc
    obtain ⟨⟨⟨-, -, -, hphase, -⟩, -⟩, -⟩ := hc
    exact hphase
  simpa only [oscAtReset, hn, Option.getD_some] using detuneIs_of_detuneOf hphase (isOf_zero _) hn

theorem pidAtReset_resetTo (fmt : NumFormat) (r : Config.PidRecord) : PidResetTo fmt r (pidAtReset fmt r) :=
  ⟨rfl, rfl, rfl, rfl, rfl, rfl, rfl, rfl, rfl, rfl, rfl, rfl, rfl, rfl, rfl, rfl, rfl⟩

/-- Settles O12: the checks 7, 9 and 16 make the detuning step, the window and `countlim` those of the formulas. -/
theorem resetGivesTheTabledValues : Obligations.ResetGivesTheTabledValues := by
  intro s c rest hp ht hc h
  obtain ⟨-, -, hN, -⟩ := reset_window h
  have hlim := reset_countlim h
  refine ⟨_, step_reset hp ht hc h, rfl, rfl, rfl, rfl, ?_, ?_, pidAtReset_resetTo _ _, pidAtReset_resetTo _ _, ?_⟩
  · exact ⟨rfl, rfl, rfl, rfl, rfl, rfl, rfl, rfl, rfl, rfl, oscAtReset_detune h hc⟩
  · exact ⟨rfl, rfl, rfl, rfl, rfl, Int.toNat_of_nonneg (zero_le_one.trans hN)⟩
  · exact ⟨rfl, Int.toNat_of_nonneg (zero_le_one.trans hlim), rfl⟩

/-! ## Components -/

theorem OscStep.opcode {fmt : NumFormat} {wt : List Value} {o o' : Osc} {i : Instr} (h : OscStep fmt wt o i o') :
    i.opcode ∈ [.oscAdvance, .oscSetEnable, .oscSetPhase, .liaDemod, .clStep] := by
  cases h with
  | advance hi _ =>
    have hsub : ([.oscAdvance, .liaDemod, .clStep] : List Opcode) ⊆
        [.oscAdvance, .oscSetEnable, .oscSetPhase, .liaDemod, .clStep] := by decide
    exact hsub hi
  | enable en => simp [Instr.opcode]
  | phase _ _ => simp [Instr.opcode]

theorem MafStep.opcode {par : Config.Params} {wt : List Value} {o : Osc} {m m' : Maf} {i : Instr}
    (h : MafStep par wt o m i m') : i.opcode ∈ [.mafUpdate, .mafSetCutoff, .liaDemod, .clStep] := by
  cases h with
  | update _ _ => simp [Instr.opcode]
  | demod hi _ _ _ => rcases hi with rfl | rfl <;> simp [Instr.opcode]
  | cutoff _ _ _ => simp [Instr.opcode]

theorem LoopStep.opcode {s : State} {i : Instr} {l : Loop} (h : LoopStep s i l) : i.opcode = .clStep := by
  cases h <;> rfl

/-- Settles O49: a component that changes has made a step of its own, which no other command makes. -/
theorem commandsTouchOnlyTheirComponents : Obligations.CommandsTouchOnlyTheirComponents := by
  intro i s t h
  have hc := exec_commandStep h
  refine ⟨hc.par, hc.wt, hc.pending, hc.free, fun hi => hc.osc.resolve_right fun ho => hi ho.opcode,
    fun hi => hc.maf.resolve_right fun hm => hi hm.opcode, ?_, fun hi => hc.loop.resolve_right fun hl => hi hl.opcode, ?_⟩
  · intro sel hcl hrun hen hdis hhold hreset hp hx hd hgains hts
    refine (hc.pid sel).resolve_right fun hs => ?_
    generalize t.pid sel = P' at hs
    cases hs with
    | run hi _ => exact hi.elim (fun hi => hrun _ hi) fun hi => hcl (by rw [hi]; rfl)
    | enable => exact hen rfl
    | disable => exact hdis rfl
    | hold => exact hhold rfl
    | reset => exact hreset rfl
    | gains hi _ =>
      cases hi with
      | p _ => exact hp _ rfl
      | i _ => exact hx _ rfl
      | d _ => exact hd _ rfl
      | gains _ _ _ => exact hgains _ _ _ rfl
      | ts _ _ => exact hts _ rfl
  · intro ht
    obtain ⟨-, d, hd, rfl⟩ := exec_completed h ht
    rw [answerOk_status, (effect_frame hd).2.1]

/-! ## Runtime registers -/

theorem OscStep.registers {fmt : NumFormat} {wt : List Value} {o o' : Osc} {i : Instr} (h : OscStep fmt wt o i o') :
    (i.opcode ≠ .oscSetEnable → o'.en = o.en) ∧
      (i.opcode ≠ .oscSetPhase → o'.phaseCfg = o.phaseCfg ∧ o'.detune = o.detune) := by
  cases h with
  | advance _ h =>
    obtain ⟨hen, -, -, hphase, -, -, -, hdetune⟩ := oscAdvance_keeps h
    exact ⟨fun _ => hen, fun _ => ⟨hphase, hdetune⟩⟩
  | enable en => exact ⟨fun hi => absurd rfl hi, fun _ => ⟨rfl, rfl⟩⟩
  | phase _ _ => exact ⟨fun _ => rfl, fun hi => absurd rfl hi⟩

theorem MafStep.cutoff_eq {par : Config.Params} {wt : List Value} {o : Osc} {m m' : Maf} {i : Instr}
    (h : MafStep par wt o m i m') (hi : i.opcode ≠ .mafSetCutoff) : m'.fc = m.fc := by
  cases h with
  | update _ h => exact (mafUpdate_keeps h).2.1
  | demod _ _ _ h => exact (mafUpdate_keeps h).2.1
  | cutoff _ _ _ => exact absurd rfl hi

/-- The registers of a controller that the command `c` does not set are the same. -/
structure SameRegisters (c : Instr) (P P' : Pid) : Prop where
  p : c.opcode ∉ [.pidSetP, .pidSetGains] → P'.p = P.p
  i : c.opcode ∉ [.pidSetI, .pidSetGains] → P'.i = P.i
  d : c.opcode ∉ [.pidSetD, .pidSetGains] → P'.d = P.d
  Ts : c.opcode ≠ .pidSetTs → P'.Ts = P.Ts
  coef : c.opcode ∉ [.pidSetP, .pidSetI, .pidSetD, .pidSetGains, .pidSetTs] → P'.coef = P.coef ∧ P'.ac = P.ac
  fsm : c.opcode ∉ [.pidEnable, .pidDisable, .pidHold] → P'.fsm = P.fsm ∧ P'.frozen = P.frozen

theorem SameRegisters.refl (c : Instr) (P : Pid) : SameRegisters c P P :=
  ⟨fun _ => rfl, fun _ => rfl, fun _ => rfl, fun _ => rfl, fun _ => ⟨rfl, rfl⟩, fun _ => ⟨rfl, rfl⟩⟩

/-- An event writes the state machine's registers and the delay sets only (R228). -/
theorem pidEvent_sameRegisters {c : Instr} {P : Pid} (ev : PidEvent)
    (hfsm : c.opcode ∉ [.pidEnable, .pidDisable, .pidHold] →
      (pidEvent ev P).fsm = P.fsm ∧ (pidEvent ev P).frozen = P.frozen) :
    SameRegisters c P (pidEvent ev P) := by
  obtain ⟨hTs, hp, hi, hd, -, -, -, -, hcoef, hac, -⟩ := pidEvent_keeps ev P
  exact ⟨fun _ => hp, fun _ => hi, fun _ => hd, fun _ => hTs, fun _ => ⟨hcoef, hac⟩, hfsm⟩

/-- A delay reset leaves the state machine where it is (R229, R233). -/
theorem pidEvent_reset_fsm (P : Pid) :
    (pidEvent .reset P).fsm = P.fsm ∧ (pidEvent .reset P).frozen = P.frozen := by
  cases hf : P.fsm <;> simp [pidEvent, hf, resetDelay]

/-- A setter's recomputation (R238) comes with its own gains only. -/
theorem SetsGains.sameRegisters {fmt : NumFormat} {sel : Sel} {P : Pid} {c : Instr} {p x d ts : Value}
    (h : SetsGains sel P c p x d ts) :
    SameRegisters c P { recomputed fmt P p x d ts with p := p, i := x, d := d, Ts := ts } := by
  cases h <;> constructor <;> simp [Instr.opcode, recomputed]

theorem PidStep.sameRegisters {fmt : NumFormat} {sel : Sel} {P P' : Pid} {c : Instr} (h : PidStep fmt sel P c P') :
    SameRegisters c P P' := by
  cases h with
  | run _ h =>
    obtain ⟨hTs, hp, hi, hd, -, -, -, -, hcoef, hac, -, hfsm, hfrozen⟩ := pidRun_keeps h
    exact ⟨fun _ => hp, fun _ => hi, fun _ => hd, fun _ => hTs, fun _ => ⟨hcoef, hac⟩, fun _ => ⟨hfsm, hfrozen⟩⟩
  | reset => exact pidEvent_sameRegisters .reset fun _ => pidEvent_reset_fsm P
  | enable => exact pidEvent_sameRegisters .enable fun hc => absurd (by simp [Instr.opcode]) hc
  | disable => exact pidEvent_sameRegisters .disable fun hc => absurd (by simp [Instr.opcode]) hc
  | hold => exact pidEvent_sameRegisters .hold fun hc => absurd (by simp [Instr.opcode]) hc
  | gains hi _ => exact hi.sameRegisters

/-- Settles O51: no step of a component writes a register but that of the register's setters. -/
theorem runtimeRegistersChangeByTheirSettersOnly : Obligations.RuntimeRegistersChangeByTheirSettersOnly := by
  intro i s t sel h
  have hc := exec_commandStep h
  have hosc : (i.opcode ≠ .oscSetEnable → t.osc.en = s.osc.en) ∧
      (i.opcode ≠ .oscSetPhase → t.osc.phaseCfg = s.osc.phaseCfg ∧ t.osc.detune = s.osc.detune) :=
    hc.osc.elim (fun he => by simp [he]) OscStep.registers
  have hmaf : i.opcode ≠ .mafSetCutoff → t.maf.fc = s.maf.fc :=
    hc.maf.elim (fun he _ => by rw [he]) MafStep.cutoff_eq
  have hpid : SameRegisters i (s.pid sel) (t.pid sel) :=
    (hc.pid sel).elim (fun he => he ▸ .refl i _) PidStep.sameRegisters
  exact ⟨hosc.1, hosc.2, hmaf, hpid.p, hpid.i, hpid.d, hpid.Ts, hpid.coef, hpid.fsm⟩

end Sys2Proof.Machine
end

section
/-! PROOFS. The block's memory: the elements that interpolation reads (R82, R141), the one element of BUF that a filter update stores to
(R83, R190), and that no step from a state in range stops with a fault. -/

namespace Sys2Proof.Machine

open Sys2Proof Sys2Proof.Claims Sys2Proof.Safety

/-! ## Interpolation -/

/-- What `interp` returns is what R141 writes. -/
theorem interp_eq_ok_iff {fmt : NumFormat} {wt : List Value} {x v : Value} :
    interp fmt wt x = .ok v ↔ InterpIs fmt wt x v := by
  constructor
  · intro h
    rcases interp_ok h with h | ⟨h0, h1, a, b, ha, hb, rfl⟩ | ⟨h0, h1, a, b, ha, hb, rfl⟩
    · exact .inl h
    · obtain ⟨hi, ha⟩ := memRead_ok.mp ha
      obtain ⟨-, hb⟩ := memRead_ok.mp hb
      rw [Int.toNat_add hi zero_le_one] at hb
      exact .inr (.inl ⟨h0, h1, hi, a, b, ha, hb, rfl⟩)
    · exact .inr (.inr ⟨h0, h1, a, b, (memRead_ok.mp ha).2, (memRead_ok.mp hb).2, rfl⟩)
  · rintro (⟨h0, rfl⟩ | ⟨h0, h1, hi, a, b, ha, hb, rfl⟩ | ⟨h0, h1, a, b, ha, hb, rfl⟩)
    · exact interp_negative h0
    · refine interp_inside h0 h1 (memRead_ok.mpr ⟨hi, ha⟩) (memRead_ok.mpr ⟨by omega, ?_⟩)
      rwa [Int.toNat_add hi zero_le_one]
    · exact interp_boundary h0 h1 (memRead_ok.mpr ⟨by decide, ha⟩) (memRead_ok.mpr ⟨le_refl _, hb⟩)

/-- An interpolation that stops has read outside the table. -/
theorem interp_error {fmt : NumFormat} {wt : List Value} {x : Value} {e : Stop} (h : interp fmt wt x = .error e) :
    e = .departed .indexOutOfRange := by
  have reads {i j : Int} {g : Value → Value → Value}
      (h : (do let a ← memRead wt i; let b ← memRead wt j; return g a b) = .error e) : e = .departed .indexOutOfRange := by
    rcases bind_error.mp h with h | ⟨a, -, h⟩
    · exact (memRead_error.mp h).2
    · rcases bind_error.mp h with h | ⟨b, -, h⟩
      · exact (memRead_error.mp h).2
      · cases h
  unfold interp at h
  split at h
  · cases h
  · split at h
    · exact reads h
    · exact reads h

/-- In a table of `L` entries every position has its interpolation. -/
theorem exists_interp {fmt : NumFormat} {wt : List Value} {x : Value} (hl : wt.length = Config.L) :
    ∃ v, interp fmt wt x = .ok v := by
  cases h : interp fmt wt x with
  | ok v => exact ⟨v, rfl⟩
  | error e =>
    obtain rfl := interp_error h
    exact absurd h (stays_interp hl _)

/-- Settles O16: `interp` is R141's relation, it reads inside a full table only, and it is a function. -/
theorem interpolationStaysInTheTable : Obligations.InterpolationStaysInTheTable := by
  intro fmt wt x hl _
  obtain ⟨v, hv⟩ := exists_interp (fmt := fmt) (x := x) hl
  refine ⟨v, interp_eq_ok_iff.mp hv, hv, fun v' hv' => ?_⟩
  have he : Except.ok v' = Except.ok v := (interp_eq_ok_iff.mpr hv').symm.trans hv
  exact Except.ok.inj he

/-! ## The filter's buffer -/

/-- Whatever a command does to the filter, it stores to the element at the cursor at most (R83, R190). -/
theorem MafStep.buffer {par : Config.Params} {wt : List Value} {o : Osc} {m m' : Maf} {i : Instr}
    (h : MafStep par wt o m i m') :
    m'.buf.length = m.buf.length ∧ ∀ k : Int, k ≠ m.cur → memRead m'.buf k = memRead m.buf k := by
  cases h with
  | update _ h =>
    obtain ⟨-, -, hlen, -, hother⟩ := mafUpdate_keeps h
    exact ⟨hlen, hother⟩
  | demod _ _ _ h =>
    obtain ⟨-, -, hlen, -, hother⟩ := mafUpdate_keeps h
    exact ⟨hlen, hother⟩
  | cutoff _ _ _ => exact ⟨rfl, fun _ _ => rfl⟩

/-- Only a command with a filter update stores to the buffer. -/
theorem MafStep.buf_eq {par : Config.Params} {wt : List Value} {o : Osc} {m m' : Maf} {i : Instr}
    (h : MafStep par wt o m i m') (hi : i.opcode ∉ [.mafUpdate, .liaDemod, .clStep]) : m'.buf = m.buf := by
  cases h with
  | update _ _ => exact absurd (by simp [Instr.opcode]) hi
  | demod hd _ _ _ => exact absurd (by rcases hd with rfl | rfl <;> simp [Instr.opcode]) hi
  | cutoff _ _ _ => rfl

/-- Settles O53: the filter is left alone or makes a step of its own, and a completed MAF_UPDATE stores its operand. -/
theorem bufferChangesAtTheCursorOnly : Obligations.BufferChangesAtTheCursorOnly := by
  intro i s t k h
  have hmaf := (exec_commandStep h).maf
  refine ⟨?_, fun hi => ?_, fun hk => ?_, ?_⟩
  · exact hmaf.elim (fun he => by rw [he]) fun hm => hm.buffer.1
  · exact hmaf.elim (fun he => by rw [he]) fun hm => by rw [hm.buf_eq hi]
  · exact hmaf.elim (fun he => by rw [he]) fun hm => hm.buffer.2 k hk
  · rintro x rfl ht
    obtain ⟨-, d, ⟨-, m, y, hm, rfl⟩, rfl⟩ := exec_completed h ht
    obtain ⟨-, -, -, hstored, -⟩ := mafUpdate_keeps hm
    exact hstored

/-! ## Steps -/

/-- A step on a command issues it. -/
theorem step_command {s : State} {a : Agent} {w : CmdWord} {ops : List Value} {rest : List PortEvent}
    (hp : s.pending = .command a w ops :: rest) : step s = issue w ops { s with pending := rest } := by
  rw [step, hp]

/-- A transaction that decodes to a well-formed instruction runs it. -/
theorem issue_of_decode {s : State} {w : CmdWord} {ops : List Value} {i : Instr} (hd : decode w ops = .ok i)
    (hw : i.wellFormed s.par.num = true) : issue w ops s = exec i s := by
  simp [issue, hd, hw]

/-- Settles O5, by the branch of the decoder that accepts. -/
theorem stepRunsTheDecodedInstruction : Obligations.StepRunsTheDecodedInstruction := by
  intro s a w ops rest i hp hd hw
  exact (step_command hp).trans (issue_of_decode hd hw)

/-! ## No departure from the rules -/

/-- Only a command that decodes can stop a step with a fault. -/
theorem step_fault {s : State} {f : Fault} (h : step s = .fault f) :
    ∃ (i : Instr) (rest : List PortEvent), exec i { s with pending := rest } = .fault f := by
  unfold step at h
  split at h
  · cases h
  · next a w ops rest _ =>
    unfold issue at h
    split at h
    · cases (transact_fault h).2
    · next i _ =>
      split at h
      · exact ⟨i, rest, h⟩
      · cases h
  · cases h
  · unfold platformReset at h
    split at h
    · cases h
    · split at h <;> cases h

theorem stays_raise {α : Type} (c : Cause) : Stays (.error (.raise c) : Except Stop α) := by
  intro f h
  cases h

/-- In a block in range the body of every command stays within the rules. -/
theorem exec_body_stays (i : Instr) {s : State} (hs : BlockInRange s) :
    ∃ body, exec i s = transact i.word s body ∧ Stays body := by
  obtain ⟨-, hlen, hosc, hmaf, -, -, -⟩ := hs
  cases i with
  | nop | oscSetEnable | pidEnable | pidDisable | pidHold | pidReset | pidIsLimited => exact ⟨_, rfl, stays_ok _⟩
  | wtInterp x =>
    exact ⟨_, rfl, stays_bind (stays_requireFinite _) fun _ => stays_bind (stays_interp hlen) fun _ =>
      stays_bind (stays_requireFinite _) fun _ => stays_ok _⟩
  | oscAdvance => exact ⟨_, rfl, stays_bind (stays_oscAdvance hlen hosc) fun _ => stays_ok _⟩
  | oscSetPhase phi =>
    refine ⟨_, rfl, stays_bind (stays_requireFinite _) fun _ => ?_⟩
    split
    · exact stays_raise _
    · exact stays_ok _
  | mafUpdate x =>
    exact ⟨_, rfl, stays_bind (stays_requireFinite _) fun _ => stays_bind (stays_mafUpdate hmaf) fun _ => stays_ok _⟩
  | mafSetCutoff fc =>
    exact ⟨_, rfl, stays_bind (stays_requireFinite _) fun _ => stays_bind (stays_require _ _) fun _ =>
      stays_bind (stays_require _ _) fun _ => stays_ok _⟩
  | liaDemod e => exact ⟨_, rfl, stays_bind (stays_liaDemod hlen hosc hmaf) fun _ => stays_ok _⟩
  | pidRun sel e => exact ⟨_, rfl, stays_bind (stays_pidRun _ _ _) fun _ => stays_ok _⟩
  | pidSetP | pidSetI | pidSetD =>
    exact ⟨_, rfl, stays_bind (stays_requireFinite _) fun _ => stays_bind (stays_recomputeCoef _ _ _ _ _ _) fun _ =>
      stays_ok _⟩
  | pidSetGains sel p x d =>
    exact ⟨_, rfl, stays_bind (stays_requireFinite _) fun _ => stays_bind (stays_requireFinite _) fun _ =>
      stays_bind (stays_requireFinite _) fun _ => stays_bind (stays_recomputeCoef _ _ _ _ _ _) fun _ => stays_ok _⟩
  | pidSetTs sel ts =>
    exact ⟨_, rfl, stays_bind (stays_requireFinite _) fun _ => stays_bind (stays_require _ _) fun _ =>
      stays_bind (stays_recomputeCoef _ _ _ _ _ _) fun _ => stays_ok _⟩
  | clStep e =>
    refine ⟨_, rfl, stays_bind (stays_requireFinite _) fun _ => stays_bind (stays_liaDemod hlen hosc hmaf) fun _ =>
      stays_bind (stays_pidRun _ _ _) fun _ => ?_⟩
    dsimp only
    split
    · exact stays_bind (stays_pidRun _ _ _) fun _ => stays_ok _
    · exact stays_ok _

theorem exec_ne_fault {i : Instr} {s : State} (hs : BlockInRange s) (f : Fault) : exec i s ≠ .fault f := by
  obtain ⟨body, he, hb⟩ := exec_body_stays i hs
  rw [he]
  exact transact_stays hb f

/-- Settles O55: a halted block runs no command, and in a block in range no command departs from the rules. -/
theorem stepNeverDepartsFromTheRules : Obligations.StepNeverDepartsFromTheRules := by
  intro s hs f h
  obtain ⟨i, rest, he⟩ := step_fault h
  rcases hs with hh | hr
  · cases (exec_halted (s := { s with pending := rest }) hh).symm.trans he
  · exact exec_ne_fault (s := { s with pending := rest }) hr f he

end Sys2Proof.Machine
end

section
/-! PROOFS. Encoding (spec/30_encoding.md): decoding and encoding are inverse to each other, and what the decoder rejects is what R107
and R108 call malformed. -/

namespace Sys2Proof

open Machine Claims

/-! ## Decoding inverts encoding (R100 to R106) -/

/-- The decoder assembles the row it has found with the bit `B`. -/
theorem decode_eq_ok {w : CmdWord} {ops : List Value} {i : Instr} :
    decode w ops = .ok i ↔ ∃ r b, decodeWord w = .ok (r, b) ∧ assemble r.op b ops = some i := by
  unfold decode
  split
  · next e he => simp [he]
  · next r b hr =>
    simp only [hr, Except.ok.injEq, Prod.mk.injEq]
    cases ha : assemble r.op b ops <;> simp [ha]

/-- An instruction's transaction decodes to it. -/
theorem decode_encode (i : Instr) : decode i.word i.operands = .ok i :=
  decode_eq_ok.mpr ⟨_, _, decodeWord_word i, by rw [row_op]; exact assemble_self i⟩

/-- What decodes to an instruction is its transaction: in format P both bits `B` are 0, elsewhere the instruction keeps the word's. -/
theorem encode_of_decode {w : CmdWord} {ops : List Value} {i : Instr} (h : decode w ops = .ok i) :
    i.word = w ∧ i.operands = ops := by
  obtain ⟨r, b, hw, ha⟩ := decode_eq_ok.mp h
  obtain ⟨hr, rfl, hplain⟩ := decodeWord_ok hw
  obtain ⟨hop, hops, hb⟩ := assemble_some ha
  have hbit : i.bBit = b := by
    rcases hb with hb | hf
    · exact hb
    · rw [bBit_plain (hop ▸ hf), hplain (row_unique hr ▸ hf)]
  exact ⟨by rw [Instr.word, hbit, hop], hops⟩

theorem decode_eq_ok_iff_encode {w : CmdWord} {ops : List Value} {i : Instr} :
    decode w ops = .ok i ↔ i.word = w ∧ i.operands = ops := by
  constructor
  · exact encode_of_decode
  · rintro ⟨rfl, rfl⟩
    exact decode_encode i

/-- Settles O2: the decoder inverts the encoder on each instruction, and it accepts nothing else. -/
theorem decodeInvertsEncode : Obligations.DecodeInvertsEncode := fun _ _ _ => decode_eq_ok_iff_encode

/-- Settles O1: each of the words is its command's, and with the command's operands it decodes to the command. -/
theorem specWordsDecode : Obligations.SpecWordsDecode := by
  intro x y z
  simp only [decode_eq_ok_iff_encode]
  simp [Instr.word, Instr.opcode, Opcode.code, Instr.bBit, Sel.bit, Instr.operands]

/-! ## Malformed transactions (R107, R108) -/

/-- The opcodes without a row are the reserved ones (R107 b). -/
theorem rowOf_eq_none {c : BitVec 8} : rowOf c = none ↔ ReservedOpcode c.toNat := by
  have := c.isLt
  simp only [rowOf, opcodeTable, List.find?_eq_none, List.forall_mem_cons, List.not_mem_nil, false_imp_iff, implies_true, and_true,
    beq_iff_eq, BitVec.toNat_eq, BitVec.ofNat_eq_ofNat, BitVec.toNat_ofNat, ReservedOpcode]
  omega

theorem plainOpcode_iff_format {r : OpcodeRow} (hr : r ∈ opcodeTable) : PlainOpcode r.opc.toNat ↔ r.format = .plain := by
  unfold PlainOpcode
  revert r
  decide

theorem operandCount_opc {r : OpcodeRow} (hr : r ∈ opcodeTable) : operandCount r.opc.toNat = r.operands := by
  unfold operandCount
  revert r
  decide

theorem rowOf_some {c : BitVec 8} {r : OpcodeRow} (h : rowOf c = some r) : r ∈ opcodeTable ∧ r.opc = c :=
  ⟨List.mem_of_find?_eq_some h, by simpa using List.find?_some h⟩

/-- The decoder accepts a word without reserved bits whose row allows its bit `B` (R106). -/
theorem decodeWord_eq_ok {w : CmdWord} {r : OpcodeRow} {b : Bool} :
    decodeWord w = .ok (r, b) ↔ w.rsv = 0 ∧ rowOf w.opc = some r ∧ ¬ (r.format = .plain ∧ w.b = true) ∧ w.b = b := by
  unfold decodeWord
  split
  · next h0 =>
    split
    · next hr => simp [hr]
    · next r' hr =>
      split
      · next hp =>
        refine iff_of_false nofun ?_
        rintro ⟨-, hr', hn, -⟩
        cases hr.symm.trans hr'
        exact hn hp
      · next hp =>
        constructor
        · rintro ⟨⟩
          exact ⟨h0, hr, hp, rfl⟩
        · rintro ⟨-, hr', -, rfl⟩
          cases hr.symm.trans hr'
          rfl
  · next h0 => exact iff_of_false nofun fun h => h0 h.1

/-- `Malformed` in the fields of the word (R102). -/
theorem malformed_iff {w : CmdWord} {ops : List Value} :
    Malformed w ops ↔ w.rsv ≠ 0 ∨ ReservedOpcode w.opc.toNat ∨ (PlainOpcode w.opc.toNat ∧ w.b = true) ∨
      ops.length ≠ operandCount w.opc.toNat := .rfl

/-- The transactions that no clause of R107 and R108 rejects are an accepted word with its row's number of operands. -/
theorem not_malformed_iff {w : CmdWord} {ops : List Value} :
    ¬ Malformed w ops ↔ ∃ r b, decodeWord w = .ok (r, b) ∧ ops.length = r.operands := by
  simp only [malformed_iff, decodeWord_eq_ok, ← rowOf_eq_none, not_or, not_not]
  cases hr : rowOf w.opc with
  | none => simp
  | some r =>
    obtain ⟨hmem, hopc⟩ := rowOf_some hr
    simp [← hopc, plainOpcode_iff_format hmem, operandCount_opc hmem, and_assoc]

/-- An accepted word decodes with as many operands as its row says, and with no other number. -/
theorem decode_isOk_iff {w : CmdWord} {ops : List Value} :
    (∃ i, decode w ops = .ok i) ↔ ∃ r b, decodeWord w = .ok (r, b) ∧ ops.length = r.operands := by
  have hops {r : OpcodeRow} {b : Bool} (hw : decodeWord w = .ok (r, b)) :
      (∃ i, assemble r.op b ops = some i) ↔ ops.length = r.operands := by
    rw [row_unique (decodeWord_ok hw).1, row_op, ← Option.isSome_iff_exists]
    exact assemble_isSome _ b ops
  constructor
  · rintro ⟨i, hi⟩
    obtain ⟨r, b, hw, ha⟩ := decode_eq_ok.mp hi
    exact ⟨r, b, hw, (hops hw).mp ⟨i, ha⟩⟩
  · rintro ⟨r, b, hw, hlen⟩
    obtain ⟨i, ha⟩ := (hops hw).mpr hlen
    exact ⟨i, decode_eq_ok.mpr ⟨r, b, hw, ha⟩⟩

theorem not_malformed_iff_decodes {w : CmdWord} {ops : List Value} : ¬ Malformed w ops ↔ ∃ i, decode w ops = .ok i :=
  not_malformed_iff.trans decode_isOk_iff.symm

/-- Settles O3: the decoder finds the row of a legal word, and the operands are as many as the row says. -/
theorem wellFormedTransactionsDecode : Obligations.WellFormedTransactionsDecode := fun _ _ => not_malformed_iff_decodes.mp

/-- A malformed transaction that is issued to a block not halted raises ILLEGAL_COMMAND (R302). -/
theorem issue_malformed {s : State} {w : CmdWord} {ops : List Value} (hs : s.halted = false) (hm : Malformed w ops) :
    issue w ops s = .next (faulted .illegalCommand w s) := by
  cases hd : decode w ops with
  | ok i => exact absurd hm (not_malformed_iff_decodes.mpr ⟨i, hd⟩)
  | error e =>
    rw [issue, hd]
    exact transact_raise w s .illegalCommand hs

/-- Settles O4: the decoder rejects a malformed transaction, and the step answers with the fault. -/
theorem malformedCommandRaisesIllegalCommand : Obligations.MalformedCommandRaisesIllegalCommand := by
  intro s a w ops rest hp hs hm
  exact (step_command hp).trans (issue_malformed hs hm)

end Sys2Proof
end

section
/-! PROOFS. The wave table (spec/40_wavetable.md): what WT_INTERP answers (R142), and the interpolation at integer positions and below
0 (R143). -/

namespace Sys2Proof

/-! ## Zero in the NUM arithmetic -/

theorem Surd.scale_rat_zero {n : Nat} (z : Surd n) : Surd.scale 0 z = .rat 0 :=
  Surd.real_injective (Surd.reduced_scale 0 z) rfl (by simp)

theorem Surd.add_rat_zero {n : Nat} {z : Surd n} (hz : z.reduced = true) : z.add (.rat 0) = z :=
  Surd.real_injective (Surd.reduced_add _ _) hz (by simp)

/-- A finite value of NUM is a number in its reduced form. -/
theorem reduced_exact {fmt : NumFormat} {x : Value} (hx : isOf fmt x = true) (hf : x.isFinite = true) :
    x.exact.reduced = true := by
  cases x with
  | fin q => rfl
  | surd z =>
    cases fmt with
    | exact => exact (Bool.and_eq_true_iff.mp hx).1
    | ieee f => cases hx
  | negZero => rfl
  | inf s => cases hf
  | nan => cases hf

theorem rnd_zero (fmt : NumFormat) (neg : Bool) : rnd fmt neg (.rat 0) = .fin 0 ∨ rnd fmt neg (.rat 0) = .negZero := by
  cases fmt with
  | exact => exact .inl rfl
  | ieee f => cases neg <;> simp [rnd, roundIeee_zero]

/-- Zero times a finite value is a zero of either sign (R17). -/
theorem mul_zero_left (fmt : NumFormat) {y : Value} (hy : y.isFinite = true) :
    Value.mul fmt (.fin 0) y = .fin 0 ∨ Value.mul fmt (.fin 0) y = .negZero := by
  have hm : Value.mul fmt (.fin 0) y = rnd fmt ((Value.fin 0).negative != y.negative) (Surd.mul (.rat 0) y.exact) := by
    cases y with
    | fin _ | surd _ | negZero => rfl
    | inf _ | nan => cases hy
  rw [hm, Surd.mul_rat_left, Surd.scale_rat_zero]
  exact rnd_zero fmt _

/-- Rounding a finite value of NUM gives an equal one: `-0` becomes `+0`, every other value stays. -/
theorem rnd_exact_eq {fmt : NumFormat} {x : Value} (hx : isOf fmt x = true) (hf : x.isFinite = true) :
    (rnd fmt false x.exact).eq x = true := by
  cases x with
  | fin q => simp [rnd_of_isOf fmt q hx]
  | surd z =>
    cases fmt with
    | exact => exact (eq_of_finite (isFinite_ofSurd z) rfl).mpr (real_ofSurd z)
    | ieee f => cases hx
  | negZero =>
    rw [exact_negZero, rnd_of_isOf fmt 0 (isOf_zero fmt)]
    rfl
  | inf s => cases hf
  | nan => cases hf

/-- A finite value of NUM plus a zero of either sign is equal to it (R17). -/
theorem add_zero_eq {fmt : NumFormat} {x y : Value} (hx : isOf fmt x = true) (hf : x.isFinite = true)
    (hy : y = .fin 0 ∨ y = .negZero) : (Value.add fmt x y).eq x = true := by
  have ha : Value.add fmt x y = rnd fmt false (x.exact.add (.rat 0)) ∨ x = .negZero ∧ Value.add fmt x y = .negZero := by
    cases x with
    | fin _ | surd _ => rcases hy with rfl | rfl <;> exact .inl rfl
    | negZero =>
      rcases hy with rfl | rfl
      · exact .inl rfl
      · exact .inr ⟨rfl, rfl⟩
    | inf _ | nan => cases hf
  rcases ha with ha | ⟨rfl, ha⟩
  · rw [ha, Surd.add_rat_zero (reduced_exact hx hf)]
    exact rnd_exact_eq hx hf
  · rw [ha]
    rfl

theorem sub_self_fin (fmt : NumFormat) (q : Rat) : Value.sub fmt (.fin q) (.fin q) = .fin 0 := by
  have h : Value.sub fmt (.fin q) (.fin q) = rnd fmt false (.rat 0) := by
    by_cases hq : q.num = 0
    · simp [Value.sub, Value.neg, Value.add, Rat.num_eq_zero.mp hq]
    · simp [Value.sub, Value.neg, Value.add, hq]
  rw [h, rnd_of_isOf fmt 0 (isOf_zero fmt)]

namespace Machine

open Claims

/-! ## Integer positions (R143) -/

/-- With the fraction 0 the interpolation formula gives its first entry. -/
theorem slope_zero_eq {fmt : NumFormat} {a b : Value} (ha : isOf fmt a = true) (hf : a.isFinite = true)
    (hd : (Value.sub fmt b a).isFinite = true) : (slope fmt a b (.fin 0)).eq a = true :=
  add_zero_eq ha hf (mul_zero_left fmt hd)

/-- At an integer position the interpolation formula has the fraction 0, between the entry and the next one around the table. -/
theorem interp_natCast {fmt : NumFormat} {wt : List Value} {k : Nat} {a b : Value} (hk : k < Config.L)
    (ha : wt[k]? = some a) (hb : wt[(k + 1) % Config.L]? = some b) :
    interp fmt wt (.fin k) = .ok (slope fmt a b (.fin 0)) := by
  have h0 : (Value.fin k).lt (.fin 0) = false := by simp
  rcases Nat.lt_succ_iff_lt_or_eq.mp hk with hk | rfl
  · have hfloor : (Value.fin k).floor = k := by simp [floor_eq]
    have h1 : (Value.fin k).lt (toNum fmt (Config.L - 1)) = true := by
      rw [toNum_last, lt_fin, decide_eq_true_iff]
      exact_mod_cast hk
    rw [Nat.mod_eq_of_lt (Nat.succ_lt_succ hk)] at hb
    rw [interp_inside h0 h1 (memRead_ok.mpr ⟨by omega, by rwa [hfloor]⟩) (memRead_ok.mpr ⟨by omega, by rwa [hfloor]⟩),
      hfloor, toNum_small fmt k (by omega), sub_self_fin]
  · have h1 : (Value.fin (1023 : Nat)).lt (toNum fmt (Config.L - 1)) = false := by
      rw [toNum_last]
      rfl
    rw [interp_boundary h0 h1 (memRead_ok.mpr ⟨by decide, ha⟩) (memRead_ok.mpr ⟨le_refl _, hb⟩), toNum_last]
    exact congrArg (fun f => Except.ok (slope fmt a b f)) (sub_self_fin fmt 1023)

/-- Settles O17: at an integer position the fraction is 0, and the entry plus 0 times a finite difference is the entry. -/
theorem interpolationMeetsTheTable : Obligations.InterpolationMeetsTheTable := by
  intro fmt wt x
  exact ⟨fun k a b hk ha hb hnum hf hd => ⟨_, interp_natCast hk ha hb, slope_zero_eq hnum hf hd⟩, interp_negative⟩

/-! ## WT_INTERP (R142) -/

theorem requireFinite_of_not_finite {x : Value} (hx : x.isFinite = false) :
    requireFinite x = .error (.raise .numericFault) :=
  requireFinite_error.mpr ⟨hx, rfl⟩

/-- A lookup whose body raises NUMERIC_FAULT halts the block with its word. -/
theorem execWtInterp_fault {s : State} {x : Value} (hs : s.halted = false)
    (h : x.isFinite = false ∨ x.isFinite = true ∧ ∃ v, interp s.par.num s.wt x = .ok v ∧ v.isFinite = false) :
    exec (.wtInterp x) s = .next (faulted .numericFault 0x0001#16 s) := by
  have hbody : exec (.wtInterp x) s = transact 0x0001#16 s (.error (.raise .numericFault)) := by
    rw [exec, execWtInterp, word_wtInterp]
    rcases h with hx | ⟨hx, v, hv, hvf⟩
    · rw [requireFinite_of_not_finite hx, error_bind]
    · have hok : requireFinite x = .ok () := requireFinite_ok.mpr hx
      rw [hok, ok_bind, hv, ok_bind, requireFinite_of_not_finite hvf, error_bind]
  rw [hbody]
  exact transact_raise _ _ _ hs

/-- Settles O15: the body checks its operand, interpolates as R141 writes, and checks the value. -/
theorem wtInterpReturnsTheInterpolation : Obligations.WtInterpReturnsTheInterpolation := by
  intro s x v hs
  refine ⟨fun hx => execWtInterp_fault hs (.inl hx), fun hx hi => ?_⟩
  have hv : interp s.par.num s.wt x = .ok v := interp_eq_ok_iff.mpr hi
  refine ⟨fun hf => ?_, fun hf => execWtInterp_fault hs (.inr ⟨hx, v, hv, hf⟩)⟩
  exact exec_of_effect (i := .wtInterp x) (d := done1 s v) hs ⟨hx, v, hv, hf, rfl⟩

end Machine

end Sys2Proof
end

section
/-! PROOFS. The oscillator (spec/41_oscillator.md): the fold as a loop (R163), what OSC_ADVANCE answers and leaves (R161 to R166, R169),
and the two setters (R167, R168). -/

namespace Sys2Proof.Machine

open Claims

/-! ## The fold (R163) -/

theorem fold_of_pos {W : Nat} {x : Int} (hx : 0 < x) : fold W x = (x - 1) % ((2 ^ W : Nat) - 1) + 1 := by
  unfold fold
  dsimp only
  split
  · rfl
  · rw [if_neg (by omega), Int.emod_eq_of_lt (by omega) (by omega)]
    omega

theorem fold_of_lt {W : Nat} {x : Int} (hx : x < (2 ^ W : Nat) - 1) : fold W x = x % ((2 ^ W : Nat) - 1) := by
  unfold fold
  dsimp only
  rw [if_neg (by omega)]
  split
  · rfl
  · rw [Int.emod_eq_of_lt (by omega) hx]

theorem fold_of_mem {W : Nat} {x : Int} (h0 : 0 ≤ x) (hM : x ≤ (2 ^ W : Nat) - 1) : fold W x = x := by
  rw [fold, if_neg (not_lt.mpr hM), if_neg (not_lt.mpr h0)]

/-- Settles O18: `x` and `x - M` above 0 fold by one remainder, and so do `x` and `x + M` below `M`. -/
theorem foldIsTheLoop : Obligations.FoldIsTheLoop := by
  rintro W x _ hW rfl
  have hp : 1 ≤ 2 ^ W := Nat.one_le_two_pow
  refine ⟨fun h => ?_, fun h => ?_, fold_of_mem, fold_range W hW x⟩
  · rw [fold_of_pos (by omega), fold_of_pos (by omega), sub_right_comm, Int.sub_emod_right]
  · rw [fold_of_lt (by omega), fold_of_lt (by omega), Int.add_emod_right]

/-- The difference of two folded numbers is theirs modulo `M`. -/
theorem fold_sub_fold_mod (W : Nat) (x y : Int) :
    (fold W x - fold W y) % ((2 ^ W : Nat) - 1) = (x - y) % ((2 ^ W : Nat) - 1) :=
  Int.ModEq.sub (fold_mod W x) (fold_mod W y)

/-! ## The advance (R161 to R166) -/

theorem oscStepped_eq_advanced (o : Osc) : oscStepped o = advanced o := by
  cases h : o.phaseCfg.eq o.phaseSeen <;> simp [oscStepped, shiftedStep, advanced, nextAccP, nextAccS, h]

/-- The outputs that `oscOutputs` computes for the stepped accumulators are those of R165. -/
theorem oscOutputs_eq_ok_iff {fmt : NumFormat} {wt : List Value} {o : Osc} {yp ys : Value} :
    oscOutputs fmt wt o (nextAccP o) (nextAccS o) = .ok (yp, ys) ↔ OutputsAre fmt wt o yp ys := by
  unfold OutputsAre
  cases h : o.en with
  | false => simp [oscOutputs_disabled h, eq_comm]
  | true => simp [oscOutputs_enabled h, interp_eq_ok_iff, position, tablePosition]

section Advance

variable {fmt : NumFormat} {wt : List Value} {o : Osc} {yp ys : Value} (hw : 1 ≤ o.G ∧ o.G ≤ o.W)
  (ho : OutputsAre fmt wt o yp ys)
include hw ho

/-- An advance with finite outputs returns them with the stepped oscillator. -/
theorem oscAdvance_of_finite (hf : yp.isFinite = true ∧ ys.isFinite = true) :
    oscAdvance fmt wt o = .ok (advanced o, yp, ys) := by
  rw [oscAdvance_ok, oscStepped_eq_advanced]
  exact ⟨hw, rfl, oscOutputs_eq_ok_iff.mpr ho, hf⟩

/-- An advance with an output that is not finite raises NUMERIC_FAULT. -/
theorem oscAdvance_of_not_finite (hf : ¬ (yp.isFinite = true ∧ ys.isFinite = true)) :
    oscAdvance fmt wt o = .error (.raise .numericFault) := by
  have hb : (yp.isFinite && ys.isFinite) = false := by rwa [← Bool.not_eq_true, Bool.and_eq_true]
  have hout : oscOutputs fmt wt o (advanced o).accP (advanced o).accS = .ok (yp, ys) := oscOutputs_eq_ok_iff.mpr ho
  simp only [oscAdvance, if_pos hw, oscStepped_eq_advanced, hout, ok_bind, hb, require_false, error_bind]

end Advance

/-- Settles O19: in legal widths the body is the advance, which returns the outputs or raises the fault. -/
theorem oscAdvanceStepsAndReturns : Obligations.OscAdvanceStepsAndReturns := by
  intro s yp ys hs hG hW ho
  refine ⟨fun hf => ?_, fun hf => ?_⟩
  · exact exec_of_effect (i := .oscAdvance) hs ⟨_, _, _, oscAdvance_of_finite ⟨hG, hW⟩ ho hf, rfl⟩
  · rw [exec, execOscAdvance, word_oscAdvance, oscAdvance_of_not_finite ⟨hG, hW⟩ ho hf, error_bind]
    exact transact_raise _ _ _ hs

/-! ## Laws of the advance (R169) -/

/-- A completed OSC_ADVANCE leaves the oscillator one advance on. -/
theorem osc_of_exec_oscAdvance {s t : State} (h : exec .oscAdvance s = .next t) (ht : t.halted = false) :
    t.osc = advanced s.osc := by
  obtain ⟨-, _, ⟨o, yp, ys, ho, rfl⟩, rfl⟩ := exec_completed h ht
  exact (oscAdvance_ok.mp ho).2.1.trans (oscStepped_eq_advanced _)

/-- Settles O20: nothing that an advance writes reads the enable flag. -/
theorem phaseContinuity : Obligations.PhaseContinuity := by
  intro s t t' b _ h ht h' ht'
  rw [osc_of_exec_oscAdvance h ht, osc_of_exec_oscAdvance h' ht']
  rfl

/-- Settles O21: the frequency word cancels in the difference of the two folds, and the detuning step stays. -/
theorem detuningStepAppliesOncePerChange : Obligations.DetuningStepAppliesOncePerChange := by
  rintro s t _ rfl _ h ht
  rw [osc_of_exec_oscAdvance h ht]
  unfold PhaseChanged
  simp only [advanced, nextAccP, nextAccS]
  cases s.osc.phaseCfg.eq s.osc.phaseSeen with
  | false =>
    refine ⟨fun _ => ⟨?_, rfl⟩, fun hn => absurd rfl hn⟩
    rw [if_neg Bool.false_ne_true, fold_sub_fold_mod]
    congr 1
    ring
  | true =>
    refine ⟨nofun, fun _ => ?_⟩
    rw [if_pos rfl, fold_sub_fold_mod, add_sub_add_right_eq_sub]

/-! ## The setters (R167, R168) -/

/-- Settles O22, by the command's effect. -/
theorem oscSetEnableSetsTheFlag : Obligations.OscSetEnableSetsTheFlag := fun _ en hs =>
  exec_of_effect (i := .oscSetEnable en) hs rfl

/-- OSC_SET_PHASE with a detuning step writes it and the offset. -/
theorem exec_oscSetPhase {s : State} {phi : Value} {n : Int} (hs : s.halted = false) (hf : phi.isFinite = true)
    (hn : detuneOf s.par.num phi s.osc.phaseSeen s.osc.W = some n) :
    exec (.oscSetPhase phi) s = .next { s with osc := { s.osc with phaseCfg := phi, detune := n }, answer := ok0 } :=
  exec_of_effect (i := .oscSetPhase phi) hs ⟨hf, n, hn, rfl⟩

/-- OSC_SET_PHASE with a non-finite operand, or without a detuning step, raises NUMERIC_FAULT. -/
theorem exec_oscSetPhase_fault {s : State} {phi : Value} (hs : s.halted = false)
    (h : phi.isFinite = true → detuneOf s.par.num phi s.osc.phaseSeen s.osc.W = none) :
    exec (.oscSetPhase phi) s = .next (faulted .numericFault 0x0012#16 s) := by
  have hbody : exec (.oscSetPhase phi) s = transact 0x0012#16 s (.error (.raise .numericFault)) := by
    rw [exec, execOscSetPhase, word_oscSetPhase]
    cases hf : phi.isFinite with
    | false => rw [requireFinite_of_not_finite hf, error_bind]
    | true => rw [requireFinite, hf, require_true, ok_bind, h hf, throw_error]
  rw [hbody]
  exact transact_raise _ _ _ hs

/-- In an IEEE format the detuning step is the rounded quotient, and there is none when the quotient is not finite. -/
theorem detuneOf_ieee {f : FloatFormat} {phi seen q : Value} {W : Nat}
    (hq : q = Value.div (.ieee f) (Value.mul (.ieee f) (Value.sub (.ieee f) phi seen) (toNum (.ieee f) (2 ^ W : Nat)))
      (Value.div (.ieee f) (piIeee f) (toNum (.ieee f) 2))) :
    detuneOf (.ieee f) phi seen W = if q.isFinite then some q.round else none := by
  subst hq
  rfl

/-- Settles O23: the step is there when the quotient is finite. -/
theorem oscSetPhaseComputesTheStep : Obligations.OscSetPhaseComputesTheStep := by
  intro s phi q f hs hnum hq
  rw [hnum] at hq
  have hd := detuneOf_ieee hq
  rw [← hnum] at hd
  refine ⟨fun ⟨hphi, hf⟩ => exec_oscSetPhase hs hphi (by rw [hd, if_pos hf]), fun hn => ?_⟩
  exact exec_oscSetPhase_fault hs fun hphi => by rw [hd, if_neg fun hf => hn ⟨hphi, hf⟩]

/-- Settles O24: under Exact there is always a step, and no integer is nearer to the quotient by the real pi. -/
theorem exactDetuningStepIsNearest : Obligations.ExactDetuningStepIsNearest := by
  intro s phi hs hnum hphi hseen
  obtain ⟨n, hn⟩ : ∃ n, detuneOf .exact phi s.osc.phaseSeen s.osc.W = some n := ⟨_, rfl⟩
  exact ⟨n, exec_oscSetPhase hs (isFinite_of_exact hphi) (by rw [hnum, hn]), detuneIs_of_detuneOf hphi hseen hn⟩

end Sys2Proof.Machine
end

section
/-! PROOFS. The moving average (spec/42_moving_average.md): what MAF_UPDATE and MAF_SET_CUTOFF answer and leave (R190, R192, R193), and
the average of a constant input (R194). -/

namespace Sys2Proof.Machine

open Claims

/-! ## The update (R190, R192) -/

/-- The window length that the update computes is that of R190. -/
theorem windowOf_eq {s : State} {n : Nat} (hn : WindowIs s n) : windowOf s.par.num s.maf.fs s.maf.fc = n := hn.1

section Update

variable {s : State} {old : Value} {n : Nat} (hold : s.maf.buf[s.maf.cur]? = some old) (hn : WindowIs s n)
include hold hn

/-- An update with a finite sum and average returns the average with the fed filter. -/
theorem mafUpdate_of_finite {x : Value} (hs : (nextSum s old x).isFinite = true) (ha : (average s old x n).isFinite = true) :
    mafUpdate s.par.num s.par.capacity s.maf x = .ok (fed s old x n, average s old x n) := by
  have hw := windowOf_eq hn
  obtain ⟨-, h1, hC⟩ := hn
  rw [mafUpdate_ok]
  refine ⟨old, memRead_ok.mpr ⟨by omega, hold⟩, by omega, hs, ha, (List.getElem?_eq_some_iff.mp hold).1, ?_, ?_⟩
  · rw [hw, average, nextSum]
  · rw [hw, fed, nextSum, Int.toNat_natCast]

/-- An update with a sum or an average that is not finite raises NUMERIC_FAULT. -/
theorem mafUpdate_of_not_finite {x : Value}
    (hf : ¬ ((nextSum s old x).isFinite = true ∧ (average s old x n).isFinite = true)) :
    mafUpdate s.par.num s.par.capacity s.maf x = .error (.raise .numericFault) := by
  have hw := windowOf_eq hn
  obtain ⟨-, h1, hC⟩ := hn
  have hread : memRead s.maf.buf s.maf.cur = .ok old := memRead_ok.mpr ⟨by omega, hold⟩
  have hb : ((nextSum s old x).isFinite && (average s old x n).isFinite) = false := by
    rwa [← Bool.not_eq_true, Bool.and_eq_true]
  rw [average, nextSum] at hb
  simp only [mafUpdate, hread, ok_bind, hw]
  rw [if_pos (by omega), hb, require_false, error_bind]

/-- MAF_UPDATE with a finite operand, sum and average returns the average. -/
theorem exec_mafUpdate {x : Value} (hs : s.halted = false)
    (hf : x.isFinite = true ∧ (nextSum s old x).isFinite = true ∧ (average s old x n).isFinite = true) :
    exec (.mafUpdate x) s = .next { s with maf := fed s old x n, answer := ok1 (average s old x n) } := by
  obtain ⟨hx, hsum, havg⟩ := hf
  exact exec_of_effect (i := .mafUpdate x) hs ⟨hx, _, _, mafUpdate_of_finite hold hn hsum havg, rfl⟩

/-- MAF_UPDATE with an operand, a sum or an average that is not finite halts the block with its word. -/
theorem exec_mafUpdate_fault {x : Value} (hs : s.halted = false)
    (hf : ¬ (x.isFinite = true ∧ (nextSum s old x).isFinite = true ∧ (average s old x n).isFinite = true)) :
    exec (.mafUpdate x) s = .next (faulted .numericFault 0x0020#16 s) := by
  have hbody : exec (.mafUpdate x) s = transact 0x0020#16 s (.error (.raise .numericFault)) := by
    rw [exec, execMafUpdate, word_mafUpdate]
    cases hx : x.isFinite with
    | false => rw [requireFinite_of_not_finite hx, error_bind]
    | true =>
      have hok : requireFinite x = .ok () := requireFinite_ok.mpr hx
      rw [hok, ok_bind, mafUpdate_of_not_finite hold hn fun h => hf ⟨hx, h⟩, error_bind]
  rw [hbody]
  exact transact_raise _ _ _ hs

end Update

/-- Settles O25: the body checks its operand, then the sum and the average, and stores only when all are finite. -/
theorem mafUpdateReturnsTheAverage : Obligations.MafUpdateReturnsTheAverage := fun _ _ _ _ hs hold hn =>
  ⟨exec_mafUpdate hold hn hs, exec_mafUpdate_fault hold hn hs⟩

/-! ## The cutoff (R193) -/

/-- MAF_SET_CUTOFF writes a positive cutoff that gives a window length in range. -/
theorem exec_mafSetCutoff {s : State} {fc : Value} (hs : s.halted = false) (hf : fc.isFinite = true)
    (hp : positive fc = true) (hr : roundsWithin (Value.div s.par.num s.maf.fs fc) 1 s.par.capacity = true) :
    exec (.mafSetCutoff fc) s = .next { s with maf := { s.maf with fc := fc }, answer := ok0 } :=
  exec_of_effect (i := .mafSetCutoff fc) hs ⟨hf, hp, hr, rfl⟩

/-- MAF_SET_CUTOFF with a non-finite operand raises NUMERIC_FAULT, whatever its own check would say (R308). -/
theorem exec_mafSetCutoff_not_finite {s : State} {fc : Value} (hs : s.halted = false) (hf : fc.isFinite = false) :
    exec (.mafSetCutoff fc) s = .next (faulted .numericFault 0x0021#16 s) := by
  rw [exec, execMafSetCutoff, word_mafSetCutoff, requireFinite_of_not_finite hf, error_bind]
  exact transact_raise _ _ _ hs

/-- MAF_SET_CUTOFF with any other finite cutoff raises CONFIG_ERROR. -/
theorem exec_mafSetCutoff_refused {s : State} {fc : Value} (hs : s.halted = false) (hf : fc.isFinite = true)
    (hn : ¬ (positive fc = true ∧ roundsWithin (Value.div s.par.num s.maf.fs fc) 1 s.par.capacity = true)) :
    exec (.mafSetCutoff fc) s = .next (faulted .configError 0x0021#16 s) := by
  have hbody : exec (.mafSetCutoff fc) s = transact 0x0021#16 s (.error (.raise .configError)) := by
    have hok : requireFinite fc = .ok () := requireFinite_ok.mpr hf
    rw [exec, execMafSetCutoff, word_mafSetCutoff, hok, ok_bind]
    cases hp : positive fc with
    | false => rw [require_false, error_bind]
    | true =>
      have hr : roundsWithin (Value.div s.par.num s.maf.fs fc) 1 s.par.capacity = false := by
        rw [← Bool.not_eq_true]
        exact fun hr => hn ⟨hp, hr⟩
      rw [require_true, ok_bind, hr, require_false, error_bind]
  rw [hbody]
  exact transact_raise _ _ _ hs

/-- Settles O26: the operand's check comes first, and the command's own two checks are the bounds of the statement. -/
theorem mafSetCutoffChecksTheWindow : Obligations.MafSetCutoffChecksTheWindow := by
  rintro s fc _ hs rfl
  rw [← roundsWithin_iff]
  exact ⟨exec_mafSetCutoff_not_finite hs, fun hf =>
    ⟨fun ⟨hp, hr⟩ => exec_mafSetCutoff hs hf hp hr, exec_mafSetCutoff_refused hs hf⟩⟩

/-! ## A constant input under Exact (R194) -/

/-- The block after `j` updates of the constant `v` from reset, with the window `N`: the first `j` entries of the window hold `v`, the
others 0, and the sum is that of these entries. -/
structure FedConstant (v : Value) (N j : Nat) (s : State) : Prop where
  halted : s.halted = false
  num : s.par.num = .exact
  window : WindowIs s N
  cur : s.maf.cur = j % N
  entry : ∀ i < N, s.maf.buf[i]? = some (if i < j then v else .fin 0)
  sum_isOf : isOf .exact s.maf.sum = true
  sum_real : s.maf.sum.real = (min j N : Nat) * v.real

/-- The average of a filter's sum over the window `N` is the real quotient. -/
theorem real_div_toNum {x : Value} {N : Nat} (hx : isOf .exact x = true) (hN : 1 ≤ N) :
    (Value.div .exact x (toNum .exact N)).real = x.real / N := by
  have hreal : (toNum .exact N).real = N := by simp
  rw [real_div_exact hx (isOf_toNum _ _) (by rw [hreal]; exact_mod_cast Nat.ne_of_gt hN), hreal]

theorem afterReset_fedConstant {s : State} {c : Config.Record} (hnum : s.par.num = .exact)
    (h : firstFailedCheck s.par c = none) (v : Value) : FedConstant v (afterReset c s).maf.N 0 (afterReset c s) where
  halted := BitVec.getLsbD_zero
  num := hnum
  window := by
    obtain ⟨-, -, hlo, hhi⟩ := reset_window h
    have h0 := zero_le_one.trans hlo
    exact ⟨(Int.toNat_of_nonneg h0).symm, (Int.le_toNat h0).mpr hlo, Int.toNat_le.mpr hhi⟩
  cur := (Nat.zero_mod _).symm
  entry i hi := by
    obtain ⟨-, -, -, hNC, -⟩ := afterReset_mafInRange h
    have hbuf : (afterReset c s).maf.buf = List.replicate s.par.capacity (.fin 0) := rfl
    rw [hbuf, List.getElem?_replicate_of_lt (hi.trans_le hNC), if_neg (Nat.not_lt_zero i)]
  sum_isOf := isOf_zero _
  sum_real := by simp [afterReset, mafAtReset]

namespace FedConstant

/-- The entry that the next update replaces: 0 while the window fills, then `v`. -/
def oldest (v : Value) (N j : Nat) : Value := if j < N then .fin 0 else v

theorem oldest_isOf {v : Value} (hv : isOf .exact v = true) (N j : Nat) : isOf .exact (oldest v N j) = true := by
  unfold oldest
  split
  · exact isOf_zero _
  · exact hv

variable {v : Value} {N j : Nat} {s : State} (h : FedConstant v N j s)
include h

theorem window_pos : 1 ≤ N := h.window.2.1

theorem withPending (pending : List PortEvent) : FedConstant v N j { s with pending := pending } := { h with }

theorem buf_cur : s.maf.buf[s.maf.cur]? = some (oldest v N j) := by
  have hlt : j % N < N := Nat.mod_lt j h.window_pos
  rw [h.cur, h.entry _ hlt, oldest]
  rcases Nat.lt_or_ge j N with hj | hj
  · rw [Nat.mod_eq_of_lt hj, if_neg (Nat.lt_irrefl j), if_pos hj]
  · rw [if_pos (hlt.trans_le hj), if_neg (Nat.not_lt.mpr hj)]

/-- The update stores `v` at position `j` while the window fills, and over another `v` from then on. -/
theorem buf_set_cur {i : Nat} (hi : i < N) :
    (s.maf.buf.set s.maf.cur v)[i]? = some (if i < j + 1 then v else .fin 0) := by
  have hlen : s.maf.cur < s.maf.buf.length := (List.getElem?_eq_some_iff.mp h.buf_cur).1
  by_cases hci : s.maf.cur = i
  · have hij : i ≤ j := hci ▸ h.cur ▸ Nat.mod_le j N
    rw [hci, List.getElem?_set_self (hci ▸ hlen), if_pos (Nat.lt_succ_of_le hij)]
  · have hij : i ≠ j := by
      rintro rfl
      exact hci (h.cur.trans (Nat.mod_eq_of_lt hi))
    rw [List.getElem?_set_ne hci, h.entry i hi]
    simp only [show i < j + 1 ↔ i < j by omega]

section Update

variable (hv : isOf .exact v = true)
include hv

theorem nextSum_isOf : isOf .exact (nextSum s (oldest v N j) v) = true := by
  rw [nextSum, h.num]
  exact isOf_add (isOf_sub h.sum_isOf (oldest_isOf hv N j)) hv

theorem nextSum_real : (nextSum s (oldest v N j) v).real = (min (j + 1) N : Nat) * v.real := by
  have ho := oldest_isOf hv N j
  rw [nextSum, h.num, real_add_exact (isOf_sub h.sum_isOf ho) hv, real_sub_exact h.sum_isOf ho, h.sum_real, oldest]
  rcases Nat.lt_or_ge j N with hj | hj
  · rw [if_pos hj, Nat.min_eq_left hj.le, Nat.min_eq_left hj, real_fin, Rat.cast_zero, sub_zero, Nat.cast_succ, add_one_mul]
  · rw [if_neg (Nat.not_lt.mpr hj), Nat.min_eq_right hj, Nat.min_eq_right (Nat.le_succ_of_le hj), sub_add_cancel]

theorem fed_succ (answer : Option Answer) :
    FedConstant v N (j + 1) { s with maf := fed s (oldest v N j) v N, answer := answer } where
  halted := h.halted
  num := h.num
  window := h.window
  cur := by rw [fed, h.cur, Nat.mod_add_mod]
  entry _ hi := h.buf_set_cur hi
  sum_isOf := h.nextSum_isOf hv
  sum_real := h.nextSum_real hv

theorem exec_succ :
    exec (.mafUpdate v) s = .next
      { s with
        maf := fed s (oldest v N j) v N
        answer := ok1 (Value.div .exact (nextSum s (oldest v N j) v) (toNum .exact N)) } := by
  have havg : average s (oldest v N j) v N = Value.div .exact (nextSum s (oldest v N j) v) (toNum .exact N) := by
    rw [average, h.num]
  have hsum := h.nextSum_isOf hv
  rw [← havg]
  refine exec_mafUpdate h.buf_cur h.window h.halted ⟨isFinite_of_exact hv, isFinite_of_exact hsum, ?_⟩
  rw [havg]
  exact isFinite_of_exact (isOf_div hsum (isOf_toNum _ _))

/-- The next update of `v` completes, keeps the invariant, and answers the average of the new sum. -/
theorem step_succ {a : Agent} {rest : List PortEvent} (hp : s.pending = .command a 0x0020#16 [v] :: rest) :
    ∃ t, step s = .next t ∧ FedConstant v N (j + 1) t ∧ t.pending = rest ∧
      t.answer = ok1 (Value.div .exact t.maf.sum (toNum .exact N)) := by
  have hdecode : decode 0x0020#16 [v] = .ok (.mafUpdate v) := decode_eq_ok_iff_encode.mpr ⟨word_mafUpdate v, rfl⟩
  have hw : (Instr.mafUpdate v).wellFormed s.par.num = true := by
    rw [h.num]
    simpa [Instr.wellFormed, Instr.operands] using hv
  have h' := h.withPending rest
  exact ⟨_, ((step_command hp).trans (issue_of_decode hdecode hw)).trans (h'.exec_succ hv), h'.fed_succ hv _, rfl, rfl⟩

end Update

/-- A run of `n + 1` updates of `v` keeps the invariant; its last answer is the average of the last sum. -/
theorem run_succ (hv : isOf .exact v = true) {a : Agent} {n : Nat}
    (hp : s.pending = List.replicate (n + 1) (.command a 0x0020#16 [v])) :
    ∃ t, core.run (n + 1) s = .next t ∧ FedConstant v N (j + (n + 1)) t ∧
      t.answer = ok1 (Value.div .exact t.maf.sum (toNum .exact N)) := by
  induction n generalizing j s with
  | zero =>
    obtain ⟨t, hstep, ht, -, hans⟩ := h.step_succ hv hp
    exact ⟨t, run_step 0 hstep, ht, hans⟩
  | succ n ih =>
    obtain ⟨t, hstep, ht, hrest, -⟩ := h.step_succ hv hp
    obtain ⟨u, hrun, hu, hans⟩ := ih ht hrest
    exact ⟨u, (run_step _ hstep).trans hrun, Nat.succ_add_eq_add_succ j (n + 1) ▸ hu, hans⟩

end FedConstant

/-- Settles O28: the sum is `v` times the updates in the window, which is `k * v` until the window is full and `N * v` from then on. -/
theorem constantInputConverges : Obligations.ConstantInputConverges := by
  rintro s c N k v hnum h - rfl hk hv
  obtain ⟨n, rfl⟩ := Nat.exists_eq_add_of_le' hk
  obtain ⟨t, hrun, ht, hans⟩ := ((afterReset_fedConstant hnum h v).withPending _).run_succ hv rfl
  rw [Nat.zero_add] at ht
  have hN := ht.window_pos
  generalize (afterReset c s).maf.N = N at ht hans hN ⊢
  have hy : isOf .exact (Value.div .exact t.maf.sum (toNum .exact N)) = true := isOf_div ht.sum_isOf (isOf_toNum _ _)
  have hreal := (real_div_toNum ht.sum_isOf hN).trans (by rw [ht.sum_real])
  refine ⟨t, _, hrun, hans, hy, fun hlt => ?_, fun hle => eq_of_real hy hv ?_⟩
  · rw [hreal, Nat.min_eq_left hlt.le]
  · rw [hreal, Nat.min_eq_right hle, mul_div_cancel_left₀ _ (by exact_mod_cast Nat.ne_of_gt hN)]

end Sys2Proof.Machine
end

section
/-! PROOFS. The lock-in amplifier (spec/43_lockin.md): what LIA_DEMOD answers and leaves (R211). -/

namespace Sys2Proof.Machine

open Claims

theorem requireFinite_of_finite {x : Value} (hx : x.isFinite = true) : requireFinite x = .ok () :=
  requireFinite_ok.mpr hx

section Demod

variable {s : State} {e yp ys old : Value} {n : Nat} (hm : DemodMeets s yp ys old n)
include hm

/-- A demodulation whose checked values are finite returns the average with the advanced oscillator and the fed filter. -/
theorem liaDemod_of_finite (hf : DemodFinite s e yp ys old n) :
    liaDemod s.par s.wt s.osc s.maf e =
      .ok (advanced s.osc, fed s old (Value.mul s.par.num e ys) n, average s old (Value.mul s.par.num e ys) n) := by
  obtain ⟨hG, hW, hout, hold, hn⟩ := hm
  obtain ⟨he, hyp, hys, hprod, hsum, havg⟩ := hf
  rw [liaDemod_ok]
  exact ⟨he, yp, ys, oscAdvance_of_finite ⟨hG, hW⟩ hout ⟨hyp, hys⟩, hprod, mafUpdate_of_finite hold hn hsum havg⟩

/-- A demodulation with a checked value that is not finite raises NUMERIC_FAULT, whichever of the checks in R211's order it fails. -/
theorem liaDemod_of_not_finite (hf : ¬ DemodFinite s e yp ys old n) :
    liaDemod s.par s.wt s.osc s.maf e = .error (.raise .numericFault) := by
  obtain ⟨hG, hW, hout, hold, hn⟩ := hm
  unfold liaDemod
  cases he : e.isFinite with
  | false => rw [requireFinite_of_not_finite he, error_bind]
  | true =>
    rw [requireFinite_of_finite he, ok_bind]
    by_cases hys : yp.isFinite = true ∧ ys.isFinite = true
    · rw [oscAdvance_of_finite ⟨hG, hW⟩ hout hys, ok_bind]
      dsimp only
      cases hprod : (Value.mul s.par.num e ys).isFinite with
      | false => rw [requireFinite_of_not_finite hprod, error_bind]
      | true =>
        have hmaf : ¬ ((nextSum s old (Value.mul s.par.num e ys)).isFinite = true ∧
            (average s old (Value.mul s.par.num e ys) n).isFinite = true) :=
          fun h => hf ⟨he, hys.1, hys.2, hprod, h⟩
        rw [requireFinite_of_finite hprod, ok_bind, mafUpdate_of_not_finite hold hn hmaf, error_bind]
    · rw [oscAdvance_of_not_finite ⟨hG, hW⟩ hout hys, error_bind]

end Demod

/-- Settles O29: the body is the demodulation, which returns the average with both parts updated or raises the fault. -/
theorem liaDemodReturnsTheFilteredProduct : Obligations.LiaDemodReturnsTheFilteredProduct := by
  intro s e yp ys old n hs hm
  refine ⟨fun hf => ?_, fun hf => ?_⟩
  · exact exec_of_effect (i := .liaDemod e) hs ⟨_, _, _, liaDemod_of_finite hm hf, rfl⟩
  · rw [exec, execLiaDemod, word_liaDemod, liaDemod_of_not_finite hm hf, error_bind]
    exact transact_raise _ _ _ hs

end Sys2Proof.Machine
end

section
/-! PROOFS. The PID controller (spec/44_pid.md): what PID_RUN answers and leaves (R222 to R224, R246), the events (R228 to R236), the
setters (R237 to R244), and the registers that no command or no event writes (R34, R235, R245). -/

namespace Sys2Proof.Machine

open Claims

/-! ## The model's controllers in the words of the statements -/

theorem shadow_eq_one_sub (i : Fin 2) : shadow i = 1 - i := by
  fin_cases i <;> rfl

theorem nextIntegrator_eq_integratorOf (fmt : NumFormat) (P : Pid) (e : Value) :
    nextIntegrator fmt P e = integratorOf fmt P e := by
  cases h : P.aw <;> simp [nextIntegrator, integratorOf, antiWindup, increment, Pid.activeCoef, Pid.activeDly, h]

theorem pidRan_eq_ran (fmt : NumFormat) (P : Pid) (e : Value) : pidRan fmt P e = ran fmt P e := by
  rw [pidRan, nextIntegrator_eq_integratorOf]
  rfl

theorem resetDelay_eq_delayReset (P : Pid) : resetDelay P = delayReset P := by
  rw [resetDelay, shadow_eq_one_sub]
  rfl

theorem recomputed_eq_swapped (fmt : NumFormat) (P : Pid) (p i d Ts : Value) :
    recomputed fmt P p i d Ts = swapped P (coefSet fmt p i d Ts) := by
  rw [recomputed, shadow_eq_one_sub]
  rfl

theorem coefs_finite_iff {fmt : NumFormat} {p i d Ts : Value} :
    (coefs fmt p i d Ts).finite = true ↔
      (coefSet fmt p i d Ts).ic.isFinite = true ∧ (coefSet fmt p i d Ts).dc.isFinite = true :=
  Bool.and_eq_true_iff

/-! ## The selected controller, and faults -/

@[simp] theorem answerOk_pid (d : Done) (sel : Sel) : d.answerOk.pid sel = d.state.pid sel := by
  cases sel <;> rfl

@[simp] theorem setPid_self (s : State) (sel : Sel) : s.setPid sel (s.pid sel) = s := by
  cases sel <;> rfl

/-- A transaction whose body raises a fault leaves the state before it, halted with its word. -/
theorem transact_of_raise {w : CmdWord} {s : State} {body : Except Stop Done} {c : Cause} (hs : s.halted = false)
    (h : body = .error (.raise c)) : transact w s body = .next (faulted c w s) := by
  rw [h]
  exact transact_raise w s c hs

/-- A body that checks its operand and raises NUMERIC_FAULT after the check raises it in any case. -/
theorem requireFinite_bind_raise {α : Type} {x : Value} {f : Unit → Except Stop α}
    (h : x.isFinite = true → f () = .error (.raise .numericFault)) :
    (requireFinite x >>= f) = .error (.raise .numericFault) := by
  cases hx : x.isFinite with
  | false => rw [requireFinite_of_not_finite hx, error_bind]
  | true => rw [requireFinite_of_finite hx, ok_bind, h hx]

/-! ## Run (R222 to R224) -/

/-- A run that returns is one of the statements' runs with a finite operand. -/
theorem pidRun_eq_ok_iff {fmt : NumFormat} {P P' : Pid} {e v : Value} :
    pidRun fmt P e = .ok (P', v) ↔ e.isFinite = true ∧ RunIs fmt P e P' v := by
  have hsat : (ran fmt P e).activeDly.psat = saturationOf fmt P e := by simp [ran, Pid.activeDly]
  rw [pidRun_ok, pidRan_eq_ran, nextIntegrator_eq_integratorOf, hsat, RunIs, RunFinite]
  simp only [and_assoc]
  rfl

/-- A run that meets a value that is not finite raises NUMERIC_FAULT. -/
theorem pidRun_of_runFails {fmt : NumFormat} {P : Pid} {e : Value} (h : e.isFinite = true → RunFails fmt P e) :
    pidRun fmt P e = .error (.raise .numericFault) := by
  refine requireFinite_bind_raise fun he => ?_
  obtain ⟨hf, hn⟩ := h he
  have hb : ((integratorOf fmt P e).isFinite && (outputOf fmt P e).isFinite && (saturationOf fmt P e).isFinite) = false := by
    rwa [← Bool.not_eq_true, Bool.and_eq_true, Bool.and_eq_true, and_assoc]
  rw [if_neg (by simp [hf]), nextIntegrator_eq_integratorOf]
  exact bind_error.mpr (.inl (require_error.mpr ⟨hb, rfl⟩))

/-- PID_RUN with a finite operand, on a controller whose run is given. -/
theorem exec_pidRun {s : State} {sel : Sel} {e v : Value} {P' : Pid} (hs : s.halted = false) (he : e.isFinite = true)
    (h : RunIs s.par.num (s.pid sel) e P' v) :
    exec (.pidRun sel e) s = .next { s.setPid sel P' with answer := ok1 v } :=
  exec_of_effect (i := .pidRun sel e) hs ⟨P', v, pidRun_eq_ok_iff.mpr ⟨he, h⟩, rfl⟩

/-- PID_RUN halts the block when its operand or a value of its run is not finite. -/
theorem exec_pidRun_fault {s : State} {sel : Sel} {e : Value} (hs : s.halted = false)
    (h : e.isFinite = true → RunFails s.par.num (s.pid sel) e) :
    exec (.pidRun sel e) s = .next (faulted .numericFault (Instr.pidRun sel e).word s) :=
  transact_of_raise hs (by rw [pidRun_of_runFails h, error_bind])

/-- Settles O30: an unfrozen run returns exactly when its operand and its three values are finite. -/
theorem pidRunComputesTheControlValue : Obligations.PidRunComputesTheControlValue := fun _ _ _ hs hf =>
  ⟨fun ⟨he, hr⟩ => exec_pidRun hs he (.inr ⟨hf, hr, rfl, rfl⟩),
    fun hn => exec_pidRun_fault hs fun he => ⟨hf, fun hr => hn ⟨he, hr⟩⟩⟩

/-- Settles O31: a frozen run never meets a value that is not finite. -/
theorem frozenPidRunReturnsTheStoredOutput : Obligations.FrozenPidRunReturnsTheStoredOutput := by
  intro s sel e hs hf
  refine ⟨fun he => ?_, fun he => exec_pidRun_fault hs fun he' => by simp [he] at he'⟩
  have hrun := exec_pidRun (P' := s.pid sel) hs he (.inl ⟨hf, rfl, rfl⟩)
  rwa [setPid_self] at hrun

/-! ## Laws of the run (R246) -/

theorem one_mul_exact {x : Value} (hx : isOf .exact x = true) : Value.mul .exact (.fin 1) x = x :=
  eq_of_real (isOf_mul rfl hx) hx (by rw [real_mul_exact rfl hx]; simp)

theorem zero_mul_exact {x : Value} (hx : isOf .exact x = true) : Value.mul .exact (.fin 0) x = .fin 0 :=
  eq_of_real (isOf_mul rfl hx) rfl (by rw [real_mul_exact rfl hx]; simp)

theorem add_zero_exact {x : Value} (hx : isOf .exact x = true) : Value.add .exact x (.fin 0) = x :=
  eq_of_real (isOf_add hx rfl) hx (by rw [real_add_exact hx rfl]; simp)

section Proportional

variable {P : Pid} {x : Value} (hC : P.activeCoef = ⟨.fin 1, .fin 0, .fin 0⟩) (hD : P.activeDly = zeroDelay)
  (hx : isOf .exact x = true)
include hC hD hx

/-- Without an integral coefficient and without history the integrator stays 0, with either strategy. -/
theorem integratorOf_proportional : integratorOf .exact P x = .fin 0 := by
  rw [Pid.activeCoef] at hC
  rw [Pid.activeDly] at hD
  cases h : P.aw <;> simp [integratorOf, hC, hD, zeroDelay, zero_mul_exact hx, h]

/-- With `p = 1` and `K = 1` the raw output is then the error. -/
theorem rawOf_proportional (hK : P.K = .fin 1) : rawOf .exact P x = x := by
  have hI := integratorOf_proportional hC hD hx
  rw [Pid.activeCoef] at hC
  have hsub : isOf .exact (Value.sub .exact x (P.dly.get P.ad).perr) = true := isOf_sub hx (by rw [← Pid.activeDly, hD]; rfl)
  simp only [rawOf, hI, hC, hK]
  rw [zero_mul_exact hsub, one_mul_exact hx, add_zero_exact hx, add_zero_exact hx, one_mul_exact hx]

end Proportional

/-- Settles O32: the run is finite, since every value is one of Exact, and its output is the clamped error. -/
theorem proportionalIdentityLaw : Obligations.ProportionalIdentityLaw := by
  rintro s sel x _ _ hs hnum hf hC hD hK rfl rfl hx hlo hhi hle
  have hfin {y : Value} (hy : isOf .exact y = true) : y.isFinite = true := isFinite_of_exact hy
  have hraw := rawOf_proportional hC hD hx hK
  have hout : outputOf .exact (s.pid sel) x = clamp x (s.pid sel).min (s.pid sel).max := by rw [outputOf, hraw]; rfl
  have hcv : isOf .exact (outputOf .exact (s.pid sel) x) = true := by
    rw [hout, clamp]
    split_ifs
    exacts [hlo, hhi, hx]
  have hrun : RunFinite s.par.num (s.pid sel) x := by
    rw [hnum]
    refine ⟨?_, hfin hcv, hfin (isOf_sub hcv ?_)⟩
    · rw [integratorOf_proportional hC hD hx]
      rfl
    · rwa [hraw]
  refine ⟨_, exec_pidRun hs (hfin hx) (.inr ⟨hf, hrun, rfl, rfl⟩), ?_⟩
  simp only [hnum, hout, clamp, lt_of_finite (hfin hx) (hfin hlo), lt_of_finite (hfin hhi) (hfin hx)]
  refine ⟨fun h => by rw [if_pos h], fun h => by rw [if_neg (hle.trans h.le).not_gt, if_pos h], fun h1 h2 => ?_⟩
  rw [if_neg h1.not_gt, if_neg h2.not_gt]

/-- Settles O33: the completed run keeps the integrator, by the second branch of the strategy. -/
theorem conditionalAntiWindupFreezesTheIntegrator : Obligations.ConditionalAntiWindupFreezesTheIntegrator := by
  intro s t sel e _ hf haw hsat hinc h ht
  obtain ⟨-, _, ⟨P', v, hrun, rfl⟩, rfl⟩ := exec_completed h ht
  obtain ⟨-, ⟨hfr, -⟩ | ⟨-, -, rfl, -⟩⟩ := pidRun_eq_ok_iff.mp hrun
  · simp [hf] at hfr
  · have hI : integratorOf s.par.num (s.pid sel) e = (s.pid sel).activeDly.integ := by
      rw [Pid.activeDly] at hsat hinc ⊢
      rw [Pid.activeCoef] at hinc
      simp [integratorOf, haw, hsat, hinc]
    simp [done1, ran, Pid.activeDly, hI]

/-! ## The state machine (R228 to R234) -/

theorem pidEvent_enable {P : Pid} (h : P.fsm ≠ .running) :
    pidEvent .enable P = { P with fsm := .running, frozen := false } := by
  cases hf : P.fsm <;> simp_all [pidEvent]

theorem pidEvent_enable_running {P : Pid} (h : P.fsm = .running) : pidEvent .enable P = P := by
  simp [pidEvent, h]

theorem pidEvent_disable {P : Pid} (h : P.fsm ≠ .idle) :
    pidEvent .disable P = delayReset { P with fsm := .idle, frozen := true } := by
  cases hf : P.fsm <;> simp_all [pidEvent, resetDelay_eq_delayReset]

theorem pidEvent_disable_idle {P : Pid} (h : P.fsm = .idle) : pidEvent .disable P = P := by
  simp [pidEvent, h]

theorem pidEvent_hold {P : Pid} (h : P.fsm = .running) : pidEvent .hold P = { P with fsm := .hold, frozen := true } := by
  simp [pidEvent, h]

theorem pidEvent_hold_not_running {P : Pid} (h : P.fsm ≠ .running) : pidEvent .hold P = P := by
  cases hf : P.fsm <;> simp_all [pidEvent]

theorem pidEvent_reset {P : Pid} (h : P.fsm = .running) : pidEvent .reset P = delayReset P := by
  simp [pidEvent, h, resetDelay_eq_delayReset]

theorem pidEvent_reset_not_running {P : Pid} (h : P.fsm ≠ .running) : pidEvent .reset P = P := by
  cases hf : P.fsm <;> simp_all [pidEvent]

theorem delayReset_activeDly (P : Pid) : (delayReset P).activeDly = zeroDelay := by
  rw [← resetDelay_eq_delayReset, resetDelay_active]

/-- A command whose effect is to write the controller `sel`. -/
theorem exec_of_setPid {i : Instr} {s : State} {sel : Sel} {P : Pid} (hs : s.halted = false)
    (h : Effect i s (done0 (s.setPid sel P))) : exec i s = .next { s.setPid sel P with answer := ok0 } :=
  exec_of_effect hs h

/-- A command whose effect is to write the controller `sel` as it is changes nothing. -/
theorem exec_of_setPid_self {i : Instr} {s : State} {sel : Sel} {P : Pid} (hs : s.halted = false)
    (h : Effect i s (done0 (s.setPid sel P))) (hP : P = s.pid sel) : exec i s = .next { s with answer := ok0 } := by
  rw [exec_of_setPid hs h, hP, setPid_self]

/-- What such a command leaves of the controller. -/
theorem pid_of_setPid {i : Instr} {s t : State} {sel : Sel} {P : Pid} (hs : s.halted = false) (he : exec i s = .next t)
    (h : Effect i s (done0 (s.setPid sel P))) : t.halted = false ∧ t.pid sel = P := by
  rw [exec_of_effect hs h] at he
  cases he
  simp [done0, hs]

/-- Settles O34: the transitions of Idle and Hold under `enable` are one, and Running has none. -/
theorem pidEnableStartsTheController : Obligations.PidEnableStartsTheController := by
  intro s sel hs
  refine ⟨fun h => ?_, fun h => exec_of_setPid_self (i := .pidEnable sel) hs rfl (pidEvent_enable_running h)⟩
  rw [← pidEvent_enable (by rcases h with h | h <;> simp [h])]
  exact exec_of_setPid (i := .pidEnable sel) hs rfl

/-- Settles O35: the transitions of Running and Hold under `disable` are one, and Idle has none. -/
theorem pidDisableStopsAndResets : Obligations.PidDisableStopsAndResets := by
  intro s sel hs
  refine ⟨fun h => ?_, fun h => exec_of_setPid_self (i := .pidDisable sel) hs rfl (pidEvent_disable_idle h)⟩
  rw [← pidEvent_disable (by rcases h with h | h <;> simp [h])]
  exact exec_of_setPid (i := .pidDisable sel) hs rfl

/-- Settles O36: only Running has a transition under `hold`. -/
theorem pidHoldFreezes : Obligations.PidHoldFreezes := by
  intro s sel hs
  refine ⟨fun h => ?_, fun h => exec_of_setPid_self (i := .pidHold sel) hs rfl (pidEvent_hold_not_running h)⟩
  rw [← pidEvent_hold h]
  exact exec_of_setPid (i := .pidHold sel) hs rfl

/-- Settles O37: only Running has a transition under `reset`. -/
theorem pidResetZeroesTheHistory : Obligations.PidResetZeroesTheHistory := by
  intro s sel hs
  refine ⟨fun h => ?_, fun h => exec_of_setPid_self (i := .pidReset sel) hs rfl (pidEvent_reset_not_running h)⟩
  rw [← pidEvent_reset h]
  exact exec_of_setPid (i := .pidReset sel) hs rfl

/-- Settles O38: a disabled controller is Idle with a zeroed active set, a held one is in Hold with its own, and `enable` starts both
without touching the history. -/
theorem stateDependentResetLaw : Obligations.StateDependentResetLaw := by
  intro s s1 s2 sel hs
  constructor
  · intro h1 h2 hP
    obtain ⟨hs1, hP1⟩ := pid_of_setPid (sel := sel) hs h1 rfl
    obtain ⟨-, hP2⟩ := pid_of_setPid (sel := sel) hs1 h2 rfl
    rw [pidEvent_disable hP] at hP1
    rw [hP2, pidEvent_enable (by rw [hP1]; exact nofun), hP1]
    exact ⟨rfl, delayReset_activeDly _⟩
  · intro h1 h2 hP
    obtain ⟨hs1, hP1⟩ := pid_of_setPid (sel := sel) hs h1 rfl
    obtain ⟨-, hP2⟩ := pid_of_setPid (sel := sel) hs1 h2 rfl
    rw [pidEvent_hold hP] at hP1
    rw [hP2, pidEvent_enable (by rw [hP1]; exact nofun), hP1]
    exact ⟨rfl, rfl⟩

/-- Settles O39, by the command's effect. -/
theorem pidIsLimitedReadsTheSaturation : Obligations.PidIsLimitedReadsTheSaturation := fun _ sel hs =>
  exec_of_effect (i := .pidIsLimited sel) hs rfl

/-! ## The setters (R237 to R244) -/

theorem SetsGains.effect {s : State} {sel : Sel} {c : Instr} {p x d ts : Value} (h : SetsGains sel (s.pid sel) c p x d ts)
    (hc : (coefs s.par.num p x d ts).finite = true) :
    Effect c s (done0 (s.setPid sel
      { recomputed s.par.num (s.pid sel) p x d ts with p := p, i := x, d := d, Ts := ts })) := by
  cases h with
  | p hp => exact ⟨hp, hc, rfl⟩
  | i hx => exact ⟨hx, hc, rfl⟩
  | d hd => exact ⟨hd, hc, rfl⟩
  | gains hp hx hd => exact ⟨⟨hp, hx, hd⟩, hc, rfl⟩
  | ts hf ht => exact ⟨hf, ht, hc, rfl⟩

/-- A setter with finite coefficients swaps them in and stores its gains and its sampling interval. -/
theorem SetsGains.exec_eq {s : State} {sel : Sel} {c : Instr} {p x d ts : Value} (h : SetsGains sel (s.pid sel) c p x d ts)
    (hs : s.halted = false)
    (hc : (coefSet s.par.num p x d ts).ic.isFinite = true ∧ (coefSet s.par.num p x d ts).dc.isFinite = true) :
    exec c s = .next { s.setPid sel
      { swapped (s.pid sel) (coefSet s.par.num p x d ts) with p := p, i := x, d := d, Ts := ts } with answer := ok0 } := by
  rw [← recomputed_eq_swapped]
  exact exec_of_setPid hs (h.effect (coefs_finite_iff.mpr hc))

/-- A body that recomputes coefficients of which one is not finite raises NUMERIC_FAULT. -/
theorem recomputeCoef_bind_raise {α : Type} {fmt : NumFormat} {P : Pid} {p x d ts : Value} {f : Pid → Except Stop α}
    (hc : ¬ ((coefSet fmt p x d ts).ic.isFinite = true ∧ (coefSet fmt p x d ts).dc.isFinite = true)) :
    (recomputeCoef fmt P p x d ts >>= f) = .error (.raise .numericFault) := by
  rw [← coefs_finite_iff, Bool.not_eq_true] at hc
  rw [recomputeCoef, hc, require_false, error_bind, error_bind]

/-- Settles O40: the four setters are cases of one. -/
theorem gainSettersSwapTheCoefficients : Obligations.GainSettersSwapTheCoefficients := fun _ sel _ _ _ hs =>
  ⟨fun hp hc => (SetsGains.p (sel := sel) hp).exec_eq hs hc,
    fun hx hc => (SetsGains.i (sel := sel) hx).exec_eq hs hc,
    fun hd hc => (SetsGains.d (sel := sel) hd).exec_eq hs hc,
    fun hp hx hd hc => (SetsGains.gains (sel := sel) hp hx hd).exec_eq hs hc⟩

/-- Settles O41: each setter checks its operands in their order and then the coefficients, with one cause for all. -/
theorem gainSettersRefuseNonFiniteValues : Obligations.GainSettersRefuseNonFiniteValues := by
  intro s sel p x d hs
  refine ⟨fun h => ?_, fun h => ?_, fun h => ?_, fun h => ?_⟩
  · exact transact_of_raise hs <| requireFinite_bind_raise fun hp =>
      recomputeCoef_bind_raise fun ⟨hic, hdc⟩ => by simp [hp, hic, hdc] at h
  · exact transact_of_raise hs <| requireFinite_bind_raise fun hx =>
      recomputeCoef_bind_raise fun ⟨hic, hdc⟩ => by simp [hx, hic, hdc] at h
  · exact transact_of_raise hs <| requireFinite_bind_raise fun hd =>
      recomputeCoef_bind_raise fun ⟨hic, hdc⟩ => by simp [hd, hic, hdc] at h
  · exact transact_of_raise hs <| requireFinite_bind_raise fun hp => requireFinite_bind_raise fun hx =>
      requireFinite_bind_raise fun hd => recomputeCoef_bind_raise fun ⟨hic, hdc⟩ => by simp [hp, hx, hd, hic, hdc] at h

/-- Settles O42: the operand's check comes first, then the sign, then the coefficients. -/
theorem pidSetTsChecksTheInterval : Obligations.PidSetTsChecksTheInterval := by
  intro s sel ts hs
  refine ⟨fun hf => ?_, fun hf hneg => ?_, fun hf hpos => ⟨(SetsGains.ts (sel := sel) hf hpos).exec_eq hs, fun hc => ?_⟩⟩
  · exact transact_of_raise hs (requireFinite_bind_raise fun hf' => by simp [hf] at hf')
  · exact transact_of_raise hs (by rw [requireFinite_of_finite hf, ok_bind, positive, hneg, require_false, error_bind])
  · refine transact_of_raise hs (requireFinite_bind_raise fun _ => ?_)
    rw [positive, hpos, require_true, ok_bind]
    exact recomputeCoef_bind_raise hc

/-- Settles O43: the third setter recomputes from the gains that the first two have stored, so that its coefficients are those of
PID_SET_GAINS, and no setter writes the history or the output. -/
theorem setGainsEqualsTheThreeSetters : Obligations.SetGainsEqualsTheThreeSetters := by
  intro s s1 s2 s3 sel p x d h1 h2 h3 ht
  obtain ⟨hs2, _, ⟨hd, hc, rfl⟩, rfl⟩ := exec_completed h3 ht
  obtain ⟨hs1, _, ⟨hx, -, rfl⟩, rfl⟩ := exec_completed h2 hs2
  obtain ⟨hs, _, ⟨hp, -, rfl⟩, rfl⟩ := exec_completed h1 hs1
  simp only [done0, answerOk_par, answerOk_pid, setPid_par, pid_setPid, recomputed] at hc ⊢
  refine ⟨_, exec_of_effect hs ((SetsGains.gains (sel := sel) hp hx hd).effect hc), ?_⟩
  simp [done0, hs, recomputed, Pid.activeCoef]

/-! ## What no command or no event writes (R34, R235, R245, R354) -/

theorem OscStep.construction {fmt : NumFormat} {wt : List Value} {o o' : Osc} {i : Instr} (h : OscStep fmt wt o i o') :
    o'.amp = o.amp ∧ o'.off = o.off ∧ o'.W = o.W ∧ o'.G = o.G ∧ o'.fw = o.fw := by
  cases h with
  | advance _ h =>
    obtain ⟨-, hamp, hoff, -, hW, hG, hfw, -⟩ := oscAdvance_keeps h
    exact ⟨hamp, hoff, hW, hG, hfw⟩
  | enable en => exact ⟨rfl, rfl, rfl, rfl, rfl⟩
  | phase _ _ => exact ⟨rfl, rfl, rfl, rfl, rfl⟩

theorem MafStep.fs_eq {par : Config.Params} {wt : List Value} {o : Osc} {m m' : Maf} {i : Instr}
    (h : MafStep par wt o m i m') : m'.fs = m.fs := by
  cases h with
  | update _ h => exact (mafUpdate_keeps h).1
  | demod _ _ _ h => exact (mafUpdate_keeps h).1
  | cutoff _ _ _ => rfl

theorem LoopStep.countlim_eq {s : State} {i : Instr} {l : Loop} (h : LoopStep s i l) : l.countlim = s.loop.countlim := by
  cases h <;> rfl

theorem PidStep.construction {fmt : NumFormat} {sel : Sel} {P P' : Pid} {i : Instr} (h : PidStep fmt sel P i P') :
    P'.K = P.K ∧ P'.min = P.min ∧ P'.max = P.max ∧ P'.aw = P.aw := by
  have hevent (ev : PidEvent) : (pidEvent ev P).K = P.K ∧ (pidEvent ev P).min = P.min ∧ (pidEvent ev P).max = P.max ∧
      (pidEvent ev P).aw = P.aw := by
    obtain ⟨-, -, -, -, hK, hmin, hmax, haw, -⟩ := pidEvent_keeps ev P
    exact ⟨hK, hmin, hmax, haw⟩
  cases h with
  | run _ h =>
    obtain ⟨-, -, -, -, hK, hmin, hmax, haw, -⟩ := pidRun_keeps h
    exact ⟨hK, hmin, hmax, haw⟩
  | enable => exact hevent .enable
  | disable => exact hevent .disable
  | hold => exact hevent .hold
  | reset => exact hevent .reset
  | gains _ _ => exact ⟨rfl, rfl, rfl, rfl⟩

theorem exec_sameConstruction {i : Instr} {s t : State} (h : exec i s = .next t) : SameConstruction s t := by
  have hc := exec_commandStep h
  obtain ⟨hamp, hoff, hW, hG, hfw⟩ : t.osc.amp = s.osc.amp ∧ t.osc.off = s.osc.off ∧ t.osc.W = s.osc.W ∧ t.osc.G = s.osc.G ∧
      t.osc.fw = s.osc.fw := hc.osc.elim (fun he => by simp [he]) OscStep.construction
  refine ⟨hc.wt, hamp, hoff, hW, hG, hfw, ?_, ?_, fun sel => ?_⟩
  · exact hc.maf.elim (fun he => by rw [he]) MafStep.fs_eq
  · exact hc.loop.elim (fun he => by rw [he]) LoopStep.countlim_eq
  · exact (hc.pid sel).elim (fun he => by simp [he]) PidStep.construction

/-- A step that changes the port and STATUS only. -/
theorem sameConstruction_port (s : State) (status : BitVec 32) (pending : List PortEvent) (answer : Option Answer) :
    SameConstruction s { s with status := status, pending := pending, answer := answer } :=
  ⟨rfl, rfl, rfl, rfl, rfl, rfl, rfl, rfl, fun _ => ⟨rfl, rfl, rfl, rfl⟩⟩

/-- Settles O50: no step of a component writes a construction register, and a step that runs no command writes STATUS and the port
only. -/
theorem constructionRegistersNeverChange : Obligations.ConstructionRegistersNeverChange := by
  refine ⟨fun i s t => exec_sameConstruction, fun s t hr h => ?_⟩
  rcases step_next h with ⟨-, rfl⟩ | ⟨rest, -, rfl⟩ | ⟨c, rest, hp, -⟩ | ⟨a, w, ops, rest, e, -, -, rfl⟩ |
    ⟨a, w, ops, rest, i, -, -, -, he⟩
  · exact sameConstruction_port s _ _ _
  · unfold deadlineOverrun
    split <;> exact sameConstruction_port s _ _ _
  · exact absurd hp (hr c rest)
  · split <;> exact sameConstruction_port s _ _ _
  · exact exec_sameConstruction (s := { s with pending := rest }) he

/-- Enabling and holding leave the delay sets alone (R235). -/
theorem pidEvent_enable_dly (P : Pid) : (pidEvent .enable P).dly = P.dly ∧ (pidEvent .enable P).ad = P.ad := by
  cases h : P.fsm <;> simp [pidEvent, h]

theorem pidEvent_hold_dly (P : Pid) : (pidEvent .hold P).dly = P.dly ∧ (pidEvent .hold P).ad = P.ad := by
  cases h : P.fsm <;> simp [pidEvent, h]

/-- A controller's step changes the output in a run only, and the delay sets in a run or a delay reset only. -/
theorem PidStep.output {fmt : NumFormat} {sel : Sel} {P P' : Pid} {i : Instr} (h : PidStep fmt sel P i P') :
    (i.opcode ∉ [.pidRun, .clStep] → P'.cv = P.cv) ∧
      (i.opcode ∉ [.pidRun, .clStep, .pidDisable, .pidReset] → P'.dly = P.dly ∧ P'.ad = P.ad) := by
  have hcv (ev : PidEvent) : (pidEvent ev P).cv = P.cv := by
    obtain ⟨-, -, -, -, -, -, -, -, -, -, hcv⟩ := pidEvent_keeps ev P
    exact hcv
  cases h with
  | run hi _ => rcases hi with rfl | rfl <;> simp [Instr.opcode]
  | enable => exact ⟨fun _ => hcv .enable, fun _ => pidEvent_enable_dly P⟩
  | hold => exact ⟨fun _ => hcv .hold, fun _ => pidEvent_hold_dly P⟩
  | disable => exact ⟨fun _ => hcv .disable, fun hi => absurd (by simp [Instr.opcode]) hi⟩
  | reset => exact ⟨fun _ => hcv .reset, fun hi => absurd (by simp [Instr.opcode]) hi⟩
  | gains _ _ => exact ⟨fun _ => rfl, fun _ => ⟨rfl, rfl⟩⟩

/-- Settles O52, by the steps of the controllers. -/
theorem onlyRunsChangeTheOutput : Obligations.OnlyRunsChangeTheOutput := fun _ _ _ sel h =>
  ((exec_commandStep h).pid sel).elim (fun he => by simp [he]) PidStep.output

end Sys2Proof.Machine
end

section
/-! PROOFS. The control loop (spec/45_control_loop.md): what CL_STEP answers and leaves (R271), that it contains a LIA_DEMOD and a
PID_RUN (R273, R274), and the schedule of the slow controller (R272). -/

namespace Sys2Proof.Machine

open Claims

/-! ## The step (R271) -/

theorem runIs_or_runFails (fmt : NumFormat) (P : Pid) (e : Value) : (∃ P' v, RunIs fmt P e P' v) ∨ RunFails fmt P e := by
  cases hz : P.frozen with
  | true => exact .inl ⟨P, P.cv, .inl ⟨hz, rfl, rfl⟩⟩
  | false =>
    by_cases hf : RunFinite fmt P e
    · exact .inl ⟨_, _, .inr ⟨hz, hf, rfl, rfl⟩⟩
    · exact .inr ⟨hz, hf⟩

theorem not_runFails_of_runIs {fmt : NumFormat} {P P' : Pid} {e v : Value} (h : RunIs fmt P e P' v) : ¬ RunFails fmt P e := by
  rintro ⟨hz, hn⟩
  rcases h with ⟨hz', -, -⟩ | ⟨-, hf, -, -⟩
  · simp [hz] at hz'
  · exact hn hf

/-- CL_STEP halts the block with its word when the demodulation, the fast run, or the slow run of a tick that has one meets a value that is
not finite: the body takes them in this order, and each returns or raises NUMERIC_FAULT. -/
theorem exec_clStep_fault {s : State} {e yp ys old : Value} {n : Nat} (hs : s.halted = false)
    (hm : DemodMeets s yp ys old n)
    (h : ¬ DemodFinite s e yp ys old n ∨ RunFails s.par.num s.pidFast e ∨
      (s.loop.tick + 1 < s.loop.countlim ∧ RunFails s.par.num s.pidSlow e)) :
    exec (.clStep e) s = .next (faulted .numericFault 0x0050#16 s) := by
  rw [exec, execClStep, word_clStep]
  refine transact_of_raise hs (requireFinite_bind_raise fun he => ?_)
  dsimp only
  by_cases hd : DemodFinite s e yp ys old n
  · rw [liaDemod_of_finite hm hd, ok_bind]
    dsimp only
    rcases runIs_or_runFails s.par.num s.pidFast e with ⟨pf, fast, hr⟩ | hr
    · obtain ⟨ht, hslow⟩ := (h.resolve_left (not_not_intro hd)).resolve_left (not_runFails_of_runIs hr)
      rw [pidRun_eq_ok_iff.mpr ⟨he, hr⟩, ok_bind]
      dsimp only
      rw [if_pos ht, pidRun_of_runFails fun _ => hslow, error_bind]
    · rw [pidRun_of_runFails fun _ => hr, error_bind]
  · rw [liaDemod_of_not_finite hm hd, error_bind]

/-- Settles O44: the tick below the limit is the branch of the body that runs both controllers. -/
theorem clStepRunsBothControllers : Obligations.ClStepRunsBothControllers := by
  intro s e yp ys old n hs hm ht
  refine ⟨fun pf ps fast slow hd hf hsl => ?_, fun h => exec_clStep_fault hs hm (h.imp_right (.imp_right (And.intro ht)))⟩
  exact exec_of_effect (i := .clStep e) hs
    ⟨_, _, _, pf, fast, liaDemod_of_finite hm hd, pidRun_eq_ok_iff.mpr ⟨hd.1, hf⟩,
      .inl ⟨ht, ps, slow, pidRun_eq_ok_iff.mpr ⟨hd.1, hsl⟩, rfl⟩⟩

/-- Settles O45: the tick at the limit is the other branch of the body. -/
theorem clStepCarriesTheSlowOutput : Obligations.ClStepCarriesTheSlowOutput := by
  intro s e yp ys old n hs hm ht
  refine ⟨fun pf fast hd hf => ?_, fun h => exec_clStep_fault hs hm (h.imp_right .inl)⟩
  exact exec_of_effect (i := .clStep e) hs
    ⟨_, _, _, pf, fast, liaDemod_of_finite hm hd, pidRun_eq_ok_iff.mpr ⟨hd.1, hf⟩, .inr ⟨ht, rfl⟩⟩

/-! ## The lock-in and the fast run in it (R273, R274) -/

/-- A command whose effect is given leaves the block running. -/
theorem exec_next_of_effect {i : Instr} {s : State} {d : Done} (hs : s.halted = false) (h : Effect i s d) :
    exec i s = .next d.answerOk ∧ d.answerOk.halted = false :=
  ⟨exec_of_effect hs h, (effect_halted h).trans hs⟩

/-- Settles O46: on either kind of tick, a body that returns has returned from its demodulation and from its fast run. -/
theorem clStepContainsTheLockInAndTheFastRun : Obligations.ClStepContainsTheLockInAndTheFastRun := by
  intro s t e hs h ht
  obtain ⟨-, d, ⟨o, m, y, pf, fast, hl, hf, hslow⟩, rfl⟩ := exec_completed h ht
  obtain ⟨hdemod, hdemod'⟩ := exec_next_of_effect (i := .liaDemod e) hs ⟨o, m, y, hl, rfl⟩
  obtain ⟨hrun, hrun'⟩ := exec_next_of_effect (i := .pidRun .fast e) hs ⟨pf, fast, hf, rfl⟩
  refine ⟨⟨_, hdemod, hdemod', ?_⟩, ⟨_, hrun, hrun', ?_⟩⟩ <;>
    rcases hslow with ⟨-, ps, slow, -, rfl⟩ | ⟨-, rfl⟩
  · exact ⟨rfl, rfl⟩
  · exact ⟨rfl, rfl⟩
  · rfl
  · rfl

/-! ## The schedule (R272) -/

/-- The tick counter after a CL_STEP that completes, the limit being `n` (R271). -/
def nextTick (double : Bool) (n tick : Nat) : Nat := if tick + 1 < n then tickAfterRun double (tick + 1) else 0

/-- The tick counter that the schedule gives after `k` CL_STEPs from 0, the limit being `n` (R272). -/
def scheduledTick (double : Bool) (n k : Nat) : Nat := if double then 2 * (k % (n / 2 + 1)) else k % n

theorem add_one_mod_eq_ite {m : Nat} (k : Nat) (hm : 0 < m) : (k + 1) % m = if k % m + 1 < m then k % m + 1 else 0 := by
  rw [← Nat.mod_add_mod]
  split
  · next h => exact Nat.mod_eq_of_lt h
  · next h => rw [show k % m + 1 = m from Nat.le_antisymm (Nat.mod_lt k hm) (Nat.not_lt.mp h), Nat.mod_self]

/-- The schedule goes on by the step of the counter: with the double increment, a counter at `2 * r` starts again when `r` has come
to `n / 2`. -/
theorem scheduledTick_succ (double : Bool) {n : Nat} (k : Nat) (hn : 1 ≤ n) :
    scheduledTick double n (k + 1) = nextTick double n (scheduledTick double n k) := by
  cases double with
  | false => exact add_one_mod_eq_ite k hn
  | true =>
    have hlast : 2 * (k % (n / 2 + 1)) + 1 < n ↔ k % (n / 2 + 1) + 1 < n / 2 + 1 := by omega
    simp only [scheduledTick, nextTick, tickAfterRun, if_true, add_one_mod_eq_ite k (Nat.succ_pos (n / 2)), hlast]
    split
    · ring
    · rfl

theorem iterate_nextTick_zero (double : Bool) {n : Nat} (k : Nat) (hn : 1 ≤ n) :
    (nextTick double n)^[k] 0 = scheduledTick double n k := by
  induction k with
  | zero => cases double <;> simp [scheduledTick]
  | succ k ih => rw [Function.iterate_succ_apply', ih, scheduledTick_succ double k hn]

/-- A CL_STEP that completes takes the counter's step and keeps its limit. -/
theorem exec_clStep_loop {s t : State} {e : Value} (h : exec (.clStep e) s = .next t) (ht : t.halted = false) :
    t.loop.countlim = s.loop.countlim ∧
      t.loop.tick = nextTick s.par.doubleIncrement s.loop.countlim s.loop.tick := by
  obtain ⟨-, d, ⟨o, m, y, pf, fast, -, -, hslow⟩, rfl⟩ := exec_completed h ht
  unfold nextTick
  rcases hslow with ⟨hlt, ps, slow, -, rfl⟩ | ⟨hle, rfl⟩
  · rw [if_pos hlt]
    exact ⟨rfl, rfl⟩
  · rw [if_neg (Nat.not_lt.mpr hle)]
    exact ⟨rfl, rfl⟩

/-- A step on the tick agent's command that is not refused runs CL_STEP. -/
theorem exec_clStep_of_step_tickOf {s t : State} {e : Value} {rest : List PortEvent} (hp : s.pending = tickOf e :: rest)
    (h : step s = .next t) : exec (.clStep e) { s with pending := rest } = .next t := by
  have hdecode : decode 0x0050#16 [e] = .ok (.clStep e) := decode_eq_ok_iff_encode.mpr ⟨word_clStep e, rfl⟩
  rw [step_command hp, issue, hdecode] at h
  dsimp only at h
  split at h
  · exact h
  · cases h

/-- A run of CL_STEPs that leaves the block running has found it running, and takes the counter's step as many times. -/
theorem run_ticks {s t : State} {es : List Value} (hp : s.pending = es.map tickOf)
    (hrun : core.run es.length s = .next t) (ht : t.halted = false) :
    s.halted = false ∧ t.loop.countlim = s.loop.countlim ∧
      t.loop.tick = (nextTick s.par.doubleIncrement s.loop.countlim)^[es.length] s.loop.tick := by
  induction es generalizing s with
  | nil =>
    cases hrun
    exact ⟨ht, rfl, rfl⟩
  | cons e es ih =>
    obtain ⟨s', hstep, hrun'⟩ := run_next hrun
    have hexec := exec_clStep_of_step_tickOf hp hstep
    obtain ⟨hs', hlim', htick'⟩ := ih (exec_commandStep hexec).pending hrun'
    obtain ⟨hs, -⟩ := exec_completed hexec hs'
    obtain ⟨hlim, htick⟩ := exec_clStep_loop hexec hs'
    refine ⟨hs, hlim'.trans hlim, ?_⟩
    rw [htick', step_par hstep, hlim, htick, List.length_cons, Function.iterate_succ_apply]

/-- Settles O47: the counter's steps from 0 follow the schedule. -/
theorem tickSchedule : Obligations.TickSchedule := by
  intro s t es h0 hn hp hrun ht
  obtain ⟨-, hlim, htick⟩ := run_ticks hp hrun ht
  rw [h0, iterate_nextTick_zero _ _ hn] at htick
  exact ⟨hlim, htick⟩

end Sys2Proof.Machine
end

section
/-! PROOFS. The system command (spec/46_system.md): what NOP answers and leaves (R290). -/

namespace Sys2Proof.Machine

/-- Settles O48: the effect of NOP is the state it found, with no result. -/
theorem nopDoesNothing : Obligations.NopDoesNothing := by
  intro s hs
  have heffect : Effect .nop s (done0 s) := rfl
  exact exec_of_effect hs heffect

end Sys2Proof.Machine
end

section
/-! PROOFS. Exceptions (spec/60_exceptions.md): a halted block answers HALTED (R312), the overrun signal (R306, R311), and a command's
fault writes STATUS only (R303, R310). -/

namespace Sys2Proof.Machine

open Claims

/-! ## Precise faults (R303, R310) -/

/-- Settles O8: a command that completes does not halt the block, and a raised fault is written into the state before the command. -/
theorem faultsArePrecise : Obligations.FaultsArePrecise := by
  intro i s t hs h ht
  rcases exec_next h with ⟨hh, -⟩ | ⟨-, d, hd, rfl⟩ | ⟨-, c, hc, rfl⟩
  · simp [hs] at hh
  · rw [effect_halted hd, hs] at ht
    cases ht
  · exact ⟨c, by rcases hc with rfl | rfl <;> decide, rfl⟩

/-! ## The halted block (R312) -/

/-- A halted block answers HALTED to a command, whether the decoder accepts it or not. -/
theorem issue_halted {s : State} (hs : s.halted = true) (w : CmdWord) (ops : List Value) :
    issue w ops s = .next s.answerHalted := by
  unfold issue
  split
  · exact transact_halted w s _ hs
  · rw [hs, Bool.true_or, if_pos rfl, exec_halted hs]

/-- Settles O6: a halted block gives the one answer on both branches of the decoder. -/
theorem haltedBlockAnswersHalted : Obligations.HaltedBlockAnswersHalted := by
  intro s a w ops rest hp hs
  exact (step_command hp).trans (issue_halted (s := { s with pending := rest }) hs w ops)

/-! ## The overrun signal (R306, R311) -/

theorem step_overrun {s : State} {rest : List PortEvent} (hp : s.pending = .overrun :: rest) :
    step s = .next (deadlineOverrun { s with pending := rest, answer := none }) := by
  rw [step, hp]

theorem deadlineOverrun_running {s : State} (hs : s.halted = false) :
    deadlineOverrun s = faultEntry .deadlineOverrun 0 s := by
  rw [deadlineOverrun, hs, if_neg Bool.false_ne_true]

theorem deadlineOverrun_halted {s : State} (hs : s.halted = true) : deadlineOverrun s = s := by
  rw [deadlineOverrun, if_pos hs]

/-- Settles O7: the signal enters a fault of its own on a running block and is ignored on a halted one. -/
theorem overrunHaltsTheBlock : Obligations.OverrunHaltsTheBlock := by
  intro s rest hp
  rw [step_overrun hp]
  exact ⟨fun hs => congrArg Host.Outcome.next (deadlineOverrun_running hs),
    fun hs => congrArg Host.Outcome.next (deadlineOverrun_halted hs)⟩

end Sys2Proof.Machine
end

section
/-! PROOFS. Under NUM = Exact no command raises NUMERIC_FAULT (R305): every value of Exact is finite and every operation on values of
Exact gives one, so that each body passes its checks, but for the two setters' checks of R193 and R244. -/

namespace Sys2Proof.Machine

open Sys2Proof Sys2Proof.Claims Sys2Proof.Safety

/-! ## Every body has the values it needs -/

/-- In a full table the oscillator has its outputs, which are values of NUM (R165). -/
theorem exists_outputs {fmt : NumFormat} {wt : List Value} {o : Osc} (hl : wt.length = Config.L)
    (hw : ∀ v ∈ wt, Good fmt v) (ho : GoodOsc fmt o) :
    ∃ yp ys, OutputsAre fmt wt o yp ys ∧ isOf fmt yp = true ∧ isOf fmt ys = true := by
  obtain ⟨⟨hamp, -⟩, ⟨hoff, -⟩, -⟩ := ho
  cases he : o.en with
  | false => exact ⟨.fin 0, .fin 0, .inl ⟨he, rfl, rfl⟩, isOf_zero fmt, isOf_zero fmt⟩
  | true =>
    have hisOf {acc : Int} {v : Value} (h : interp fmt wt (position fmt o acc) = .ok v) : isOf fmt v = true :=
      interp_isOf (fun v hv => (hw v hv).1) (isOf_div (isOf_toNum fmt _) (isOf_toNum fmt _)) h
    obtain ⟨yp, hyp⟩ := exists_interp (fmt := fmt) (x := position fmt o (nextAccP o)) hl
    obtain ⟨y, hy⟩ := exists_interp (fmt := fmt) (x := position fmt o (nextAccS o)) hl
    exact ⟨yp, _, .inr ⟨he, interp_eq_ok_iff.mp hyp, y, interp_eq_ok_iff.mp hy, rfl⟩, hisOf hyp,
      isOf_add (isOf_mul (hisOf hy) hamp) hoff⟩

/-- A filter in range has an oldest entry and a window length (R45, R190). -/
theorem exists_oldest_window {s : State} (hm : MafInRange s.par.num s.par.capacity s.maf) :
    ∃ old n, s.maf.buf[s.maf.cur]? = some old ∧ WindowIs s n := by
  obtain ⟨hlen, hcur, -, -, -, -, hwin⟩ := hm
  obtain ⟨-, hlo, hhi⟩ := roundsWithin_iff.mp hwin
  have hn : (Value.div s.par.num s.maf.fs s.maf.fc).round = ((Value.div s.par.num s.maf.fs s.maf.fc).round.toNat : Int) :=
    (Int.toNat_of_nonneg (zero_le_one.trans hlo)).symm
  exact ⟨_, _, List.getElem?_eq_getElem (hlen ▸ hcur), hn, by omega, by omega⟩

/-! ## The values of a run (R224) -/

theorem isOf_integratorOf {fmt : NumFormat} {P : Pid} {e : Value} (hP : GoodPid fmt P) (he : isOf fmt e = true) :
    isOf fmt (integratorOf fmt P e) = true := by
  obtain ⟨-, -, -, -, -, -, -, -, -, hc0, hc1, hd0, hd1, -⟩ := hP
  obtain ⟨-, ⟨hic, -⟩, -⟩ := two_get (GoodCoef fmt) P.coef P.ac hc0 hc1
  obtain ⟨⟨hinteg, -⟩, ⟨hperr, -⟩, -, ⟨hpic, -⟩⟩ := two_get (GoodDly fmt) P.dly P.ad hd0 hd1
  have hadd := isOf_add hinteg (isOf_add (isOf_mul hic he) (isOf_mul hpic hperr))
  unfold integratorOf
  dsimp only
  split
  · exact hadd
  · split
    · exact hadd
    · exact hinteg

theorem isOf_rawOf {fmt : NumFormat} {P : Pid} {e : Value} (hP : GoodPid fmt P) (he : isOf fmt e = true) :
    isOf fmt (rawOf fmt P e) = true := by
  have hI := isOf_integratorOf hP he
  obtain ⟨-, -, -, -, ⟨hK, -⟩, -, -, -, -, hc0, hc1, hd0, hd1, -⟩ := hP
  obtain ⟨⟨hpc, -⟩, -, ⟨hdc, -⟩⟩ := two_get (GoodCoef fmt) P.coef P.ac hc0 hc1
  obtain ⟨-, ⟨hperr, -⟩, -⟩ := two_get (GoodDly fmt) P.dly P.ad hd0 hd1
  exact isOf_mul hK (isOf_add (isOf_add (isOf_mul hpc he) hI) (isOf_mul hdc (isOf_sub he hperr)))

theorem isOf_outputOf {fmt : NumFormat} {P : Pid} {e : Value} (hP : GoodPid fmt P) (he : isOf fmt e = true) :
    isOf fmt (outputOf fmt P e) = true := by
  have hraw := isOf_rawOf hP he
  obtain ⟨-, -, -, -, -, hmin, -, hmax, -⟩ := hP
  unfold outputOf
  split_ifs
  exacts [hmin, hmax, hraw]

/-! ## Each body completes -/

/-- The commands that Exact does not keep from failing: a cutoff that gives no window length in range (R193), and a sampling interval
that is not positive (R244). -/
def Refused (s : State) (i : Instr) : Prop :=
  (∃ fc, i = .mafSetCutoff fc ∧
    ¬ ((Value.fin 0).lt fc = true ∧ 1 ≤ (Value.div .exact s.maf.fs fc).round ∧
      (Value.div .exact s.maf.fs fc).round ≤ s.par.capacity)) ∨
  ∃ sel ts, i = .pidSetTs sel ts ∧ (Value.fin 0).lt ts = false

section Exact

variable {s : State} (hnum : s.par.num = .exact)
include hnum

/-- Every value of the block's NUM is finite. -/
theorem finite_of_isOf {x : Value} (hx : isOf s.par.num x = true) : x.isFinite = true :=
  isFinite_of_exact (hnum ▸ hx)

theorem exists_pidRun {P : Pid} {e : Value} (hP : GoodPid s.par.num P) (he : isOf s.par.num e = true) :
    ∃ P' v, pidRun s.par.num P e = .ok (P', v) := by
  rcases runIs_or_runFails s.par.num P e with ⟨P', v, hrun⟩ | ⟨-, hfail⟩
  · exact ⟨P', v, pidRun_eq_ok_iff.mpr ⟨finite_of_isOf hnum he, hrun⟩⟩
  · have hout := isOf_outputOf hP he
    exact absurd ⟨finite_of_isOf hnum (isOf_integratorOf hP he), finite_of_isOf hnum hout,
      finite_of_isOf hnum (isOf_sub hout (isOf_rawOf hP he))⟩ hfail

/-- The coefficients that a setter recomputes are finite (R221, R238). -/
theorem SetsGains.exists_effect {sel : Sel} {c : Instr} {p x d ts : Value} (h : SetsGains sel (s.pid sel) c p x d ts)
    (hw : c.wellFormed s.par.num = true) (hv : ValuesGood s) : ∃ d, Effect c s d := by
  obtain ⟨-, ⟨hx, -⟩, ⟨hd, -⟩, ⟨hts, -⟩⟩ := h.good hw (valuesGood_pid hv sel)
  have hic := finite_of_isOf hnum (isOf_div (isOf_mul hx hts) (isOf_toNum s.par.num 2))
  have hdc := finite_of_isOf hnum (isOf_div hd hts)
  exact ⟨_, h.effect (coefs_finite_iff.mpr ⟨hic, hdc⟩)⟩

section Block

variable (hr : BlockInRange s) (hv : ValuesGood s)
include hr hv

theorem exists_oscAdvance :
    ∃ o yp ys, oscAdvance s.par.num s.wt s.osc = .ok (o, yp, ys) ∧ isOf s.par.num ys = true := by
  obtain ⟨-, hlen, ⟨hG, hW, -⟩, -⟩ := hr
  obtain ⟨hwt, hosc, -⟩ := hv
  obtain ⟨yp, ys, hout, hyp, hys⟩ := exists_outputs hlen hwt hosc
  exact ⟨_, yp, ys,
    oscAdvance_of_finite ⟨hG, hW⟩ hout ⟨finite_of_isOf hnum hyp, finite_of_isOf hnum hys⟩, hys⟩

theorem exists_mafUpdate {x : Value} (hx : isOf s.par.num x = true) :
    ∃ m y, mafUpdate s.par.num s.par.capacity s.maf x = .ok (m, y) := by
  obtain ⟨-, -, -, hmaf, -⟩ := hr
  obtain ⟨-, -, ⟨hbuf, ⟨hsum, -⟩, -⟩, -⟩ := hv
  obtain ⟨old, n, hold, hn⟩ := exists_oldest_window hmaf
  have hnext : isOf s.par.num (nextSum s old x) = true :=
    isOf_add (isOf_sub hsum (hbuf old (List.mem_of_getElem? hold)).1) hx
  exact ⟨_, _, mafUpdate_of_finite hold hn (finite_of_isOf hnum hnext)
    (finite_of_isOf hnum (isOf_div hnext (isOf_toNum _ _)))⟩

theorem exists_liaDemod {e : Value} (he : isOf s.par.num e = true) :
    ∃ o m y, liaDemod s.par s.wt s.osc s.maf e = .ok (o, m, y) := by
  obtain ⟨o, yp, ys, hosc, hys⟩ := exists_oscAdvance hnum hr hv
  have hprod := isOf_mul he hys
  obtain ⟨m, y, hm⟩ := exists_mafUpdate hnum hr hv hprod
  exact ⟨o, m, y, liaDemod_ok.mpr ⟨finite_of_isOf hnum he, yp, ys, hosc, finite_of_isOf hnum hprod, hm⟩⟩

theorem exists_effect_clStep {e : Value} (he : isOf s.par.num e = true) : ∃ d, Effect (.clStep e) s d := by
  obtain ⟨o, m, y, hl⟩ := exists_liaDemod hnum hr hv he
  obtain ⟨pf, fast, hf⟩ := exists_pidRun hnum (valuesGood_pid hv .fast) he
  obtain ⟨ps, slow, hs⟩ := exists_pidRun hnum (valuesGood_pid hv .slow) he
  rcases Nat.lt_or_ge (s.loop.tick + 1) s.loop.countlim with ht | ht
  · exact ⟨_, o, m, y, pf, fast, hl, hf, .inl ⟨ht, ps, slow, hs, rfl⟩⟩
  · exact ⟨_, o, m, y, pf, fast, hl, hf, .inr ⟨ht, rfl⟩⟩

/-- Every command that is not refused has its effect. -/
theorem exists_effect_of_not_refused {i : Instr} (hw : i.wellFormed s.par.num = true) (hn : ¬ Refused s i) :
    ∃ d, Effect i s d := by
  have hop {x : Value} (hx : x ∈ i.operands) : isOf s.par.num x = true := isOf_operand hw hx
  have hfin {x : Value} (hx : x ∈ i.operands) : x.isFinite = true := finite_of_isOf hnum (hop hx)
  cases i with
  | nop | oscSetEnable | pidEnable | pidDisable | pidHold | pidReset | pidIsLimited => exact ⟨_, rfl⟩
  | wtInterp x =>
    obtain ⟨-, hlen, -⟩ := hr
    obtain ⟨hwt, -⟩ := hv
    obtain ⟨v, hi⟩ := exists_interp (fmt := s.par.num) (x := x) hlen
    have hvf := finite_of_isOf hnum (interp_isOf (fun v h => (hwt v h).1) (hop (List.mem_singleton_self x)) hi)
    exact ⟨_, hfin (List.mem_singleton_self x), v, hi, hvf, rfl⟩
  | oscAdvance =>
    obtain ⟨o, yp, ys, hosc, -⟩ := exists_oscAdvance hnum hr hv
    exact ⟨_, o, yp, ys, hosc, rfl⟩
  | oscSetPhase phi =>
    obtain ⟨n, hd⟩ : ∃ n, detuneOf s.par.num phi s.osc.phaseSeen s.osc.W = some n := by
      rw [hnum]
      exact ⟨_, rfl⟩
    exact ⟨_, hfin (List.mem_singleton_self phi), n, hd, rfl⟩
  | mafUpdate x =>
    obtain ⟨m, y, hm⟩ := exists_mafUpdate hnum hr hv (hop (List.mem_singleton_self x))
    exact ⟨_, hfin (List.mem_singleton_self x), m, y, hm, rfl⟩
  | mafSetCutoff fc =>
    have hf := hfin (List.mem_singleton_self fc)
    obtain ⟨hpos, hwin⟩ := not_not.mp fun h => hn (.inl ⟨fc, rfl, h⟩)
    obtain ⟨-, -, ⟨-, -, -, ⟨hfs, -⟩⟩, -⟩ := hv
    have hq := finite_of_isOf hnum (isOf_div hfs (hop (List.mem_singleton_self fc)))
    rw [← hnum] at hwin
    exact ⟨_, hf, hpos, roundsWithin_iff.mpr ⟨hq, hwin⟩, rfl⟩
  | liaDemod e =>
    obtain ⟨o, m, y, hl⟩ := exists_liaDemod hnum hr hv (hop (List.mem_singleton_self e))
    exact ⟨_, o, m, y, hl, rfl⟩
  | pidRun sel e =>
    obtain ⟨P, v, hrun⟩ := exists_pidRun hnum (valuesGood_pid hv sel) (hop (List.mem_singleton_self e))
    exact ⟨_, P, v, hrun, rfl⟩
  | pidSetP sel p => exact (SetsGains.p (hfin (List.mem_singleton_self p))).exists_effect hnum hw hv
  | pidSetI sel x => exact (SetsGains.i (hfin (List.mem_singleton_self x))).exists_effect hnum hw hv
  | pidSetD sel d => exact (SetsGains.d (hfin (List.mem_singleton_self d))).exists_effect hnum hw hv
  | pidSetGains sel p x d =>
    have hfins : ∀ y ∈ [p, x, d], y.isFinite = true := fun y => hfin
    exact (SetsGains.gains (hfins p (by simp)) (hfins x (by simp)) (hfins d (by simp))).exists_effect hnum hw hv
  | pidSetTs sel ts =>
    have hpos : positive ts = true := eq_true_of_ne_false fun h => hn (.inr ⟨sel, ts, rfl, h⟩)
    exact (SetsGains.ts (hfin (List.mem_singleton_self ts)) hpos).exists_effect hnum hw hv
  | clStep e => exact exists_effect_clStep hnum hr hv (hop (List.mem_singleton_self e))

end Block

/-- A refused command is a CONFIG_ERROR of its setter (R193, R244, R304). -/
theorem exec_of_refused {i : Instr} (hs : s.halted = false) (hw : i.wellFormed s.par.num = true) (h : Refused s i) :
    exec i s = .next (faulted .configError i.word s) := by
  rcases h with ⟨fc, rfl, hn⟩ | ⟨sel, ts, rfl, hneg⟩
  · have hf := finite_of_isOf hnum (isOf_operand hw (List.mem_singleton_self fc))
    rw [word_mafSetCutoff]
    refine exec_mafSetCutoff_refused hs hf fun ⟨hpos, hwin⟩ => hn ⟨hpos, ?_⟩
    rw [hnum] at hwin
    exact (roundsWithin_iff.mp hwin).2
  · have hf := finite_of_isOf hnum (isOf_operand hw (List.mem_singleton_self ts))
    obtain ⟨-, hrefuse, -⟩ := pidSetTsChecksTheInterval s sel ts hs
    exact hrefuse hf hneg

end Exact

/-- Settles O57: a command that R193 and R244 do not refuse has its effect, and completes with it. -/
theorem exactCommandsComplete : Obligations.ExactCommandsComplete := by
  intro i s hnum hs hr hv hw
  rw [← hnum] at hw
  by_cases h : Refused s i
  · exact .inr ⟨h, exec_of_refused hnum hs hw h⟩
  · obtain ⟨d, hd⟩ := exists_effect_of_not_refused hnum hr hv hw h
    obtain ⟨hnext, hrun⟩ := exec_next_of_effect hs hd
    exact .inl ⟨_, hnext, hrun, d.res0, d.res1, answerOk_answer d⟩

end Sys2Proof.Machine
end

section
/-! PROOFS. The checks of reset (spec/70_reset_and_hazards.md R342) as the table words them, and what a reset with a failing check
leaves (R343). -/

namespace Sys2Proof.Machine

open Claims

/-! ## The sixteen checks (R342) -/

theorem pidRecordFinite_iff {r : Config.PidRecord} :
    pidRecordFinite r = true ↔
      r.Ts.isFinite = true ∧ r.p.isFinite = true ∧ r.i.isFinite = true ∧ r.d.isFinite = true ∧ r.gain.isFinite = true ∧
        (r.min.isFinite = true ∨ r.min = .inf true) ∧ (r.max.isFinite = true ∨ r.max = .inf false) := by
  simp [pidRecordFinite, and_assoc]

/-- Check 7: under Exact there is always a detuning step, and in an IEEE format when the quotient of R42 is finite. -/
theorem resetCheck_detune_iff (par : Config.Params) (c : Config.Record) :
    resetCheck par c 7 = true ↔ ResetCheckHolds par c 7 := by
  obtain ⟨num, capacity, sineTable, doubleIncrement⟩ := par
  cases num with
  | exact => exact iff_of_true rfl trivial
  | ieee f =>
    simp only [resetCheck, ResetCheckHolds]
    rw [detuneOf_ieee rfl]
    simp

/-- Each check of the model is the check that the table words. -/
theorem resetCheck_iff (par : Config.Params) (c : Config.Record) :
    ∀ k, resetCheck par c k = true ↔ ResetCheckHolds par c k
  | 1 => by simp [resetCheck, ResetCheckHolds]
  | 2 => by simp [resetCheck, ResetCheckHolds, recordFinite, pidRecordFinite_iff, and_assoc]
  | 3 => by simp [resetCheck, ResetCheckHolds, and_assoc]
  | 4 => decide_eq_true_iff
  | 6 => roundsWithin_iff
  | 7 => resetCheck_detune_iff par c
  | 9 => by simp [resetCheck, ResetCheckHolds, roundsWithin_iff, positive]
  | 5 | 8 | 10 | 11 | 13 | 14 => Iff.rfl
  | 12 | 15 => coefs_finite_iff
  | 16 => by simp [resetCheck, ResetCheckHolds, positive, and_assoc]
  | 0 | _ + 17 => iff_of_true rfl trivial

/-! ## The first failing check -/

theorem checkNumbers_eq_range' : checkNumbers = List.range' 1 16 := rfl

theorem firstFailedCheck_eq_some_iff {par : Config.Params} {c : Config.Record} {k : Nat} :
    firstFailedCheck par c = some k ↔
      1 ≤ k ∧ k ≤ 16 ∧ ¬ ResetCheckHolds par c k ∧ ∀ j, 1 ≤ j → j < k → ResetCheckHolds par c j := by
  rw [firstFailedCheck, checkNumbers_eq_range', List.find?_range'_eq_some]
  simp only [List.mem_range'_1, Bool.not_eq_true', Bool.not_not, resetCheck_iff, ← Bool.not_eq_true]
  rw [Nat.lt_succ_iff, and_left_comm, and_assoc]

theorem firstFailedCheck_eq_none_iff {par : Config.Params} {c : Config.Record} :
    firstFailedCheck par c = none ↔ ∀ k, 1 ≤ k → k ≤ 16 → ResetCheckHolds par c k := by
  rw [firstFailedCheck, checkNumbers_eq_range', List.find?_range'_eq_none]
  simp only [Bool.not_not, resetCheck_iff, Nat.lt_succ_iff]

/-! ## The step (R343) -/

/-- The step that takes a reset with a failing check. -/
theorem step_failedReset {s : State} {c : Config.Record} {rest : List PortEvent} {k : Nat}
    (hp : s.pending = .reset c :: rest) (ht : s.par.wellFormed = true) (hc : c.wellFormed s.par.num = true)
    (h : firstFailedCheck s.par c = some k) : step s = .next (afterFailedReset k { s with pending := rest }) := by
  simp [step, hp, platformReset, ht, hc, applyReset, h]

@[simp] theorem afterFailedReset_halted (k : Nat) (s : State) : (afterFailedReset k s).halted = true := statusWord_bit0 _ _

@[simp] theorem afterFailedReset_causeField (k : Nat) (s : State) :
    (afterFailedReset k s).causeField = Cause.code .configError := statusWord_cause _ _

@[simp] theorem afterFailedReset_infoField (k : Nat) (s : State) :
    (afterFailedReset k s).infoField = BitVec.ofNat 16 k := statusWord_info _ _

/-- Settles O11: the model's checks are the table's, looked at from 1 to 16, and a failing one is reported in STATUS. -/
theorem resetReportsTheFirstFailedCheck : Obligations.ResetReportsTheFirstFailedCheck := by
  refine ⟨fun _ _ _ => firstFailedCheck_eq_some_iff, fun s c rest hp ht hc => ⟨fun k h1 h16 hk hlt => ?_, fun hall => ?_⟩⟩
  · exact ⟨_, step_failedReset hp ht hc (firstFailedCheck_eq_some_iff.mpr ⟨h1, h16, hk, hlt⟩),
      afterFailedReset_halted _ _, afterFailedReset_infoField _ _⟩
  · exact ⟨_, step_reset hp ht hc (firstFailedCheck_eq_none_iff.mpr hall), rfl⟩

/-- Settles O13: the state after the failed reset has STATUS from `k`, and keeps the events to come. -/
theorem failedResetHaltsWithTheCheckNumber : Obligations.FailedResetHaltsWithTheCheckNumber := by
  intro s c rest k hp ht hc h
  exact ⟨_, step_failedReset hp ht hc h, afterFailedReset_halted _ _, afterFailedReset_causeField _ _,
    afterFailedReset_infoField _ _, rfl⟩

end Sys2Proof.Machine
end
